-- ==== Sys2Proof/Word.lean ====
section
/-! DEFINITION. The two word types of the core (spec 00_scope.md R9, R10): every value is unsigned. -/

namespace Sys2Proof

/-- A BUF byte, a command field, the tick counter T (R9: 8 bits). -/
abbrev Byte := BitVec 8

/-- The command word, STATUS, RESULT, FAULT and FCMD (R9: 32 bits). -/
abbrev Word := BitVec 32

end Sys2Proof
end

