-- ==== Sys2Proof/Syntax.lean ====
section
/-! DEFINITION. The command set: one constructor per row of spec/opcode_table.json (30_encoding.md R73). -/

namespace Sys2Proof

/-- The 27 commands with their operands as R74 assembles them: unsigned, at the width of their field.
Format X keeps its two flags and both addresses, because R76 makes a nonzero address of an absent buffer an
error of the word. -/
inductive Instr where
  -- TimeBase
  | tbRead
  | tbWrite (v : Byte)
  | tbDiff (earlier later : Byte)
  | tbWait (target : Byte)
  | tbDlyUs (n : BitVec 16)
  | tbDlyMs (n : BitVec 16)
  -- SoftSpiBus
  | spiInit (cpol cpha cspol : Bool)
  | spiSel
  | spiDesel
  | spiXfer (tx : Byte)
  | spiXferB (t r : Bool) (a b count : Byte)
  | spiFrame (t r : Bool) (a b count : Byte)
  -- SoftSerialLine
  | uartTx (byte : Byte)
  | uartRx
  | uartWaitB
  | uartBrk (budget : BitVec 24)
  | uartNoBrk
  -- RadioDriver
  | rfInit
  | rfMode (mode : Byte)
  | rfConfig (p : Byte)
  | rfTx (a len rep : Byte)
  | rfRdy
  | rfRxF (b maxlen : Byte)
  | rfRxC (b maxlen : Byte)
  -- ManchesterCodec
  | mcValid (b size : Byte)
  | mcDecode (b size : Byte)
  | mcEncode (a b size : Byte)
deriving DecidableEq, Repr

end Sys2Proof
end

