-- ==== Sys2Proof/WellFormed.lean ====
section
/-! DEFINITION. Which terms of Instr have a command word (30_encoding.md R71, R76). -/

namespace Sys2Proof

/-- Format X (R76): A is 0 when T = 0, and B is 0 when R = 0. -/
def absentIsZero (t r : Bool) (a b : Byte) : Bool :=
  (t || a == 0) && (r || b == 0)

/-- A command that some word of the core encodes. Only format X constrains its operands: every other operand
fills its field. -/
def Instr.wellFormed : Instr → Bool
  | .spiXferB t r a b _ => absentIsZero t r a b
  | .spiFrame t r a b _ => absentIsZero t r a b
  | .tbRead | .tbWrite _ | .tbDiff _ _ | .tbWait _ | .tbDlyUs _ | .tbDlyMs _ => true
  | .spiInit _ _ _ | .spiSel | .spiDesel | .spiXfer _ => true
  | .uartTx _ | .uartRx | .uartWaitB | .uartBrk _ | .uartNoBrk => true
  | .rfInit | .rfMode _ | .rfConfig _ | .rfTx _ _ _ | .rfRdy | .rfRxF _ _ | .rfRxC _ _ => true
  | .mcValid _ _ | .mcDecode _ _ | .mcEncode _ _ _ => true

end Sys2Proof
end

