-- ==== Sys2Proof/Decode.lean ====
section
/-! DEFINITION. Decoding and encoding of the 32-bit command word (30_encoding.md R70 to R77). -/

namespace Sys2Proof

/-- The two ways decode turns a word away (R72 steps 1 and 2). -/
inductive DecodeError where
  /-- OP is not in the opcode map of R73 (R75). -/
  | illegalOpcode
  /-- a field the format reserves is nonzero (R76). -/
  | reservedNonzero
deriving DecidableEq, Repr

/-- OP = w[31:24] (R70). -/
def fieldOp (w : Word) : Byte := w.extractLsb' 24 8
/-- A = w[23:16] (R70). -/
def fieldA (w : Word) : Byte := w.extractLsb' 16 8
/-- B = w[15:8] (R70). -/
def fieldB (w : Word) : Byte := w.extractLsb' 8 8
/-- C = w[7:0] (R70). -/
def fieldC (w : Word) : Byte := w.extractLsb' 0 8
/-- I16 = w[15:0] (R70). -/
def fieldI16 (w : Word) : BitVec 16 := w.extractLsb' 0 16
/-- I24 = w[23:0] (R70). -/
def fieldI24 (w : Word) : BitVec 24 := w.extractLsb' 0 24

/-- R72 step 2: the reserved fields must be zero, else RESERVED_NONZERO. -/
def ifReserved (zero : Bool) (i : Instr) : Except DecodeError Instr :=
  if zero then .ok i else .error .reservedNonzero

/-- Format N: A, B and C are reserved. -/
def decodeN (w : Word) (i : Instr) : Except DecodeError Instr :=
  ifReserved (fieldA w == 0 && fieldB w == 0 && fieldC w == 0) i

/-- Format C8: A and B are reserved; the operand is C. -/
def decodeC8 (w : Word) (f : Byte → Instr) : Except DecodeError Instr :=
  ifReserved (fieldA w == 0 && fieldB w == 0) (f (fieldC w))

/-- Format BC: A is reserved; the operands are B, C. -/
def decodeBC (w : Word) (f : Byte → Byte → Instr) : Except DecodeError Instr :=
  ifReserved (fieldA w == 0) (f (fieldB w) (fieldC w))

/-- Format ABC: no reserved field. -/
def decodeABC (w : Word) (f : Byte → Byte → Byte → Instr) : Except DecodeError Instr :=
  .ok (f (fieldA w) (fieldB w) (fieldC w))

/-- Format I16: A is reserved; the operand is {B, C}. -/
def decodeI16 (w : Word) (f : BitVec 16 → Instr) : Except DecodeError Instr :=
  ifReserved (fieldA w == 0) (f (fieldI16 w))

/-- Format I24: no reserved field; the operand is {A, B, C}. -/
def decodeI24 (w : Word) (f : BitVec 24 → Instr) : Except DecodeError Instr :=
  .ok (f (fieldI24 w))

/-- Format CFG: A, B and C[7:3] are reserved; CPOL = C[0], CPHA = C[1], CSPOL = C[2]. -/
def decodeCFG (w : Word) (f : Bool → Bool → Bool → Instr) : Except DecodeError Instr :=
  ifReserved (fieldA w == 0 && fieldB w == 0 && (fieldC w).extractLsb' 3 5 == 0)
    (f ((fieldC w).getLsbD 0) ((fieldC w).getLsbD 1) ((fieldC w).getLsbD 2))

/-- Format X: T = OP[1], R = OP[0]; A is reserved when T = 0 and B when R = 0. -/
def decodeX (w : Word) (t r : Bool) (f : Bool → Bool → Byte → Byte → Byte → Instr) :
    Except DecodeError Instr :=
  ifReserved (absentIsZero t r (fieldA w) (fieldB w)) (f t r (fieldA w) (fieldB w) (fieldC w))

/-- The decode procedure of R72 over the opcode map of R73. Every opcode not listed is illegal (R75). -/
def decode (w : Word) : Except DecodeError Instr :=
  match (fieldOp w).toNat with
  | 0x10 => decodeN w .tbRead
  | 0x11 => decodeC8 w .tbWrite
  | 0x12 => decodeBC w .tbDiff
  | 0x13 => decodeC8 w .tbWait
  | 0x14 => decodeI16 w .tbDlyUs
  | 0x15 => decodeI16 w .tbDlyMs
  | 0x20 => decodeCFG w .spiInit
  | 0x21 => decodeN w .spiSel
  | 0x22 => decodeN w .spiDesel
  | 0x23 => decodeC8 w .spiXfer
  | 0x24 => decodeX w false false .spiXferB
  | 0x25 => decodeX w false true .spiXferB
  | 0x26 => decodeX w true false .spiXferB
  | 0x27 => decodeX w true true .spiXferB
  | 0x28 => decodeX w false false .spiFrame
  | 0x29 => decodeX w false true .spiFrame
  | 0x2A => decodeX w true false .spiFrame
  | 0x2B => decodeX w true true .spiFrame
  | 0x30 => decodeC8 w .uartTx
  | 0x31 => decodeN w .uartRx
  | 0x32 => decodeN w .uartWaitB
  | 0x33 => decodeI24 w .uartBrk
  | 0x34 => decodeN w .uartNoBrk
  | 0x40 => decodeN w .rfInit
  | 0x41 => decodeC8 w .rfMode
  | 0x42 => decodeC8 w .rfConfig
  | 0x43 => decodeABC w .rfTx
  | 0x44 => decodeN w .rfRdy
  | 0x45 => decodeBC w .rfRxF
  | 0x46 => decodeBC w .rfRxC
  | 0x50 => decodeBC w .mcValid
  | 0x51 => decodeBC w .mcDecode
  | 0x52 => decodeABC w .mcEncode
  | _ => .error .illegalOpcode

/-- The opcode byte of a command: R73's OP column; for format X, OP = base + 2·T + R (41_spi.md R126, R128). -/
def opcode : Instr → Byte
  | .tbRead => 0x10
  | .tbWrite _ => 0x11
  | .tbDiff _ _ => 0x12
  | .tbWait _ => 0x13
  | .tbDlyUs _ => 0x14
  | .tbDlyMs _ => 0x15
  | .spiInit _ _ _ => 0x20
  | .spiSel => 0x21
  | .spiDesel => 0x22
  | .spiXfer _ => 0x23
  | .spiXferB t r _ _ _ => 0x09#6 ++ BitVec.ofBool t ++ BitVec.ofBool r
  | .spiFrame t r _ _ _ => 0x0A#6 ++ BitVec.ofBool t ++ BitVec.ofBool r
  | .uartTx _ => 0x30
  | .uartRx => 0x31
  | .uartWaitB => 0x32
  | .uartBrk _ => 0x33
  | .uartNoBrk => 0x34
  | .rfInit => 0x40
  | .rfMode _ => 0x41
  | .rfConfig _ => 0x42
  | .rfTx _ _ _ => 0x43
  | .rfRdy => 0x44
  | .rfRxF _ _ => 0x45
  | .rfRxC _ _ => 0x46
  | .mcValid _ _ => 0x50
  | .mcDecode _ _ => 0x51
  | .mcEncode _ _ _ => 0x52

/-- The word {OP, A, B, C} (R70). -/
def wordOf (op a b c : Byte) : Word := op ++ a ++ b ++ c

/-- The command word of a command, from the format tables of R71 and R73. -/
def encode (i : Instr) : Word :=
  match i with
  | .tbRead | .spiSel | .spiDesel | .uartRx | .uartWaitB | .uartNoBrk | .rfInit | .rfRdy =>
      wordOf (opcode i) 0 0 0
  | .tbWrite c | .tbWait c | .spiXfer c | .uartTx c | .rfMode c | .rfConfig c => wordOf (opcode i) 0 0 c
  | .tbDiff b c | .rfRxF b c | .rfRxC b c | .mcValid b c | .mcDecode b c => wordOf (opcode i) 0 b c
  | .tbDlyUs n | .tbDlyMs n => opcode i ++ 0#8 ++ n
  | .uartBrk n => opcode i ++ n
  | .spiInit cpol cpha cspol =>
      wordOf (opcode i) 0 0 (0#5 ++ BitVec.ofBool cspol ++ BitVec.ofBool cpha ++ BitVec.ofBool cpol)
  | .spiXferB _ _ a b c | .spiFrame _ _ a b c | .rfTx a b c | .mcEncode a b c => wordOf (opcode i) a b c

/-- The command the decoder reads from the low `nbits` bits of `w`, the bits above being 0 (R77: every command is
one 32-bit word, bit 0 least significant). -/
def decodeTableWord (nbits w : Nat) : Option Instr :=
  match decode (BitVec.ofNat 32 (w % 2 ^ nbits)) with
  | .ok i => some i
  | .error _ => none

end Sys2Proof
end

