-- ==== Sys2Proof/Machine/Event.lean ====
section
/-! DEFINITION. Pins and the event history (10_state.md R34, R36, R37). -/

namespace Sys2Proof.Machine

/-- The output pins (R34). -/
inductive OutPin where
  | sclk | mosi | cs | utx
deriving DecidableEq, Repr

/-- The input pins (R36). -/
inductive InPin where
  | miso | urx
deriving DecidableEq, Repr

/-- The level of an output pin: 0, 1, or Z where it is not driven (R34). -/
inductive Level where
  | low | high | z
deriving DecidableEq, Repr

/-- One event of HIST (R37). Every event carries NOW. -/
inductive Event where
  /-- output pin `p` was driven to level `l` -/
  | drive (now : Nat) (p : OutPin) (l : Bool)
  /-- input pin `p` was sampled and answered `b` -/
  | sample (now : Nat) (p : InPin) (b : Bool)
  /-- command word `w` was accepted -/
  | accept (now : Nat) (w : Word)
  /-- a command completed with status code `code` -/
  | complete (now : Nat) (code : Byte)
deriving DecidableEq, Repr

end Sys2Proof.Machine
end

