-- ==== Sys2Proof/Config.lean ====
section
/-! DEFINITION. The parameters of 00_scope.md R7 and R8, their defaults, and the free values of the model. -/

namespace Sys2Proof

/-- The implementation parameters (R7, R8): arguments of the model, fixed while the machine runs. A value of this
type has passed the checks R8 asks for: register addresses are 7 bits wide, a mask is the position of its one set
bit, and the proof fields hold the numeric ranges. R7's TICK_US is fixed at 1 and is no field. -/
structure Params where
  /-- SPI_SETTLE_US: settle delay per SPI bit, in ticks (OPEN) -/
  spiSettleUs : Nat
  /-- UART_BIT: bit period in ticks -/
  uartBit : Nat
  /-- UART_HALF: half-bit period in ticks -/
  uartHalf : Nat
  /-- BRK_SAMPLE: break-sample period in ticks -/
  brkSample : Nat
  /-- BRK_BITS: break threshold in bit periods; no command reads it (assumption 17) -/
  brkBits : Nat
  /-- BRK_SAMPLES: break threshold in consecutive low samples -/
  brkSamples : Nat
  regFifo : BitVec 7
  regOpMode : BitVec 7
  regVersion : BitVec 7
  regIrqFlags1 : BitVec 7
  regIrqFlags2 : BitVec 7
  regFifoThresh : BitVec 7
  /-- MASK_MODE_READY, a bit of REG_IRQFLAGS1 -/
  bitModeReady : Fin 8
  /-- MASK_TX_READY, a bit of REG_IRQFLAGS1 -/
  bitTxReady : Fin 8
  /-- MASK_FIFO_NOT_EMPTY, a bit of REG_IRQFLAGS2 -/
  bitFifoNotEmpty : Fin 8
  /-- MASK_FIFO_LEVEL, a bit of REG_IRQFLAGS2 -/
  bitFifoLevel : Fin 8
  /-- MASK_FIFO_OVERRUN, a bit of REG_IRQFLAGS2 -/
  bitFifoOverrun : Fin 8
  /-- MASK_PAYLOAD_READY, a bit of REG_IRQFLAGS2 -/
  bitPayloadReady : Fin 8
  /-- MODE_CODE(Standby), MODE_CODE(Receive), MODE_CODE(Transmit) -/
  codeStandby : Byte
  codeReceive : Byte
  codeTransmit : Byte
  writeFlag : Byte
  readMask : Byte
  /-- NOT_WIRED: the two sentinel version values -/
  notWiredA : Byte
  notWiredB : Byte
  /-- FIFO_CAPACITY, the MTU -/
  fifoCapacity : Nat
  /-- DEFAULT_TX_REPEAT (OPEN) -/
  defaultTxRepeat : Nat
  /-- PROFILES (OPEN): each profile an ordered list of (address, value) pairs -/
  profiles : List (List (BitVec 7 × Byte))
  /-- POLL_LIMIT: `none` is UNBOUNDED -/
  pollLimit : Option Nat
  spiSettleUs_le : spiSettleUs ≤ 65535 := by decide
  uartBit_range : 1 ≤ uartBit ∧ uartBit ≤ 255 := by decide
  uartHalf_le : uartHalf ≤ 255 := by decide
  brkSample_range : 1 ≤ brkSample ∧ brkSample ≤ 255 := by decide
  brkBits_pos : 1 ≤ brkBits := by decide
  brkSamples_range : 1 ≤ brkSamples ∧ brkSamples ≤ 16777216 := by decide
  fifoCapacity_range : 1 ≤ fifoCapacity ∧ fifoCapacity ≤ 255 := by decide
  defaultTxRepeat_range : 1 ≤ defaultTxRepeat ∧ defaultTxRepeat ≤ 255 := by decide
  profiles_le : profiles.length ≤ 255 := by decide
  pollLimit_pos : pollLimit ≠ some 0 := by decide
deriving DecidableEq, Repr

/-- NPROFILES, the length of PROFILES (R8). -/
def Params.nprofiles (p : Params) : Nat := p.profiles.length

namespace Config

/-- SPI_SETTLE_US is OPEN (R7: no default): a free value in 0..65535. -/
opaque spiSettleUs : Fin 65536

/-- DEFAULT_TX_REPEAT is OPEN (R8): the default repeat count less one, a free value in 0..254. -/
opaque defaultTxRepeatLessOne : Fin 255

/-- PROFILES is OPEN (R8): a free list, of which the first 255 profiles count (NPROFILES is at most 255). -/
opaque profiles : List (List (BitVec 7 × Byte))

/-- R7's and R8's defaults (the register map is the one R8 marks GK: assumption 18) with values for the three OPEN
parameters: the settle delay, the default repeat count less one, and the profiles (the first 255 count). -/
def paramsWith (settle : Fin 65536) (repeatLessOne : Fin 255) (table : List (List (BitVec 7 × Byte))) :
    Params where
  spiSettleUs := settle.val
  uartBit := 104
  uartHalf := 52
  brkSample := 13
  brkBits := 10
  brkSamples := 80
  regFifo := 0x00
  regOpMode := 0x01
  regVersion := 0x10
  regIrqFlags1 := 0x27
  regIrqFlags2 := 0x28
  regFifoThresh := 0x3C
  bitModeReady := 7
  bitTxReady := 5
  bitFifoNotEmpty := 6
  bitFifoLevel := 5
  bitFifoOverrun := 4
  bitPayloadReady := 2
  codeStandby := 0x04
  codeReceive := 0x10
  codeTransmit := 0x0C
  writeFlag := 0x80
  readMask := 0x7F
  notWiredA := 0x00
  notWiredB := 0xFF
  fifoCapacity := 66
  defaultTxRepeat := repeatLessOne.val + 1
  profiles := table.take 255
  pollLimit := none
  spiSettleUs_le := by omega
  defaultTxRepeat_range := by omega
  profiles_le := by simp

/-- The parameters of the machine right after reset: the defaults, and the free values above for the OPEN ones. -/
def params : Params := paramsWith spiSettleUs defaultTxRepeatLessOne profiles

/-- A sample of an input pin that no scripted answer decides (10_state.md R36): any value. It may depend on which draw
this is, the pin, the history and NOW. -/
opaque pinDraw : Nat → Machine.InPin → List Machine.Event → Nat → Bool

/-- T after reset (10_state.md R27: "an unconstrained draw in 0..255"): one free value per reset. -/
opaque resetTick : Nat → Byte

/-- What a host read returns where the spec states no value (20_memory.md R52, 60_exceptions.md R206): any value. It
may depend on which draw this is, the offset read, the history and NOW. -/
opaque readDraw : Nat → BitVec 9 → List Machine.Event → Nat → Word

end Config

end Sys2Proof
end

