-- ==== Sys2Proof/Machine/State.lean ====
section
/-! DEFINITION. The state of the core (10_state.md R22), the reasons a step can stop, and the state after reset. -/

namespace Sys2Proof.Machine

/-- No step of this machine stops: every fault of the spec is a NEXT state with STATUS.FAULTED = 1 (60_exceptions.md
R204), and no rule leaves a command without an effect. So the type has no constructor (safe: nothing is cut short). -/
inductive Fault where
deriving DecidableEq, Repr

/-- Why a step is refused. -/
inductive Refusal where
  /-- raised by an arm of `exec` whose command has no meaning yet (safe: nothing can be proved of a run past it);
  no arm raises it now -/
  | notModelled (mnemonic : String)
deriving DecidableEq, Repr

/-- The status codes of 60_exceptions.md R200. -/
inductive Code where
  | ok | ready | notReady | noise | decoded
  | framing | lineBreak | bufferTooSmall | longPayload | overrun | invalidManchester
  | noResponse | invalidParameter | timeout | fault
deriving DecidableEq, Repr

/-- The fault causes of 60_exceptions.md R202, but NONE. -/
inductive Cause where
  | illegalOpcode | reservedNonzero | bufRange | bufUnwritten | spiUnconfigured | spiReinit
  | cphaUnimplemented | modeUndefined | manchesterPrecondition | oddSize
  | cmdWhileBusy | bufWriteWhileBusy | hostAccess
deriving DecidableEq, Repr

/-- STATUS by its three fields (R24); bits 31:10 read 0. -/
structure Status where
  code : Byte
  busy : Bool
  faulted : Bool
deriving DecidableEq, Repr

/-- A latched host fault: the cause, and the word to record in FCMD (R29, 60_exceptions.md R206). -/
structure Pend where
  cause : Cause
  word : Word
deriving DecidableEq, Repr

/-- BUSCFG (R30). -/
structure BusCfg where
  configured : Bool
  cpol : Bool
  cpha : Bool
  cspol : Bool
deriving DecidableEq, Repr

/-- The modes a radio command can set (43_radio.md R164). -/
inductive RadioMode where
  | standby | receive | transmit
deriving DecidableEq, Repr

/-- MODE (R31): Undefined until a set_mode succeeds. -/
inductive Mode where
  | undefined
  | known (m : RadioMode)
deriving DecidableEq, Repr

/-- The levels of the four output pins (R34). -/
structure Pins where
  sclk : Level
  mosi : Level
  cs : Level
  utx : Level
deriving DecidableEq, Repr

/-- BUF (20_memory.md R50): the written bytes as (address, value) pairs, addresses strictly rising. An address that is
not listed is Unwritten. -/
abbrev Memory := List Host.Cell

/-- The canonical form from address `lo` up: rising addresses below 256. No entry can equal what an unlisted address
reads as, since that is no value (Unwritten). -/
def Memory.wfFrom (lo : Nat) : Memory → Bool
  | [] => true
  | (a, _) :: rest => decide (lo ≤ a) && decide (a < 256) && Memory.wfFrom (a + 1) rest

/-- The canonical form of BUF. -/
def Memory.wf (m : Memory) : Bool := Memory.wfFrom 0 m

/-- Who called `uart_receive` (42_uart.md R141, R142): UART.RX itself, or the loop of UART.WAITB. -/
inductive RxCaller where
  | receive | waitByte
deriving DecidableEq, Repr

/-- One action the sequencer has still to perform, with the local variables of the pseudocode it belongs to. A running
command is a list of them. Each is one line of a rule's pseudocode; Sequencer.lean performs them. -/
inductive Act where
  /-- hold until the tick source's next tick (00_scope.md R13) -/
  | awaitTick
  /-- drive an output pin (R13) -/
  | drive (p : OutPin) (l : Bool)
  /-- entry of `wait_until` (40_timebase.md R104) -/
  | waitUntil (target : Byte)
  /-- phase 1 of `wait_until` -/
  | whileAtOrAbove (start target : Byte)
  /-- phase 2 of `wait_until` -/
  | whileBelow (target : Byte)
  /-- entry of `delay_us`: reads T (R105) -/
  | delayUs (n : Nat)
  /-- the loop of `delay_us` -/
  | delayLoop (n : Nat) (target : Byte)
  /-- the loop of `delay_ms` (R106) -/
  | delayMs (n : Nat)
  /-- `rx <- 0` of `spi_byte` (41_spi.md R124) -/
  | clearRx
  /-- `rx <- ((rx << 1) | sample(MISO)) mod 256` of `spi_byte` -/
  | sampleRx
  /-- `spi_bytes` from tx address `a` and rx address `b` with `n` bytes to go (R127) -/
  | spiBytes (t r : Bool) (a b : Byte) (n : Nat)
  /-- `BUF[b] <- rx` -/
  | storeRx (b : Byte)
  /-- `finish(code, result)` (60_exceptions.md R205) -/
  | finish (code : Code) (result : Word)
  /-- `finish(OK, zext_32(rx))` of SPI.XFER -/
  | finishRx
  /-- entry of `uart_receive`: reads T (42_uart.md R141) -/
  | uartStart (c : RxCaller)
  /-- the start-bit sample -/
  | uartGlitch (c : RxCaller) (target : Byte)
  /-- the sample of data bit `i` into `d` -/
  | uartData (c : RxCaller) (i : Nat) (d target : Byte)
  /-- the stop-bit sample -/
  | uartStop (c : RxCaller) (d : Byte)
  /-- the spin of UART.WAITB (R142) -/
  | spinWhileHigh
  /-- the spin of UART.NOBRK (R144) -/
  | spinWhileLow
  /-- the loop test of UART.BRK (R143) -/
  | breakLoop (budget count : Nat) (target : Byte)
  /-- the sample of UART.BRK -/
  | breakSample (budget count : Nat) (target : Byte)
  /-- `poll`: read the register (43_radio.md R162); `want` is true for SET; `k` reads done -/
  | poll (reg : BitVec 7) (bit : Fin 8) (want : Bool) (k : Nat)
  /-- `poll`: test what was read; `k` reads done -/
  | pollTest (reg : BitVec 7) (bit : Fin 8) (want : Bool) (k : Nat)
  /-- `MODE <- M` of `set_mode_seq` (R164) -/
  | setMode (m : RadioMode)
  /-- `PROFILE <- p` (R165) -/
  | setProfile (p : Byte)
  /-- the end of RF.INIT, on the version byte read (R163) -/
  | initCheck
  /-- the load loop of RF.TX with `k` loads to go (R166) -/
  | txLoad (a : Byte) (len k : Nat)
  /-- the overrun check of RF.TX -/
  | txCheck
  /-- the end of RF.RDY (R167) -/
  | readyCheck
  /-- RF.RXC from the length prefix on (R169) -/
  | countedPrefix (b maxlen : Byte)
deriving DecidableEq, Repr

/-- What happens when the sequencer does not act: an access by the host, a reset, or a tick. -/
inductive Input where
  /-- one tick of the tick source (00_scope.md R13) -/
  | tick
  /-- the reset input is asserted and released (70_reset_and_hazards.md R230) -/
  | reset
  /-- the host writes `v`, `width` bits wide, at offset `off` of the window (20_memory.md R55) -/
  | write (width : Nat) (off : BitVec 9) (v : Word)
  /-- the host reads `width` bits at offset `off` -/
  | read (width : Nat) (off : BitVec 9)
  /-- the host polls STATUS until BUSY = 0 (30_encoding.md R78, `WAIT`) -/
  | waitIdle
deriving DecidableEq, Repr

/-- The state of the core: R22's table, the parameters, and the model's own fields. -/
structure State where
  /-- the parameters of 00_scope.md R7 and R8; nothing writes them -/
  par : Params
  /-- CMD (R23): the last accepted word -/
  cmd : Word
  /-- STATUS (R24) -/
  status : Status
  /-- RESULT (R25) -/
  result : Word
  /-- FAULT (R26) -/
  fault : Word
  /-- FCMD (R26) -/
  fcmd : Word
  /-- PEND (R29) -/
  pend : Option Pend
  /-- T, the tick counter (R27) -/
  t : Byte
  /-- NOW (R28), model-only -/
  now : Nat
  /-- BUSCFG (R30) -/
  busCfg : BusCfg
  /-- MODE (R31) -/
  mode : Mode
  /-- PROFILE (R32); `none` is None -/
  profile : Option Byte
  /-- VERSION (R33); `none` is Unwritten -/
  version : Option Byte
  /-- SCLK, MOSI, CS and UTX (R34) -/
  pins : Pins
  /-- BUF (R35) -/
  buf : Memory
  /-- CURCMD (R29); `none` is "no value" -/
  curCmd : Option Word
  /-- HIST (R37), newest event first -/
  hist : List Event
  /-- the model's own: the actions the running command has still to perform -/
  agenda : List Act
  /-- the model's own: the local variable `rx` (or `v`) of the running pseudocode -/
  rx : Byte
  /-- the model's own: what the host, the reset line and the tick source do next -/
  inputs : List Input
  /-- the model's own: answers the environment has already decided for MISO -/
  misoIn : List Bool
  /-- the model's own: answers the environment has already decided for URX -/
  urxIn : List Bool
  /-- the model's own: how many free values have been drawn -/
  draws : Nat
  /-- the model's own: the word the last host read returned -/
  readout : Option Word
deriving DecidableEq, Repr

/-- What the machine does next (Step.lean). -/
inductive Move where
  /-- the sequencer performs one action; the state has it taken off the agenda -/
  | act (a : Act) (s : State)
  /-- one input event happens; the state has it taken off the inputs -/
  | event (i : Input) (s : State)
  /-- the idle core accepts a command word (R23) -/
  | command (w : Word) (s : State)
deriving DecidableEq, Repr

/-- The state after reset (70_reset_and_hazards.md R230). T is the spec's own draw; BUSCFG's polarity bits hold no
value in the spec and are 0 here (assumption 5); the parameters are R7's and R8's defaults. -/
def State.reset : State where
  par := Config.params
  cmd := 0
  status := { code := 0, busy := false, faulted := false }
  result := 0
  fault := 0
  fcmd := 0
  pend := none
  t := Config.resetTick 0
  now := 0
  busCfg := { configured := false, cpol := false, cpha := false, cspol := false }
  mode := .undefined
  profile := none
  version := none
  pins := { sclk := .z, mosi := .z, cs := .z, utx := .high }
  buf := []
  curCmd := none
  hist := []
  agenda := []
  rx := 0
  inputs := []
  misoIn := []
  urxIn := []
  draws := 1
  readout := none

end Sys2Proof.Machine
end

