-- ==== Sys2Proof/Machine/Flags.lean ====
section
/-! DEFINITION. Status codes, fault causes, the STATUS word, and the tests of radio flags (60_exceptions.md R200, R202;
10_state.md R24, R38). -/

namespace Sys2Proof.Machine

/-- The numeric value of a status code (R200). -/
def Code.value : Code → Byte
  | .ok => 0x00
  | .ready => 0x01
  | .notReady => 0x02
  | .noise => 0x03
  | .decoded => 0x04
  | .framing => 0x81
  | .lineBreak => 0x82
  | .bufferTooSmall => 0x83
  | .longPayload => 0x84
  | .overrun => 0x85
  | .invalidManchester => 0x86
  | .noResponse => 0x87
  | .invalidParameter => 0x88
  | .timeout => 0x89
  | .fault => 0xFF

/-- The codes of R200, in the table's order: CODE never holds the value of another. -/
def Code.all : List Code :=
  [.ok, .ready, .notReady, .noise, .decoded, .framing, .lineBreak, .bufferTooSmall, .longPayload, .overrun,
   .invalidManchester, .noResponse, .invalidParameter, .timeout, .fault]

/-- R200's classes: true for the error codes and the fault code. -/
def Code.isError : Code → Bool
  | .ok | .ready | .notReady | .noise | .decoded => false
  | .framing | .lineBreak | .bufferTooSmall | .longPayload | .overrun | .invalidManchester => true
  | .noResponse | .invalidParameter | .timeout | .fault => true

/-- The numeric value of a fault cause (R202). -/
def Cause.value : Cause → Byte
  | .illegalOpcode => 0x01
  | .reservedNonzero => 0x02
  | .bufRange => 0x03
  | .bufUnwritten => 0x04
  | .spiUnconfigured => 0x05
  | .spiReinit => 0x06
  | .cphaUnimplemented => 0x07
  | .modeUndefined => 0x08
  | .manchesterPrecondition => 0x09
  | .oddSize => 0x0A
  | .cmdWhileBusy => 0x0B
  | .bufWriteWhileBusy => 0x0C
  | .hostAccess => 0x0D

/-- Zero-extension to a 32-bit register (00_scope.md R10, `zext_32`). -/
def zext32 {w : Nat} (v : BitVec w) : Word := v.setWidth 32

/-- STATUS as the host reads it (R24): CODE[7:0], BUSY[8], FAULTED[9], bits 31:10 read 0. -/
def Status.word (st : Status) : Word :=
  0#22 ++ BitVec.ofBool st.faulted ++ BitVec.ofBool st.busy ++ st.code

/-- The mask with the one bit `bit` set (00_scope.md R8). -/
def maskOf (bit : Fin 8) : Byte := 1#8 <<< bit.val

/-- `(v AND m) != 0` for a single-bit mask m (43_radio.md R162). -/
def flagSet (v : Byte) (bit : Fin 8) : Bool := (v &&& maskOf bit) != 0

end Sys2Proof.Machine
end

