-- ==== Sys2Proof/Machine/Ops.lean ====
section
/-! DEFINITION. The named operations over BUF, pins, time and the host registers; completion, fault entry and reset. -/

namespace Sys2Proof.Machine

/-! ### BUF (20_memory.md R50 to R54) -/

/-- The byte at address `a` of BUF; `none` is Unwritten (R50). -/
def bufRead (m : Memory) (a : Byte) : Option Byte :=
  match m with
  | [] => none
  | (k, v) :: rest => if k = a.toNat then some v else bufRead rest a

/-- Store at the address with number `k`, keeping the entries in rising order. -/
def bufInsert (m : Memory) (k : Nat) (b : Byte) : Memory :=
  match m with
  | [] => [(k, b)]
  | (j, v) :: rest =>
    if k < j then (k, b) :: (j, v) :: rest
    else if k = j then (k, b) :: rest
    else (j, v) :: bufInsert rest k b

/-- `BUF[a] <- b`: the byte gets the value and is marked written (R54). -/
def bufWrite (m : Memory) (a b : Byte) : Memory := bufInsert m a.toNat b

/-- `MemWrite(a, n, v)` (00_scope.md R12): the bytes of `bs` at `a`, `a + 1`, ... in address order. -/
def bufWriteAll (m : Memory) (a : Byte) (bs : List Byte) : Memory :=
  match bs with
  | [] => m
  | b :: rest => bufWriteAll (bufWrite m a b) (a + 1) rest

/-- The value `MemRead` returns for one byte. The check of R53 comes first, so no command meets an Unwritten byte
here. -/
def bufGet (m : Memory) (a : Byte) : Byte := (bufRead m a).getD 0

/-- `MemRead(a, n)` (00_scope.md R12): the n bytes from `a` in address order. -/
def bufReadAll (m : Memory) (a : Byte) (n : Nat) : List Byte :=
  (List.range n).map fun i => bufGet m (a + BitVec.ofNat 8 i)

/-- `BUF[a] <- b` on the state. -/
def storeByte (a b : Byte) (s : State) : State := { s with buf := bufWrite s.buf a b }

/-! ### Pins, samples, time (00_scope.md R13) -/

/-- Append an event to HIST (10_state.md R37). -/
def logEvent (e : Event) (s : State) : State := { s with hist := e :: s.hist }

/-- A driven level. -/
def levelOf (l : Bool) : Level := if l then .high else .low

/-- The pins with pin `p` at level `l`. -/
def Pins.set (ps : Pins) (p : OutPin) (l : Level) : Pins :=
  match p with
  | .sclk => { ps with sclk := l }
  | .mosi => { ps with mosi := l }
  | .cs => { ps with cs := l }
  | .utx => { ps with utx := l }

/-- `drive(P, l)` (R13): the pin takes the level and the event is recorded. -/
def drive (p : OutPin) (l : Bool) (s : State) : State :=
  logEvent (.drive s.now p l) { s with pins := s.pins.set p (levelOf l) }

/-- What the environment answers to a sample of pin `p`: the next answer it has decided, else a free value. -/
def pinAnswer (p : InPin) (s : State) : Bool × State :=
  match p, s.misoIn, s.urxIn with
  | .miso, b :: rest, _ => (b, { s with misoIn := rest })
  | .urx, _, b :: rest => (b, { s with urxIn := rest })
  | _, _, _ => (Config.pinDraw s.draws p s.hist s.now, { s with draws := s.draws + 1 })

/-- `sample(P)` (R13, 10_state.md R36): the draw, and the event is recorded. -/
def sample (p : InPin) (s : State) : Bool × State :=
  let (b, s1) := pinAnswer p s
  (b, logEvent (.sample s.now p b) s1)

/-- A tick releases a sequencer that holds in `await_tick()` (R13). -/
def release (acts : List Act) : List Act :=
  match acts with
  | .awaitTick :: rest => rest
  | acts => acts

/-- `tick()` (R13): `NOW <- NOW + 1; T <- T +8 1`, whatever the core is doing (10_state.md R27). -/
def tick (s : State) : State :=
  { s with t := s.t + 1, now := s.now + 1, agenda := release s.agenda }

/-! ### Acceptance, completion, fault entry (10_state.md R23; 60_exceptions.md R204 to R206) -/

/-- The idle core accepts command word `w` (R23): `CMD <- w; CURCMD <- w; STATUS.BUSY <- 1`, and the Accept event. -/
def accept (w : Word) (s : State) : State :=
  logEvent (.accept s.now w) { s with cmd := w, curCmd := some w, status := { s.status with busy := true } }

/-- `finish(code, result)` (R205): the command ends. With a latched host fault its code is replaced by FAULT. -/
def finish (code : Code) (result : Word) (s : State) : State :=
  match s.pend with
  | none =>
    logEvent (.complete s.now code.value)
      { s with result := result, status := { s.status with code := code.value, busy := false }, agenda := [] }
  | some p =>
    logEvent (.complete s.now Code.fault.value)
      { s with
        result := result
        pend := none
        fault := zext32 p.cause.value
        fcmd := p.word
        status := { code := Code.fault.value, busy := false, faulted := true }
        agenda := [] }

/-- The Complete event of a fault, where a command was running (R204). -/
def faultEvents (s : State) : List Event :=
  if s.status.busy then .complete s.now Code.fault.value :: s.hist else s.hist

/-- TAKING A FAULT, `raise Fault(cause)` (R204): only the first fault since reset is recorded. FAULT.CAUSE and FCMD are
saved, STATUS, RESULT and PEND change, the running command ends, and nothing else changes. A command is running
while BUSY = 1. -/
def raise (cause : Cause) (s : State) : State :=
  if s.status.faulted then s
  else
    { s with
      fault := zext32 cause.value
      fcmd := if s.status.busy then s.curCmd.getD 0 else 0
      result := 0
      status := { code := Code.fault.value, busy := false, faulted := true }
      pend := none
      hist := faultEvents s
      agenda := [] }

/-- Host misuse while busy (R206): only the first of a busy period is latched. -/
def latch (cause : Cause) (word : Word) (s : State) : State :=
  match s.pend with
  | none => { s with pend := some { cause := cause, word := word } }
  | some _ => s

/-- A host fault that is not a CMD write: ignored when faulted, latched with CURCMD when busy, raised at once when idle
(20_memory.md R56, 60_exceptions.md R204, R206). -/
def hostFault (cause : Cause) (s : State) : State :=
  if s.status.faulted then s
  else if s.status.busy then latch cause (s.curCmd.getD 0) s
  else raise cause s

/-! ### Reset (70_reset_and_hazards.md R230), the only way out of a fault (60_exceptions.md R209) -/

/-- The reset event: R22's reset values. T is a fresh draw. The parameters, the environment's answers, the inputs still
to come, the draw counter and what the host has read are not state of the core and stay. -/
def resetEvent (s : State) : State :=
  { State.reset with
    par := s.par
    t := Config.resetTick s.draws
    inputs := s.inputs
    misoIn := s.misoIn
    urxIn := s.urxIn
    draws := s.draws + 1
    readout := s.readout }

end Sys2Proof.Machine
end

