-- ==== Sys2Proof/Machine/Operands.lean ====
section
/-! DEFINITION. Operand forms and the checks on operands that come before a command's first effect
(20_memory.md R51, R53; 30_encoding.md R74; 60_exceptions.md R207). -/

namespace Sys2Proof.Machine

/-- A BUF region (a, n) is legal iff a + n <= 256, computed without wrap (R51). -/
def regionLegal (a : Byte) (n : Nat) : Bool := decide (a.toNat + n ≤ 256)

/-- Every byte of the region (a, n) is written. -/
def regionWritten (m : Memory) (a : Byte) (n : Nat) : Bool :=
  (List.range n).all fun i => (bufRead m (a + BitVec.ofNat 8 i)).isSome

/-- `if not ok: raise Fault(cause)` as one entry of a list of checks. -/
def require (ok : Bool) (cause : Cause) : Option Cause := if ok then none else some cause

/-- BUF_RANGE for a region operand (R51). -/
def requireRange (a : Byte) (n : Nat) : Option Cause := require (regionLegal a n) .bufRange

/-- BUF_UNWRITTEN for a region the command will read (R53). -/
def requireWritten (a : Byte) (n : Nat) (s : State) : Option Cause :=
  require (regionWritten s.buf a n) .bufUnwritten

/-- SPI use before SPI.INIT (41_spi.md R121 to R123). -/
def requireConfigured (s : State) : Option Cause := require s.busCfg.configured .spiUnconfigured

/-- A byte transfer needs clock phase 0 (41_spi.md R123). -/
def requirePhase0 (s : State) : Option Cause := require (!s.busCfg.cpha) .cphaUnimplemented

/-- A radio data command needs a known mode (43_radio.md R160). -/
def requireMode (s : State) : Option Cause :=
  match s.mode with
  | .undefined => some .modeUndefined
  | .known _ => none

/-- The first failing check of a list in R207's order. -/
def firstFault (checks : List (Option Cause)) : Option Cause :=
  match checks with
  | [] => none
  | some c :: _ => some c
  | none :: rest => firstFault rest

/-- Run the checks of a command; the first that fails is raised, before any effect (60_exceptions.md R204, R207). -/
def checked (checks : List (Option Cause)) (body : State → State) (s : State) : State :=
  match firstFault checks with
  | some c => raise c s
  | none => body s

/-- `require_xfer()` (41_spi.md R123). -/
def xferChecks (s : State) : List (Option Cause) := [requireConfigured s, requirePhase0 s]

/-- The range and Unwritten checks of format X (41_spi.md R126): tx before rx, and only of the buffers present. -/
def xRegionChecks (t r : Bool) (a b : Byte) (n : Nat) (s : State) : List (Option Cause) :=
  [if t then requireRange a n else none,
   if r then requireRange b n else none,
   if t then requireWritten a n s else none]

/-- The mode operand of RF.MODE (43_radio.md R164): 0 Standby, 1 Receive, 2 Transmit, anything else out of range. -/
def modeOperand (c : Byte) : Option RadioMode :=
  match c.toNat with
  | 0 => some .standby
  | 1 => some .receive
  | 2 => some .transmit
  | _ => none

/-- The repeat operand of RF.TX (43_radio.md R166): 0 stands for DEFAULT_TX_REPEAT. -/
def repeatCount (par : Params) (rep : Byte) : Nat := if rep = 0 then par.defaultTxRepeat else rep.toNat

end Sys2Proof.Machine
end

