-- ==== Sys2Proof/Machine/Sequencer.lean ====
section
/-! DEFINITION. The sequencer: the action lists of the shared primitives, and what performing each action does. -/

namespace Sys2Proof.Machine

/-- A checked command starts: its actions become the agenda. -/
def launch (acts : List Act) (s : State) : State := { s with agenda := acts }

/-- Put actions in front of the agenda. -/
def push (acts : List Act) (s : State) : State := { s with agenda := acts ++ s.agenda }

/-! ### TimeBase (40_timebase.md R104 to R106) -/

/-- `wait_until(target)`: no-op when the target equals the reading; phase 1 only when it is behind (R104). -/
def performWaitUntil (target : Byte) (s : State) : State :=
  if target = s.t then s
  else if target < s.t then push [.whileAtOrAbove s.t target] s
  else push [.whileBelow target] s

/-- Phase 1: `while T >= start: await_tick()`, then phase 2 (R104). -/
def performWhileAtOrAbove (start target : Byte) (s : State) : State :=
  if start ≤ s.t then push [.awaitTick, .whileAtOrAbove start target] s
  else push [.whileBelow target] s

/-- Phase 2: `while T < target: await_tick()` (R104). -/
def performWhileBelow (target : Byte) (s : State) : State :=
  if s.t < target then push [.awaitTick, .whileBelow target] s else s

/-- `delay_us(n)`: `target <- T`, then the loop (R105). -/
def performDelayUs (n : Nat) (s : State) : State := push [.delayLoop n s.t] s

/-- The loop of `delay_us`: advance the target by min(n, 255) and wait for it (R105). -/
def performDelayLoop (n : Nat) (target : Byte) (s : State) : State :=
  if n = 0 then s
  else
    push [.waitUntil (target + BitVec.ofNat 8 (min n 255)),
      .delayLoop (n - min n 255) (target + BitVec.ofNat 8 (min n 255))] s

/-- The loop of `delay_ms`: n times `delay_us(1000)` (R106). -/
def performDelayMs (n : Nat) (s : State) : State :=
  if n = 0 then s else push [.delayUs 1000, .delayMs (n - 1)] s

/-! ### SoftSpiBus (41_spi.md R124, R127) and the radio frames (43_radio.md R161) -/

/-- One bit of `spi_byte` (R124): data driven, settle delay, clock active, sampled, clock idle. -/
def spiBit (s : State) (b : Bool) : List Act :=
  [.drive .mosi b, .delayUs s.par.spiSettleUs, .drive .sclk (!s.busCfg.cpol), .sampleRx, .drive .sclk s.busCfg.cpol]

/-- `spi_byte(tx)` (R124): eight bits, most significant first; the received byte is left in `rx`. -/
def spiByte (s : State) (tx : Byte) : List Act :=
  .clearRx :: [7, 6, 5, 4, 3, 2, 1, 0].flatMap fun i => spiBit s (tx.getLsbD i)

/-- Drive CS to the level that selects the device (R121). -/
def selectAct (s : State) : Act := .drive .cs s.busCfg.cspol

/-- Drive CS to the level that deselects it (R122). -/
def deselectAct (s : State) : Act := .drive .cs (!s.busCfg.cspol)

/-- `rx <- ((rx << 1) | sample(MISO)) mod 256` (R124). -/
def shiftIn (rx : Byte) (b : Bool) : Byte := (rx <<< 1) ||| (BitVec.ofBool b).setWidth 8

/-- The MISO sample of one bit (R124). -/
def performSampleRx (s : State) : State :=
  { (sample .miso s).2 with rx := shiftIn s.rx (sample .miso s).1 }

/-- One round of `spi_bytes` (R127): the tx byte is read when its turn comes, and the rx byte stored before the next
tx byte is read. -/
def performSpiBytes (t r : Bool) (a b : Byte) (n : Nat) (s : State) : State :=
  match n with
  | 0 => s
  | k + 1 =>
    push (spiByte s (if t then bufGet s.buf a else 0) ++ (if r then [.storeRx b] else []) ++
      [.spiBytes t r (a + 1) (b + 1) k]) s

/-- The address byte of a register read or FIFO read: the 7-bit address AND READ_MASK (43_radio.md R161). -/
def readAddress (par : Params) (reg : BitVec 7) : Byte := reg.setWidth 8 &&& par.readMask

/-- The address byte of a write: the 7-bit address OR WRITE_FLAG (43_radio.md R161). -/
def writeAddress (par : Params) (reg : BitVec 7) : Byte := reg.setWidth 8 ||| par.writeFlag

/-- `reg_read(a)` (43_radio.md R161): the data byte is left in `rx`. -/
def regRead (s : State) (reg : BitVec 7) : List Act :=
  [selectAct s] ++ spiByte s (readAddress s.par reg) ++ spiByte s 0 ++ [deselectAct s]

/-- `reg_write(a, v)` (43_radio.md R161). -/
def regWrite (s : State) (reg : BitVec 7) (v : Byte) : List Act :=
  [selectAct s] ++ spiByte s (writeAddress s.par reg) ++ spiByte s v ++ [deselectAct s]

/-- `fifo_write(p, n)` (43_radio.md R161). -/
def fifoWrite (s : State) (p : Byte) (n : Nat) : List Act :=
  [selectAct s] ++ spiByte s (writeAddress s.par s.par.regFifo) ++ [.spiBytes true false p 0 n] ++ [deselectAct s]

/-- `fifo_read(p, n)` (43_radio.md R161). -/
def fifoRead (s : State) (p : Byte) (n : Nat) : List Act :=
  [selectAct s] ++ spiByte s (readAddress s.par s.par.regFifo) ++ [.spiBytes false true 0 p n] ++ [deselectAct s]

/-! ### SoftSerialLine (42_uart.md R141 to R144) -/

/-- The actions of UART.TX with the first reading of T being `t0` (R140): the k-th wait is for `t0 +8 k x UART_BIT`. -/
def uartTxActs (par : Params) (t0 byte : Byte) : List Act :=
  let wait (k : Nat) : Act := .waitUntil (t0 + BitVec.ofNat 8 (k * par.uartBit))
  [.drive .utx false, wait 1] ++
  ((List.range 8).flatMap fun i => [.drive .utx (byte.getLsbD i), wait (i + 2)]) ++
  [.drive .utx true, wait 10, wait 11, .finish .ok 0]

/-- `uart_receive` from its start: wait half a bit period, then the start-bit sample (R141). -/
def performUartStart (c : RxCaller) (s : State) : State :=
  push [.waitUntil (s.t + BitVec.ofNat 8 s.par.uartHalf), .uartGlitch c (s.t + BitVec.ofNat 8 s.par.uartHalf)] s

/-- `uart_receive` returns (code, d): UART.RX finishes with them (R141); UART.WAITB finishes on DECODED and loops on
anything else (R142). -/
def uartReturn (c : RxCaller) (code : Code) (d : Byte) (s : State) : State :=
  match c with
  | .receive => finish code (zext32 d) s
  | .waitByte => if code = .decoded then finish .decoded (zext32 d) s else push [.spinWhileHigh] s

/-- The start-bit sample: high is NOISE (R141). -/
def performUartGlitch (c : RxCaller) (target : Byte) (s : State) : State :=
  if (sample .urx s).1 then uartReturn c .noise 0 (sample .urx s).2
  else
    push [.waitUntil (target + BitVec.ofNat 8 s.par.uartBit),
      .uartData c 0 0 (target + BitVec.ofNat 8 s.par.uartBit)] (sample .urx s).2

/-- `d[i] <- b`. -/
def setBit (d : Byte) (i : Nat) (b : Bool) : Byte :=
  if b then d ||| (1#8 <<< i) else d &&& ~~~(1#8 <<< i)

/-- The sample of data bit i, least significant first; after bit 7 comes the stop bit (R141). -/
def performUartData (c : RxCaller) (i : Nat) (d target : Byte) (s : State) : State :=
  push [.waitUntil (target + BitVec.ofNat 8 s.par.uartBit),
    if i < 7 then
      .uartData c (i + 1) (setBit d i (sample .urx s).1) (target + BitVec.ofNat 8 s.par.uartBit)
    else .uartStop c (setBit d i (sample .urx s).1)] (sample .urx s).2

/-- The stop-bit sample: high DECODED; low FRAMING with a nonzero byte, LINE_BREAK with zero (R141). -/
def performUartStop (c : RxCaller) (d : Byte) (s : State) : State :=
  if (sample .urx s).1 then uartReturn c .decoded d (sample .urx s).2
  else if d ≠ 0 then uartReturn c .framing d (sample .urx s).2
  else uartReturn c .lineBreak 0 (sample .urx s).2

/-- The spin of UART.WAITB: one sample now and one after each tick until the line is low (R142, R145). -/
def performSpinWhileHigh (s : State) : State :=
  if (sample .urx s).1 then push [.awaitTick, .spinWhileHigh] (sample .urx s).2
  else push [.uartStart .waitByte] (sample .urx s).2

/-- The spin of UART.NOBRK: until the line is high (R144, R145). -/
def performSpinWhileLow (s : State) : State :=
  if (sample .urx s).1 then finish .ok 0 (sample .urx s).2
  else push [.awaitTick, .spinWhileLow] (sample .urx s).2

/-- The loop test of UART.BRK (R143). -/
def performBreakLoop (budget count : Nat) (target : Byte) (s : State) : State :=
  if s.par.brkSample ≤ budget then
    push [.waitUntil (target + BitVec.ofNat 8 s.par.brkSample),
      .breakSample (budget - s.par.brkSample) count (target + BitVec.ofNat 8 s.par.brkSample)] s
  else finish .ok 0 s

/-- The count of consecutive low samples after a sample (R143). -/
def breakCount (b : Bool) (count : Nat) : Nat := if b then 0 else count + 1

/-- The sample of UART.BRK: true once the count reaches BRK_SAMPLES (R143). -/
def performBreakSample (budget count : Nat) (target : Byte) (s : State) : State :=
  if s.par.brkSamples ≤ breakCount (sample .urx s).1 count then finish .ok 1 (sample .urx s).2
  else push [.breakLoop budget (breakCount (sample .urx s).1 count) target] (sample .urx s).2

/-! ### RadioDriver (43_radio.md R162 to R169) -/

/-- `poll`: one more register read, then the test (R162). -/
def performPoll (reg : BitVec 7) (bit : Fin 8) (want : Bool) (k : Nat) (s : State) : State :=
  push (regRead s reg ++ [.pollTest reg bit want (k + 1)]) s

/-- `POLL_LIMIT != UNBOUNDED and k >= POLL_LIMIT` (R162). -/
def pollLimitReached (par : Params) (k : Nat) : Bool :=
  match par.pollLimit with
  | none => false
  | some limit => decide (limit ≤ k)

/-- `poll`: return when the flag is as wanted; TIMEOUT at the limit, which ends the whole command with MODE Undefined;
else read again (R162). -/
def performPollTest (reg : BitVec 7) (bit : Fin 8) (want : Bool) (k : Nat) (s : State) : State :=
  if flagSet s.rx bit = want then s
  else if pollLimitReached s.par k then finish .timeout (zext32 reg) { s with mode := .undefined }
  else push [.poll reg bit want k] s

/-- MODE_CODE(M) (00_scope.md R8). -/
def modeCode (par : Params) (m : RadioMode) : Byte :=
  match m with
  | .standby => par.codeStandby
  | .receive => par.codeReceive
  | .transmit => par.codeTransmit

/-- `set_mode_seq(M)` (R164): the write, the mode-ready poll, for Transmit the transmit-ready poll, then MODE. -/
def setModeSeq (s : State) (m : RadioMode) : List Act :=
  regWrite s s.par.regOpMode (modeCode s.par m) ++
  [.poll s.par.regIrqFlags1 s.par.bitModeReady true 0] ++
  (if m = .transmit then [.poll s.par.regIrqFlags1 s.par.bitTxReady true 0] else []) ++
  [.setMode m]

/-- The end of RF.INIT (R163): a sentinel version is NO_RESPONSE and changes nothing. -/
def performInitCheck (s : State) : State :=
  if s.rx = s.par.notWiredA ∨ s.rx = s.par.notWiredB then finish .noResponse (zext32 s.rx) s
  else finish .ok (zext32 s.rx) { s with version := some s.rx, profile := none }

/-- The load loop of RF.TX (R166): a load, and between two loads the FIFO-level poll. -/
def performTxLoad (a : Byte) (len k : Nat) (s : State) : State :=
  match k with
  | 0 => s
  | 1 => push (fifoWrite s a len) s
  | j + 2 =>
    push (fifoWrite s a len ++
      [.poll s.par.regIrqFlags2 s.par.bitFifoLevel false 0, .txLoad a len (j + 1)]) s

/-- The overrun check of RF.TX on the flags read last (R166). -/
def performTxCheck (s : State) : State :=
  if flagSet s.rx s.par.bitFifoNotEmpty || flagSet s.rx s.par.bitFifoOverrun then
    finish .overrun (zext32 s.rx) s
  else finish .ok 0 s

/-- The end of RF.RDY (R167). -/
def performReadyCheck (s : State) : State :=
  if flagSet s.rx s.par.bitPayloadReady then finish .ready 1 s else finish .notReady 0 s

/-- RF.RXC once the length prefix n is read (R169): store it; past maxlen deselect and end, else read n bytes more. -/
def performCountedPrefix (b maxlen : Byte) (s : State) : State :=
  if maxlen < s.rx then
    finish .bufferTooSmall (zext32 s.rx) (drive .cs (!s.busCfg.cspol) (storeByte b s.rx s))
  else
    push [.spiBytes false true 0 (b + 1) s.rx.toNat, deselectAct s, .finish .ok (zext32 s.rx)]
      (storeByte b s.rx s)

/-! ### The sequencer -/

/-- Perform one action, already taken off the agenda. `awaitTick` is never performed: a tick releases it. -/
def perform (a : Act) (s : State) : State :=
  match a with
  | .awaitTick => s
  | .drive p l => drive p l s
  | .waitUntil target => performWaitUntil target s
  | .whileAtOrAbove start target => performWhileAtOrAbove start target s
  | .whileBelow target => performWhileBelow target s
  | .delayUs n => performDelayUs n s
  | .delayLoop n target => performDelayLoop n target s
  | .delayMs n => performDelayMs n s
  | .clearRx => { s with rx := 0 }
  | .sampleRx => performSampleRx s
  | .spiBytes t r a b n => performSpiBytes t r a b n s
  | .storeRx b => storeByte b s.rx s
  | .finish code result => finish code result s
  | .finishRx => finish .ok (zext32 s.rx) s
  | .uartStart c => performUartStart c s
  | .uartGlitch c target => performUartGlitch c target s
  | .uartData c i d target => performUartData c i d target s
  | .uartStop c d => performUartStop c d s
  | .spinWhileHigh => performSpinWhileHigh s
  | .spinWhileLow => performSpinWhileLow s
  | .breakLoop budget count target => performBreakLoop budget count target s
  | .breakSample budget count target => performBreakSample budget count target s
  | .poll reg bit want k => performPoll reg bit want k s
  | .pollTest reg bit want k => performPollTest reg bit want k s
  | .setMode m => { s with mode := .known m }
  | .setProfile p => { s with profile := some p }
  | .initCheck => performInitCheck s
  | .txLoad a len k => performTxLoad a len k s
  | .txCheck => performTxCheck s
  | .readyCheck => performReadyCheck s
  | .countedPrefix b maxlen => performCountedPrefix b maxlen s

end Sys2Proof.Machine
end

