-- ==== Sys2Proof/Machine/Manchester.lean ====
section
/-! DEFINITION. ManchesterCodec commands (44_manchester.md R190 to R193). -/

namespace Sys2Proof.Machine

/-- Bits 7:4 of a byte. -/
def highNibble (b : Byte) : BitVec 4 := b.extractLsb' 4 4

/-- Bits 3:0 of a byte. -/
def lowNibble (b : Byte) : BitVec 4 := b.extractLsb' 0 4

/-- `legal(x)` (R190): one of 0x5, 0x6, 0x9, 0xA. -/
def legalNibble (x : BitVec 4) : Bool := x == 0x5 || x == 0x6 || x == 0x9 || x == 0xA

/-- Both nibbles of an encoded byte are legal (R191). -/
def legalByte (b : Byte) : Bool := legalNibble (highNibble b) && legalNibble (lowNibble b)

/-- `dec_byte(b) = {b[7], b[5], b[3], b[1]}` (R190). -/
def decByte (b : Byte) : BitVec 4 :=
  BitVec.ofBool (b.getLsbD 7) ++ BitVec.ofBool (b.getLsbD 5) ++ BitVec.ofBool (b.getLsbD 3) ++
    BitVec.ofBool (b.getLsbD 1)

/-- `enc2(d) = {d[1], not d[1], d[0], not d[0]}` (R190). -/
def enc2 (d : BitVec 2) : BitVec 4 :=
  BitVec.ofBool (d.getLsbD 1) ++ BitVec.ofBool (!d.getLsbD 1) ++ BitVec.ofBool (d.getLsbD 0) ++
    BitVec.ofBool (!d.getLsbD 0)

/-- `enc_nib(n) = {enc2(n[3:2]), enc2(n[1:0])}` (R190). -/
def encNib (n : BitVec 4) : Byte := enc2 (n.extractLsb' 2 2) ++ enc2 (n.extractLsb' 0 2)

/-- The loop of MC.VALID over a region (R191). -/
def regionManchester (m : Memory) (b : Byte) (size : Nat) : Bool :=
  (List.range size).all fun i => legalByte (bufGet m (b + BitVec.ofNat 8 i))

/-- MC.VALID (R191): OK with 1, or INVALID_MANCHESTER with 0; BUF is not written. -/
def execMcValid (b size : Byte) (s : State) : Host.Outcome State Fault Refusal :=
  .next (checked [requireRange b size.toNat, requireWritten b size.toNat s]
    (fun s =>
      if regionManchester s.buf b size.toNat then finish .ok 1 s else finish .invalidManchester 0 s) s)

/-- One step of the decode loop: `BUF[B + j] <- {dec_byte(BUF[B + 2j]), dec_byte(BUF[B + 2j + 1])}` (R192). -/
def decodeStep (b : Byte) (m : Memory) (j : Nat) : Memory :=
  bufWrite m (b + BitVec.ofNat 8 j)
    (decByte (bufGet m (b + BitVec.ofNat 8 (2 * j))) ++ decByte (bufGet m (b + BitVec.ofNat 8 (2 * j + 1))))

/-- The decode loop for j = 0 to n - 1, in increasing order (R192). -/
def decodeInPlace (b : Byte) (n : Nat) (m : Memory) : Memory := (List.range n).foldl (decodeStep b) m

/-- MC.DECODE (R192). -/
def execMcDecode (b size : Byte) (s : State) : Host.Outcome State Fault Refusal :=
  .next (checked
    [requireRange b size.toNat, requireWritten b size.toNat s,
     require (size.toNat % 2 == 0) .oddSize,
     require (regionManchester s.buf b size.toNat) .manchesterPrecondition]
    (fun s =>
      finish .decoded (BitVec.ofNat 32 (size.toNat / 2))
        { s with buf := decodeInPlace b (size.toNat / 2) s.buf }) s)

/-- The encoded bytes of data bytes: two for each, the high nibble's first (R193). -/
def encodeBytes (bs : List Byte) : List Byte := bs.flatMap fun x => [encNib (highNibble x), encNib (lowNibble x)]

/-- MC.ENCODE (R193): the source is read whole before the first write. -/
def execMcEncode (a b size : Byte) (s : State) : Host.Outcome State Fault Refusal :=
  .next (checked
    [requireRange a size.toNat, requireRange b (2 * size.toNat), requireWritten a size.toNat s]
    (fun s =>
      finish .ok (BitVec.ofNat 32 (2 * size.toNat))
        { s with buf := bufWriteAll s.buf b (encodeBytes (bufReadAll s.buf a size.toNat)) }) s)

end Sys2Proof.Machine
end

