-- ==== Sys2Proof/Machine/Radio.lean ====
section
/-! DEFINITION. RadioDriver commands (43_radio.md R163 to R169). The checks of each stand in 60_exceptions.md R207's
order: the documented error statuses first, then the faults, then bus activity. -/

namespace Sys2Proof.Machine

/-- RF.INIT (R163): read the version register; a sentinel is NO_RESPONSE, else record it and reset the memo. -/
def execRfInit (s : State) : Host.Outcome State Fault Refusal :=
  .next (checked (xferChecks s) (fun s => launch (regRead s s.par.regVersion ++ [.initCheck]) s) s)

/-- RF.MODE (R164): an out-of-range mode is INVALID_PARAMETER without bus traffic; else the whole transition. -/
def execRfMode (mode : Byte) (s : State) : Host.Outcome State Fault Refusal :=
  .next
    (match modeOperand mode with
    | none => finish .invalidParameter 0 s
    | some m => checked (xferChecks s) (fun s => launch (setModeSeq s m ++ [.finish .ok 0]) s) s)

/-- The register writes of a profile, in order (R165). -/
def profileWrites (s : State) (pairs : List (BitVec 7 × Byte)) : List Act :=
  pairs.flatMap fun av => regWrite s av.1 av.2

/-- RF.CONFIG (R165): an unknown profile is INVALID_PARAMETER; a memo hit ends with no bus traffic; else every pair is
written and the profile becomes active. -/
def execRfConfig (p : Byte) (s : State) : Host.Outcome State Fault Refusal :=
  .next
    (match s.par.profiles[p.toNat]? with
    | none => finish .invalidParameter 0 s
    | some pairs =>
      if s.profile = some p then finish .ok 0 s
      else
        checked (xferChecks s)
          (fun s => launch (profileWrites s pairs ++ [.setProfile p, .finish .ok 0]) s) s)

/-- The switch to Transmit, made only from another mode (R166). -/
def txSwitch (s : State) : List Act :=
  if s.mode = .known .transmit then [] else setModeSeq s .transmit

/-- The restore of the prior mode (R166). -/
def txRestore (s : State) : List Act :=
  match s.mode with
  | .known .standby => setModeSeq s .standby
  | .known .receive => setModeSeq s .receive
  | .known .transmit | .undefined => []

/-- The bus activity of RF.TX (R166). -/
def txActs (s : State) (a : Byte) (len rep : Nat) : List Act :=
  regWrite s s.par.regFifoThresh (BitVec.ofNat 8 (len - 1)) ++
  txSwitch s ++
  [.txLoad a len rep, .poll s.par.regIrqFlags2 s.par.bitFifoNotEmpty false 0] ++
  txRestore s ++
  regRead s s.par.regIrqFlags2 ++
  [.txCheck]

/-- RF.TX (R166). -/
def execRfTx (a len rep : Byte) (s : State) : Host.Outcome State Fault Refusal :=
  .next
    (if len = 0 then finish .invalidParameter 0 s
    else if s.par.fifoCapacity < len.toNat then finish .bufferTooSmall 0 s
    else
      checked (xferChecks s ++ [requireMode s, requireRange a len.toNat, requireWritten a len.toNat s])
        (fun s => launch (txActs s a len.toNat (repeatCount s.par rep)) s) s)

/-- RF.RDY (R167): one read of the payload-ready flag. -/
def execRfRdy (s : State) : Host.Outcome State Fault Refusal :=
  .next (checked (xferChecks s ++ [requireMode s])
    (fun s => launch (regRead s s.par.regIrqFlags2 ++ [.readyCheck]) s) s)

/-- RF.RXF (R168): exactly `maxlen` bytes from the FIFO; too many is LONG_PAYLOAD without bus traffic. -/
def execRfRxF (b maxlen : Byte) (s : State) : Host.Outcome State Fault Refusal :=
  .next
    (if s.par.fifoCapacity < maxlen.toNat then finish .longPayload 0 s
    else
      checked (xferChecks s ++ [requireMode s, requireRange b maxlen.toNat])
        (fun s => launch (fifoRead s b maxlen.toNat ++ [.finish .ok (zext32 maxlen)]) s) s)

/-- RF.RXC (R169): a length prefix, then that many bytes, in one frame. The region is the prefix and `maxlen` bytes. -/
def execRfRxC (b maxlen : Byte) (s : State) : Host.Outcome State Fault Refusal :=
  .next
    (checked (xferChecks s ++ [requireMode s, requireRange b (maxlen.toNat + 1)])
      (fun s => launch ([selectAct s] ++ spiByte s (readAddress s.par s.par.regFifo) ++ spiByte s 0 ++
        [.countedPrefix b maxlen]) s) s)

end Sys2Proof.Machine
end

