-- ==== Sys2Proof/Machine/Spi.lean ====
section
/-! DEFINITION. SoftSpiBus commands (41_spi.md R120 to R128). -/

namespace Sys2Proof.Machine

/-- SPI.INIT's effect (R120): BUSCFG, then CS inactive, SCLK idle, MOSI 0, in that order at one instant. -/
def spiInitBody (cpol cpha cspol : Bool) (s : State) : State :=
  finish .ok 0
    (drive .mosi false
      (drive .sclk cpol
        (drive .cs (!cspol)
          { s with busCfg := { configured := true, cpol := cpol, cpha := cpha, cspol := cspol } })))

/-- SPI.INIT (R120): once per reset, else SPI_REINIT. -/
def execSpiInit (cpol cpha cspol : Bool) (s : State) : Host.Outcome State Fault Refusal :=
  .next (checked [require (!s.busCfg.configured) .spiReinit] (spiInitBody cpol cpha cspol) s)

/-- SPI.SEL (R121): CS to the selecting level; no phase check, since nothing is transferred. -/
def execSpiSel (s : State) : Host.Outcome State Fault Refusal :=
  .next (checked [requireConfigured s] (fun s => finish .ok 0 (drive .cs s.busCfg.cspol s)) s)

/-- SPI.DESEL (R122): CS to the other level. -/
def execSpiDesel (s : State) : Host.Outcome State Fault Refusal :=
  .next (checked [requireConfigured s] (fun s => finish .ok 0 (drive .cs (!s.busCfg.cspol) s)) s)

/-- SPI.XFER (R125): one byte; RESULT = the received byte. CS is not touched. -/
def execSpiXfer (tx : Byte) (s : State) : Host.Outcome State Fault Refusal :=
  .next (checked (xferChecks s) (fun s => launch (spiByte s tx ++ [.finishRx]) s) s)

/-- SPI.XFERB (R126): `count` bytes; an absent tx sends zero bytes, an absent rx discards. CS is not touched. -/
def execSpiXferB (t r : Bool) (a b count : Byte) (s : State) : Host.Outcome State Fault Refusal :=
  .next (checked (xferChecks s ++ xRegionChecks t r a b count.toNat s)
    (launch [.spiBytes t r a b count.toNat, .finish .ok 0]) s)

/-- SPI.FRAME (R128): select, the bytes, deselect. -/
def execSpiFrame (t r : Bool) (a b count : Byte) (s : State) : Host.Outcome State Fault Refusal :=
  .next (checked (xferChecks s ++ xRegionChecks t r a b count.toNat s)
    (fun s => launch [selectAct s, .spiBytes t r a b count.toNat, deselectAct s, .finish .ok 0] s) s)

end Sys2Proof.Machine
end

