-- ==== Sys2Proof/Machine/TimeBase.lean ====
section
/-! DEFINITION. TimeBase commands (40_timebase.md R100 to R106). -/

namespace Sys2Proof.Machine

/-- TB.READ (R100): RESULT = T. -/
def execTbRead (s : State) : Host.Outcome State Fault Refusal :=
  .next (finish .ok (zext32 s.t) s)

/-- TB.WRITE (R101): `T <- v`. -/
def execTbWrite (v : Byte) (s : State) : Host.Outcome State Fault Refusal :=
  .next (finish .ok 0 { s with t := v })

/-- The forward distance of R102, by its two branches. -/
def tickDiff (earlier later : Byte) : Byte :=
  if earlier ≤ later then later - earlier else (255 - earlier) + 1 + later

/-- TB.DIFF (R102): RESULT = the forward distance from `earlier` to `later`. -/
def execTbDiff (earlier later : Byte) (s : State) : Host.Outcome State Fault Refusal :=
  .next (finish .ok (zext32 (tickDiff earlier later)) s)

/-- TB.WAIT (R103): `wait_until(target)`. -/
def execTbWait (target : Byte) (s : State) : Host.Outcome State Fault Refusal :=
  .next (launch [.waitUntil target, .finish .ok 0] s)

/-- TB.DLYUS (R105): `delay_us(n)`. -/
def execTbDlyUs (n : BitVec 16) (s : State) : Host.Outcome State Fault Refusal :=
  .next (launch [.delayUs n.toNat, .finish .ok 0] s)

/-- TB.DLYMS (R106): `delay_ms(n)`. -/
def execTbDlyMs (n : BitVec 16) (s : State) : Host.Outcome State Fault Refusal :=
  .next (launch [.delayMs n.toNat, .finish .ok 0] s)

end Sys2Proof.Machine
end

