-- ==== Sys2Proof/Machine/Uart.lean ====
section
/-! DEFINITION. SoftSerialLine commands (42_uart.md R140 to R144). -/

namespace Sys2Proof.Machine

/-- UART.TX (R140): start bit, eight data bits least significant first, two stop-bit periods. -/
def execUartTx (byte : Byte) (s : State) : Host.Outcome State Fault Refusal :=
  .next (launch (uartTxActs s.par s.t byte) s)

/-- UART.RX (R141): one `uart_receive`, taking this instant as the falling edge. -/
def execUartRx (s : State) : Host.Outcome State Fault Refusal :=
  .next (launch [.uartStart .receive] s)

/-- UART.WAITB (R142): spin until the line is low, receive, and loop on anything but DECODED. -/
def execUartWaitB (s : State) : Host.Outcome State Fault Refusal :=
  .next (launch [.spinWhileHigh] s)

/-- UART.BRK (R143): wait for a break within the budget. -/
def execUartBrk (budget : BitVec 24) (s : State) : Host.Outcome State Fault Refusal :=
  .next (launch [.breakLoop budget.toNat 0 s.t] s)

/-- UART.NOBRK (R144): spin until the line is high. -/
def execUartNoBrk (s : State) : Host.Outcome State Fault Refusal :=
  .next (launch [.spinWhileLow] s)

end Sys2Proof.Machine
end

