-- ==== Sys2Proof/Machine/Dispatch.lean ====
section
/-! DEFINITION. The meaning of every command: step 4 of 30_encoding.md R72 (perform the rule the opcode map names). -/

namespace Sys2Proof.Machine

def exec (i : Instr) (s : State) : Host.Outcome State Fault Refusal :=
  match i with
  | .tbRead => Sys2Proof.Machine.execTbRead s
  | .tbWrite v => Sys2Proof.Machine.execTbWrite v s
  | .tbDiff earlier later => Sys2Proof.Machine.execTbDiff earlier later s
  | .tbWait target => Sys2Proof.Machine.execTbWait target s
  | .tbDlyUs n => Sys2Proof.Machine.execTbDlyUs n s
  | .tbDlyMs n => Sys2Proof.Machine.execTbDlyMs n s
  | .spiInit cpol cpha cspol => Sys2Proof.Machine.execSpiInit cpol cpha cspol s
  | .spiSel => Sys2Proof.Machine.execSpiSel s
  | .spiDesel => Sys2Proof.Machine.execSpiDesel s
  | .spiXfer tx => Sys2Proof.Machine.execSpiXfer tx s
  | .spiXferB t r a b count => Sys2Proof.Machine.execSpiXferB t r a b count s
  | .spiFrame t r a b count => Sys2Proof.Machine.execSpiFrame t r a b count s
  | .uartTx byte => Sys2Proof.Machine.execUartTx byte s
  | .uartRx => Sys2Proof.Machine.execUartRx s
  | .uartWaitB => Sys2Proof.Machine.execUartWaitB s
  | .uartBrk budget => Sys2Proof.Machine.execUartBrk budget s
  | .uartNoBrk => Sys2Proof.Machine.execUartNoBrk s
  | .rfInit => Sys2Proof.Machine.execRfInit s
  | .rfMode mode => Sys2Proof.Machine.execRfMode mode s
  | .rfConfig p => Sys2Proof.Machine.execRfConfig p s
  | .rfTx a len rep => Sys2Proof.Machine.execRfTx a len rep s
  | .rfRdy => Sys2Proof.Machine.execRfRdy s
  | .rfRxF b maxlen => Sys2Proof.Machine.execRfRxF b maxlen s
  | .rfRxC b maxlen => Sys2Proof.Machine.execRfRxC b maxlen s
  | .mcValid b size => Sys2Proof.Machine.execMcValid b size s
  | .mcDecode b size => Sys2Proof.Machine.execMcDecode b size s
  | .mcEncode a b size => Sys2Proof.Machine.execMcEncode a b size s

end Sys2Proof.Machine
end

