-- ==== Sys2Proof/Machine/HostPort.lean ====
section
/-! DEFINITION. Host accesses to the window (20_memory.md R52, R55, R56; 60_exceptions.md R203, R206), input events, and
what the machine does next (70_reset_and_hazards.md R241). -/

namespace Sys2Proof.Machine

/-- What a host access of a given width and offset reaches (R55, R56). -/
inductive Port where
  | buf (a : Byte)
  | cmd
  | status
  | result
  | fault
  | fcmd
  /-- an access of R203: a wrong width, a misaligned register access, or a reserved offset -/
  | bad
deriving DecidableEq, Repr

/-- The window's map (R55) with the width and alignment rules of R56. -/
def portOf (width : Nat) (off : BitVec 9) : Port :=
  if off.toNat < 0x100 then
    if width = 8 then .buf (off.setWidth 8) else .bad
  else if width = 32 then
    match off.toNat with
    | 0x100 => .cmd
    | 0x104 => .status
    | 0x108 => .result
    | 0x10C => .fault
    | 0x110 => .fcmd
    | _ => .bad
  else .bad

/-- The window offset of CMD (R55). -/
def cmdOffset : BitVec 9 := 0x100

/-- A host read returns `v`. -/
def answer (v : Word) (s : State) : State := { s with readout := some v }

/-- A host read returns a value the spec does not state: a free value. -/
def answerFree (off : BitVec 9) (s : State) : State :=
  { s with readout := some (Config.readDraw s.draws off s.hist s.now), draws := s.draws + 1 }

/-- A host read of one BUF byte returns an unconstrained byte (R52). -/
def answerFreeByte (off : BitVec 9) (s : State) : State :=
  { s with
    readout := some (zext32 ((Config.readDraw s.draws off s.hist s.now).setWidth 8))
    draws := s.draws + 1 }

/-- A host read of BUF[a] (R52): busy, a draw and nothing raised; otherwise the byte, or for an Unwritten byte a draw,
and on an idle core that has not faulted the fault BUF_UNWRITTEN. -/
def hostReadBuf (a : Byte) (off : BitVec 9) (s : State) : State :=
  if s.status.busy then answerFreeByte off s
  else
    match bufRead s.buf a with
    | some b => answer (zext32 b) s
    | none => raise .bufUnwritten (answerFreeByte off s)

/-- A host read (R55, R58: no side effect but a fault). -/
def hostRead (width : Nat) (off : BitVec 9) (s : State) : State :=
  match portOf width off with
  | .buf a => hostReadBuf a off s
  | .cmd => answer s.cmd s
  | .status => answer s.status.word s
  | .result => answer s.result s
  | .fault => answer s.fault s
  | .fcmd => answer s.fcmd s
  | .bad => hostFault .hostAccess (answerFree off s)

/-- A host write of BUF[a] (R52): dropped when faulted, dropped and latched when busy, stored when idle. -/
def hostWriteBuf (a b : Byte) (s : State) : State :=
  if s.status.faulted then s
  else if s.status.busy then latch .bufWriteWhileBusy (s.curCmd.getD 0) s
  else storeByte a b s

/-- A host write to CMD that is not accepted (10_state.md R23): no effect when faulted; when busy the rejected word is
latched. -/
def hostWriteCmdRejected (w : Word) (s : State) : State :=
  if s.status.faulted then s else latch .cmdWhileBusy w s

/-- A host write that starts no command. -/
def hostWrite (width : Nat) (off : BitVec 9) (v : Word) (s : State) : State :=
  match portOf width off with
  | .buf a => hostWriteBuf a (v.setWidth 8) s
  | .cmd => hostWriteCmdRejected v s
  | .status | .result | .fault | .fcmd | .bad => hostFault .hostAccess s

/-- One input event. -/
def applyInput (i : Input) (s : State) : State :=
  match i with
  | .tick => tick s
  | .reset => resetEvent s
  | .write width off v => hostWrite width off v s
  | .read width off => hostRead width off s
  | .waitIdle => s

/-- The core accepts a command word: idle and not faulted (10_state.md R23). -/
def acceptsCommand (s : State) : Bool := !s.status.faulted && !s.status.busy

/-- A host write: of CMD on an accepting core it is a command, anything else an event. -/
def hostWriteMove (width : Nat) (off : BitVec 9) (v : Word) (s : State) : Move :=
  if portOf width off = .cmd ∧ acceptsCommand s then .command v s else .event (.write width off v) s

/-- The next input event of a core whose sequencer does not act. With nothing left to do for the host, and while the
host waits for BUSY = 0, time passes. -/
def inputMove (s : State) : Move :=
  match s.inputs with
  | [] => .event .tick s
  | .waitIdle :: rest => if s.status.busy then .event .tick s else .event .waitIdle { s with inputs := rest }
  | .write width off v :: rest => hostWriteMove width off v { s with inputs := rest }
  | .tick :: rest => .event .tick { s with inputs := rest }
  | .reset :: rest => .event .reset { s with inputs := rest }
  | .read width off :: rest => .event (.read width off) { s with inputs := rest }

/-- The sequencer's turn: it acts before anything else unless it is idle or holds in `await_tick()` (R241). -/
def sequencerMove (s : State) : Move :=
  match s.agenda with
  | [] => inputMove s
  | .awaitTick :: _ => inputMove s
  | a :: rest => .act a { s with agenda := rest }

/-- What the machine does next. A reset comes wherever a running command is (70_reset_and_hazards.md R230, R232); then
the sequencer acts, as it is "the first to act after every tick"; else the next input event happens (R241). -/
def nextMove (s : State) : Move :=
  match s.inputs with
  | .reset :: rest => .event .reset { s with inputs := rest }
  | _ => sequencerMove s

/-- The fault of a word that does not decode (30_encoding.md R72). -/
def decodeFault (e : DecodeError) : Cause :=
  match e with
  | .illegalOpcode => .illegalOpcode
  | .reservedNonzero => .reservedNonzero

/-- A state whose next input is the host's write of word `w` to CMD, on a core that accepts it: the fetch needs an idle
sequencer. -/
def offerCommand (w : Word) (s : State) : State :=
  { s with
    inputs := .write 32 cmdOffset w :: s.inputs
    agenda := []
    pend := none
    status := { s.status with busy := false, faulted := false } }

/-- The 32-bit word whose low `nbits` bits are those of `w`, the rest 0 (30_encoding.md R70). -/
def fetchWord (nbits w : Nat) : Word := BitVec.ofNat 32 (w % 2 ^ nbits)

end Sys2Proof.Machine
end

