-- ==== Sys2Proof/Machine/Step.lean ====
section
/-! DEFINITION. One step of the machine, and how the host's next command is put where a step takes it. -/

namespace Sys2Proof.Machine

/-- One step: the sequencer performs one action, or one input event happens, or the idle core accepts a command word,
decodes it and starts it in the same instant (70_reset_and_hazards.md R241: acceptance and all checks happen in the
host's CMD write step). -/
def step (s : State) : Host.Outcome State Fault Refusal :=
  match nextMove s with
  | .act a s' => .next (perform a s')
  | .event i s' => .next (applyInput i s')
  | .command w s' =>
    match decode w with
    | .ok i => exec i (accept w s')
    | .error e => .next (raise (decodeFault e) (accept w s'))

/-- `s` with the instruction of `nbits` bits `w` as the command word the host writes next (assumption 2). -/
def State.withFetchWord (s : State) (nbits w : Nat) : State := offerCommand (fetchWord nbits w) s

end Sys2Proof.Machine
end

