-- ==== Sys2Proof/Safety.lean ====
section
/-! DEFINITION. The terms the claims use: runs, completed states, what a bus or line exchange leaves (a big-step reading
of the rules, in which a whole byte, frame or UART character is one change of state), and the invariants. -/

namespace Sys2Proof.Machine

/-! ### Runs -/

/-- Some number of steps leads from `s` to `u`. -/
def Reaches (s u : State) : Prop := ∃ k, Host.Core.run Sys2Proof.core k s = .next u

/-- Nothing comes in from outside while the command runs: no host access and no reset is waiting, and no host fault is
latched. Time still passes. -/
def Quiet (s : State) : Prop := s.inputs = [] ∧ s.pend = none

/-- A command that ended with `code` and `result`, with no host fault latched (60_exceptions.md R205): the other fields
are those of `s`. -/
def completedWith (code : Code) (result : Word) (s : State) : State :=
  { s with
    result := result
    status := { code := code.value, busy := false, faulted := s.status.faulted }
    agenda := []
    hist := .complete s.now code.value :: s.hist }

/-- A running command that ended with fault `cause` (60_exceptions.md R204): FAULT, FCMD, RESULT, STATUS, PEND, HIST and
the end of the command; the other fields are those of `s`. -/
def faultedWith (cause : Cause) (s : State) : State :=
  { s with
    fault := zext32 cause.value
    fcmd := s.curCmd.getD 0
    result := 0
    status := { code := 0xFF, busy := false, faulted := true }
    pend := none
    agenda := []
    hist := .complete s.now 0xFF :: s.hist }

/-- The state in which the command word `w` has been accepted (10_state.md R23). -/
def acceptedWord (w : Word) (s : State) : State :=
  { s with
    cmd := w
    curCmd := some w
    status := { code := s.status.code, busy := true, faulted := s.status.faulted }
    hist := .accept s.now w :: s.hist }

/-- The sequencer is idle or holds in `await_tick()`, so that an input event is next (70_reset_and_hazards.md R241). -/
def HostTurn (s : State) : Prop := s.agenda = [] ∨ ∃ rest, s.agenda = .awaitTick :: rest

/-- A command is running and no fault has been raised. -/
def Running (s : State) : Prop := s.status.busy = true ∧ s.status.faulted = false

/-- The core accepts a command: idle and not faulted (10_state.md R23). -/
def Idle (s : State) : Prop := s.status.busy = false ∧ s.status.faulted = false

/-- The instruction `i` starts at `s` and its run ends in `u`. -/
def RunsTo (i : Instr) (s u : State) : Prop := ∃ t, exec i s = .next t ∧ Reaches t u

/-- `n` ticks later. -/
def later (n : Nat) (s : State) : State := { s with t := s.t + BitVec.ofNat 8 n, now := s.now + n }

/-! ### Answers of the environment -/

/-- The answers `bits` are the ones the environment had decided, as far as it had decided any. -/
def Agrees (decided bits : List Bool) : Prop := bits.take decided.length = decided.take bits.length

/-- The MISO answers that make up a received byte, most significant first (41_spi.md R124). -/
def answersOf (rx : Byte) : List Bool := [7, 6, 5, 4, 3, 2, 1, 0].map fun i => rx.getLsbD i

/-- The MISO answers that make up received bytes. -/
def answersOfAll (rxs : List Byte) : List Bool := rxs.flatMap answersOf

/-! ### SPI bytes and frames (41_spi.md R124 to R128, 43_radio.md R161) -/

/-- The events of bit `i` of a byte (i = 0 first on the wire) that starts at `now` with settle delay `settle`. -/
def bitEvents (now settle : Nat) (cpol : Bool) (tx rx : Byte) (i : Nat) : List Event :=
  [.drive (now + i * settle) .mosi (tx.getLsbD (7 - i)),
   .drive (now + (i + 1) * settle) .sclk (!cpol),
   .sample (now + (i + 1) * settle) .miso (rx.getLsbD (7 - i)),
   .drive (now + (i + 1) * settle) .sclk cpol]

/-- The 24 Drive and 8 Sample events of one byte, oldest first (R124). -/
def byteEvents (now settle : Nat) (cpol : Bool) (tx rx : Byte) : List Event :=
  (List.range 8).flatMap (bitEvents now settle cpol tx rx)

/-- The state after `spi_byte(tx)` returned `rx` (R124): 8 x SPI_SETTLE_US ticks later. -/
def afterByte (tx rx : Byte) (s : State) : State :=
  { s with
    t := s.t + BitVec.ofNat 8 (8 * s.par.spiSettleUs)
    now := s.now + 8 * s.par.spiSettleUs
    pins := { s.pins with mosi := levelOf (tx.getLsbD 0), sclk := levelOf s.busCfg.cpol }
    hist := (byteEvents s.now s.par.spiSettleUs s.busCfg.cpol tx rx).reverse ++ s.hist
    rx := rx
    misoIn := s.misoIn.drop 8
    draws := s.draws + (8 - s.misoIn.length) }

/-- The state after the bytes `txs` were sent and `rxs` received. -/
def afterBytes (txs rxs : List Byte) (s : State) : State :=
  match txs, rxs with
  | tx :: txs, rx :: rxs => afterBytes txs rxs (afterByte tx rx s)
  | _, _ => s

/-- The state after one frame: select, the bytes, deselect (R128, R161). -/
def afterFrame (txs rxs : List Byte) (s : State) : State :=
  drive .cs (!s.busCfg.cspol) (afterBytes txs rxs (drive .cs s.busCfg.cspol s))

/-- The state after frames, one after another with no delay between them (43_radio.md R161). -/
def afterFrames (frames : List (List Byte × List Byte)) (s : State) : State :=
  match frames with
  | [] => s
  | (txs, rxs) :: rest => afterFrames rest (afterFrame txs rxs s)

/-- The state after `spi_bytes` received `rxs` (41_spi.md R127): byte i of tx is read before byte i of rx is stored. -/
def afterExchange (t r : Bool) (a b : Byte) (rxs : List Byte) (s : State) : State :=
  match rxs with
  | [] => s
  | rx :: rest =>
    let s1 := afterByte (if t then bufGet s.buf a else 0) rx s
    afterExchange t r (a + 1) (b + 1) rest (if r then { s1 with buf := bufWrite s1.buf b rx } else s1)

/-- The bus can carry a transfer (41_spi.md R123). -/
def BusReady (s : State) : Prop := s.busCfg.configured = true ∧ s.busCfg.cpha = false

/-- What the host must find written before a command reads the region (a, n) of BUF (20_memory.md R51, R53). -/
def RegionReadable (s : State) (a : Byte) (n : Nat) : Prop :=
  a.toNat + n ≤ 256 ∧ ∀ i, i < n → (bufRead s.buf (a + BitVec.ofNat 8 i)).isSome = true

/-! ### Radio frames by what they send, with a test of the last byte received (43_radio.md R161, R162) -/

/-- A frame of a radio command: the bytes sent, and what the command asks of the last byte received. -/
structure RadioFrame where
  sent : List Byte
  good : Byte → Bool

/-- `reg_write(reg, v)`: nothing is asked of the answers. -/
def writeFrame (par : Params) (reg : BitVec 7) (v : Byte) : RadioFrame :=
  { sent := [writeAddress par reg, v], good := fun _ => true }

/-- `reg_read(reg)` whose value must satisfy `good`. -/
def readFrame (par : Params) (reg : BitVec 7) (good : Byte → Bool) : RadioFrame :=
  { sent := [readAddress par reg, 0], good := good }

/-- `fifo_write` of the bytes `data`. -/
def fifoFrame (par : Params) (data : List Byte) : RadioFrame :=
  { sent := writeAddress par par.regFifo :: data, good := fun _ => true }

/-- `set_mode_seq(M)` with every poll satisfied by its first read (43_radio.md R164, R175). -/
def modeFrames (par : Params) (m : RadioMode) : List RadioFrame :=
  [writeFrame par par.regOpMode (modeCode par m),
   readFrame par par.regIrqFlags1 fun v => flagSet v par.bitModeReady] ++
  (if m = .transmit then [readFrame par par.regIrqFlags1 fun v => flagSet v par.bitTxReady] else [])

/-- The `rep` loads of RF.TX, a FIFO-level poll between two of them (43_radio.md R166). -/
def loadFrames (par : Params) (data : List Byte) (rep : Nat) : List RadioFrame :=
  match rep with
  | 0 => []
  | 1 => [fifoFrame par data]
  | k + 2 =>
    [fifoFrame par data, readFrame par par.regIrqFlags2 fun v => !flagSet v par.bitFifoLevel] ++
      loadFrames par data (k + 1)

/-- The frames of RF.TX from prior mode `prior`, every poll satisfied by its first read (43_radio.md R166, R175). -/
def txFrames (par : Params) (prior : RadioMode) (data : List Byte) (rep : Nat) : List RadioFrame :=
  [writeFrame par par.regFifoThresh (BitVec.ofNat 8 (data.length - 1))] ++
  (if prior = .transmit then [] else modeFrames par .transmit) ++
  loadFrames par data rep ++
  [readFrame par par.regIrqFlags2 fun v => !flagSet v par.bitFifoNotEmpty] ++
  (if prior = .transmit then [] else modeFrames par prior) ++
  [readFrame par par.regIrqFlags2 fun _ => true]

/-- `rxs` answers the frames: one byte for each byte sent, and the last byte of each frame is a good one. -/
def Answers (frames : List RadioFrame) (rxs : List (List Byte)) : Prop :=
  match frames, rxs with
  | [], [] => True
  | f :: fs, r :: rs => r.length = f.sent.length ∧ f.good (r.getLastD 0) = true ∧ Answers fs rs
  | _, _ => False

/-- The state after radio frames with the answers `rxs`. -/
def afterRadio (frames : List RadioFrame) (rxs : List (List Byte)) (s : State) : State :=
  afterFrames ((frames.map RadioFrame.sent).zip rxs) s

/-! ### UART characters (42_uart.md R140, R141, R146) -/

/-- The events of UART.TX, oldest first (R140). -/
def txEvents (now bit : Nat) (byte : Byte) : List Event :=
  [.drive now .utx false] ++
  ((List.range 8).map fun i => .drive (now + (i + 1) * bit) .utx (byte.getLsbD i)) ++
  [.drive (now + 9 * bit) .utx true]

/-- The ten URX answers of a received frame: the start sample 0, the data least significant first, the stop sample. -/
def frameBits (d : Byte) (stop : Bool) : List Bool :=
  false :: (((List.range 8).map fun i => d.getLsbD i) ++ [stop])

/-- The ten Sample events of a frame received from `now` (R146), oldest first. -/
def frameEvents (now half bit : Nat) (d : Byte) (stop : Bool) : List Event :=
  [.sample (now + half) .urx false] ++
  ((List.range 8).map fun i => .sample (now + half + (i + 1) * bit) .urx (d.getLsbD i)) ++
  [.sample (now + half + 9 * bit) .urx stop]

/-- The outcome of `uart_receive` by the stop sample and the data (R141). -/
def receiveCode (d : Byte) (stop : Bool) : Code :=
  if stop then .decoded else if d = 0 then .lineBreak else .framing

/-- The state after a frame was received from `s` on. -/
def afterReceive (d : Byte) (stop : Bool) (s : State) : State :=
  { later (s.par.uartHalf + 9 * s.par.uartBit) s with
    hist := (frameEvents s.now s.par.uartHalf s.par.uartBit d stop).reverse ++ s.hist
    urxIn := s.urxIn.drop 10
    draws := s.draws + (10 - s.urxIn.length) }

/-- The state after the start sample was high (R141, NOISE). -/
def afterGlitch (s : State) : State :=
  { later s.par.uartHalf s with
    hist := .sample (s.now + s.par.uartHalf) .urx true :: s.hist
    urxIn := s.urxIn.drop 1
    draws := s.draws + (1 - s.urxIn.length) }

/-- One sample of URX, now, answering `b`. -/
def afterSample (b : Bool) (s : State) : State :=
  { s with
    hist := .sample s.now .urx b :: s.hist
    urxIn := s.urxIn.drop 1
    draws := s.draws + (1 - s.urxIn.length) }

/-- The state after `n` samples of URX that all answered `b`, each followed by a tick (R145). -/
def afterSpin (b : Bool) (n : Nat) (s : State) : State :=
  match n with
  | 0 => s
  | k + 1 => afterSpin b k (later 1 (afterSample b s))

/-- The state after the samples `bits` of UART.BRK, each one sample period after the one before (42_uart.md R143). -/
def afterBreakSamples (bits : List Bool) (s : State) : State :=
  match bits with
  | [] => s
  | b :: rest => afterBreakSamples rest (afterSample b (later s.par.brkSample s))

/-- The result of UART.BRK on exactly the samples `bits`, from a budget and a count of consecutive lows: `none` where the
command would end sooner or take another sample (42_uart.md R143). -/
def breakResult (par : Params) (budget count : Nat) (bits : List Bool) : Option Word :=
  match bits with
  | [] => if budget < par.brkSample then some 0 else none
  | b :: rest =>
    if budget < par.brkSample then none
    else if par.brkSamples ≤ (if b then 0 else count + 1) then (if rest = [] then some 1 else none)
    else breakResult par (budget - par.brkSample) (if b then 0 else count + 1) rest

/-! ### Invariants -/

/-- Actions that can stand last in an agenda: performing one ends the command or leaves another such action last. -/
def Act.endsCommand : Act → Bool
  | .finish _ _ | .finishRx | .initCheck | .txCheck | .readyCheck | .countedPrefix _ _ => true
  | .uartStart _ | .uartGlitch _ _ | .uartData _ _ _ _ | .uartStop _ _ => true
  | .spinWhileHigh | .spinWhileLow | .breakLoop _ _ _ | .breakSample _ _ _ => true
  | .awaitTick | .drive _ _ | .waitUntil _ | .whileAtOrAbove _ _ | .whileBelow _ => false
  | .delayUs _ | .delayLoop _ _ | .delayMs _ | .clearRx | .sampleRx | .spiBytes _ _ _ _ _ | .storeRx _ => false
  | .poll _ _ _ _ | .pollTest _ _ _ _ | .setMode _ | .setProfile _ | .txLoad _ _ _ => false

/-- The agenda ends a command: it is empty, or its last action ends the command. -/
def endsCommand (acts : List Act) : Bool :=
  match acts with
  | [] => true
  | [a] => a.endsCommand
  | _ :: b :: rest => endsCommand (b :: rest)

/-- An action that keeps to the rules' ranges: no command finishes with the code FAULT (60_exceptions.md R200: only a fault
gives it), and PROFILE is set to a known profile (10_state.md R32). -/
def Act.inRange (par : Params) : Act → Bool
  | .finish code _ => code != .fault
  | .setProfile p => decide (p.toNat < par.nprofiles)
  | _ => true

/-- The machine's invariant: BUF canonical; BUSY exactly while a command has actions left, never while faulted; PEND only
while busy; FAULT, FCMD and CODE tell of a fault exactly when FAULTED is set; CODE is a code of R200; PROFILE is a
known profile. -/
def State.Inv (s : State) : Prop :=
  s.buf.wf = true ∧
  s.status.busy = !s.agenda.isEmpty ∧
  (s.status.faulted = true → s.status.busy = false) ∧
  (s.pend ≠ none → s.status.busy = true) ∧
  endsCommand s.agenda = true ∧
  (∀ a ∈ s.agenda, a.inRange s.par = true) ∧
  (s.status.faulted = true → s.status.code = 0xFF ∧ s.fault ≠ 0) ∧
  (s.status.faulted = false → s.status.code ≠ 0xFF ∧ s.fault = 0 ∧ s.fcmd = 0) ∧
  (∃ c ∈ Code.all, s.status.code = c.value) ∧
  (∀ p, s.profile = some p → p.toNat < s.par.nprofiles)

/-- Actions that leave the SPI pins alone: those of TimeBase and SoftSerialLine. -/
def Act.offBus : Act → Bool
  | .awaitTick | .waitUntil _ | .whileAtOrAbove _ _ | .whileBelow _ => true
  | .delayUs _ | .delayLoop _ _ | .delayMs _ | .finish _ _ => true
  | .drive .utx _ => true
  | .uartStart _ | .uartGlitch _ _ | .uartData _ _ _ _ | .uartStop _ _ => true
  | .spinWhileHigh | .spinWhileLow | .breakLoop _ _ _ | .breakSample _ _ _ => true
  | _ => false

/-- SCLK leaves its idle level only for the sample of one bit: read from the left, `idle` saying whether SCLK is idle now,
the actions return SCLK to idle before anything but a sample (41_spi.md R131). -/
def clockReturns (cpol : Bool) (idle : Bool) (acts : List Act) : Bool :=
  match acts with
  | [] => idle
  | .drive .sclk l :: rest => if l = cpol then clockReturns cpol true rest else idle && clockReturns cpol false rest
  | .sampleRx :: rest => clockReturns cpol idle rest
  | _ :: rest => idle && clockReturns cpol true rest

/-- The bus invariant (10_state.md R30, R34; 41_spi.md R131): before SPI.INIT the SPI pins are not driven and no running
command touches them; after it every SPI pin is driven and SCLK is idle but for the sample of one bit. UTX is
always driven. -/
def State.BusInv (s : State) : Prop :=
  s.pins.utx ≠ .z ∧
  (s.busCfg.configured = false →
    s.pins.sclk = .z ∧ s.pins.mosi = .z ∧ s.pins.cs = .z ∧ ∀ a ∈ s.agenda, a.offBus = true) ∧
  (s.busCfg.configured = true →
    s.pins.sclk ≠ .z ∧ s.pins.mosi ≠ .z ∧ s.pins.cs ≠ .z ∧
    clockReturns s.busCfg.cpol (decide (s.pins.sclk = levelOf s.busCfg.cpol)) s.agenda = true)

/-- Actions of the radio commands' own control: the only ones that write MODE, PROFILE or VERSION are among them. -/
def Act.isRadio : Act → Bool
  | .poll _ _ _ _ | .pollTest _ _ _ _ | .setMode _ | .setProfile _ | .initCheck => true
  | .txLoad _ _ _ | .txCheck | .readyCheck | .countedPrefix _ _ => true
  | _ => false

/-- The command word is one of RadioDriver's (30_encoding.md R73). -/
def isRadioWord (w : Word) : Bool :=
  match decode w with
  | .ok .rfInit | .ok (.rfMode _) | .ok (.rfConfig _) | .ok (.rfTx _ _ _) => true
  | .ok .rfRdy | .ok (.rfRxF _ _) | .ok (.rfRxC _ _) => true
  | _ => false

/-- Radio actions are on the agenda only while CURCMD is a radio command (43_radio.md R174). -/
def State.RadioInv (s : State) : Prop :=
  (∃ a ∈ s.agenda, a.isRadio = true) → ∃ w, s.curCmd = some w ∧ isRadioWord w = true

/-- The next input is not a reset. -/
def NoReset (s : State) : Prop := ∀ rest, s.inputs ≠ .reset :: rest

/-! ### The host's boot policy (70_reset_and_hazards.md R236, R237) -/

/-- BOOT_ON_NO_RESPONSE (R237): what the host does when RF.INIT reports NO_RESPONSE. It is no state of the core. -/
inductive BootPolicy where
  | failFast
  | proceed
deriving DecidableEq, Repr

/-- Whether a host with this policy goes on after RF.INIT ended with `code` (R237). -/
def BootPolicy.goesOn (p : BootPolicy) (code : Code) : Bool :=
  match p with
  | .proceed => true
  | .failFast => code != .noResponse

/-- A host command followed by the wait for BUSY = 0 (30_encoding.md R78). -/
def hostCommand (i : Instr) : List Input := [.write 32 cmdOffset (encode i), .waitIdle]

/-- The boot sequence up to RF.INIT, after reset (R236 steps 2 to 4). -/
def bootStart (cpol cspol : Bool) : List Input := hostCommand (.spiInit cpol false cspol) ++ hostCommand .rfInit

/-- The rest of the boot sequence, where the host goes on (R236 steps 5 and 6). -/
def bootRest (profile : Byte) (mode : Byte) : List Input :=
  hostCommand (.rfConfig profile) ++ hostCommand (.rfMode mode)

end Sys2Proof.Machine
end

