-- ==== Sys2Proof/Certificates/Slice0/Obligations.lean ====
section
/-! DEFINITION. The statements about the model. -/

open Sys2Proof Sys2Proof.Machine

/-! ### Encoding -/

/-- Every command survives encoding and decoding (30_encoding.md R70, R71, R73, R74). -/
def Obligations.DecodeOfEncode : Prop :=
  ∀ i : Instr, i.wellFormed = true → decode (encode i) = .ok i

/-- A word that decodes is the one encoding of its command: no bit of it is ignored (R70, R71, R76). -/
def Obligations.EncodeOfDecode : Prop :=
  ∀ (w : Word) (i : Instr), decode w = .ok i → i.wellFormed = true ∧ encode i = w

/-- R80's worked encodings and counter-examples. -/
def Obligations.WorkedEncodings : Prop :=
  decode 0x10000000 = .ok .tbRead ∧
  decode 0x110000F0 = .ok (.tbWrite 0xF0) ∧
  decode 0x1200F068 = .ok (.tbDiff 0xF0 0x68) ∧
  decode 0x140003E8 = .ok (.tbDlyUs 1000) ∧
  decode 0x20000005 = .ok (.spiInit true false true) ∧
  decode 0x2B001002 = .ok (.spiFrame true true 0x00 0x10 2) ∧
  decode 0x25001004 = .ok (.spiXferB false true 0x00 0x10 4) ∧
  decode 0x26200003 = .ok (.spiXferB true false 0x20 0x00 3) ∧
  decode 0x330007D0 = .ok (.uartBrk 2000) ∧
  decode 0x43000803 = .ok (.rfTx 0x00 8 3) ∧
  decode 0x51000010 = .ok (.mcDecode 0x00 16) ∧
  decode 0x52002008 = .ok (.mcEncode 0x00 0x20 8) ∧
  decode 0x21000001 = .error .reservedNonzero ∧
  decode 0x24010004 = .error .reservedNonzero ∧
  decode 0x60000000 = .error .illegalOpcode

/-- The illegal opcodes of R75, as numbers. -/
def illegalOpcodeNumber (n : Nat) : Prop :=
  n < 0x10 ∨ (0x16 ≤ n ∧ n < 0x20) ∨ (0x2C ≤ n ∧ n < 0x30) ∨ (0x35 ≤ n ∧ n < 0x40) ∨
    (0x47 ≤ n ∧ n < 0x50) ∨ 0x53 ≤ n

/-- R75: the illegal opcodes are exactly those listed; a command word with one faults ILLEGAL_OPCODE and has no other
effect than its acceptance. -/
def Obligations.IllegalOpcodesFault : Prop :=
  (∀ w : Word, decode w = .error .illegalOpcode ↔ illegalOpcodeNumber (w.toNat / 2 ^ 24)) ∧
  (∀ (s : State) (w : Word) (rest : List Input),
    Idle s → HostTurn s → s.inputs = .write 32 0x100 w :: rest → illegalOpcodeNumber (w.toNat / 2 ^ 24) →
    step s = .next (faultedWith .illegalOpcode (acceptedWord w { s with inputs := rest })))

/-- The bits of a word its format reserves, by its opcode number (R71, R76). -/
def reservedBits (op : Nat) : Word :=
  if op ∈ [0x10, 0x21, 0x22, 0x31, 0x32, 0x34, 0x40, 0x44] then 0x00FFFFFF
  else if op ∈ [0x11, 0x13, 0x23, 0x30, 0x41, 0x42] then 0x00FFFF00
  else if op ∈ [0x12, 0x14, 0x15, 0x45, 0x46, 0x50, 0x51] then 0x00FF0000
  else if op = 0x20 then 0x00FFFFF8
  else if op ∈ [0x24, 0x28] then 0x00FFFF00
  else if op ∈ [0x25, 0x29] then 0x00FF0000
  else if op ∈ [0x26, 0x2A] then 0x0000FF00
  else 0

/-- R76: a word with a legal opcode is turned away exactly when a reserved bit is nonzero, with RESERVED_NONZERO. -/
def Obligations.ReservedFieldsFault : Prop :=
  (∀ w : Word, ¬ illegalOpcodeNumber (w.toNat / 2 ^ 24) →
    (decode w = .error .reservedNonzero ↔ w &&& reservedBits (w.toNat / 2 ^ 24) ≠ 0)) ∧
  (∀ (s : State) (w : Word) (rest : List Input),
    Idle s → HostTurn s → s.inputs = .write 32 0x100 w :: rest → ¬ illegalOpcodeNumber (w.toNat / 2 ^ 24) →
    w &&& reservedBits (w.toNat / 2 ^ 24) ≠ 0 →
    step s = .next (faultedWith .reservedNonzero (acceptedWord w { s with inputs := rest })))

/-! ### The host interface -/

/-- A step of an idle core whose host writes a command word runs exec of the decoded command at the state in which the
word has been accepted; nothing else is added around it (R23, R72, R241). That the host's accesses are inputs of the
model is its own choice (log 1, log 2). -/
def Obligations.StepRunsDecodedCommand : Prop :=
  ∀ (s : State) (w : Word) (i : Instr) (rest : List Input),
    Idle s → HostTurn s → s.inputs = .write 32 0x100 w :: rest → decode w = .ok i →
    step s = exec i (acceptedWord w { s with inputs := rest })

/-- R23 and R206: a host write of CMD while faulted has no effect; while busy it is not accepted and the first such event
latches CMD_WHILE_BUSY with the rejected word. -/
def Obligations.RejectedCommandWrites : Prop :=
  ∀ (s : State) (w : Word) (rest : List Input),
    HostTurn s → s.inputs = .write 32 0x100 w :: rest →
    (s.status.faulted = true → step s = .next { s with inputs := rest }) ∧
    (Running s → s.pend = none →
      step s = .next { s with inputs := rest, pend := some { cause := .cmdWhileBusy, word := w } }) ∧
    (Running s → s.pend ≠ none → step s = .next { s with inputs := rest })

/-- R52, writes: idle, the byte is stored and marked written and no other byte changes; busy, the write is dropped and the
first event latched; faulted, it is dropped. -/
def Obligations.HostBufWrites : Prop :=
  ∀ (s : State) (a : Byte) (v : Word) (rest : List Input),
    HostTurn s → s.inputs = .write 8 (a.setWidth 9) v :: rest →
    (Idle s → ∃ m, step s = .next { s with inputs := rest, buf := m } ∧
      bufRead m a = some (v.setWidth 8) ∧ ∀ a', a' ≠ a → bufRead m a' = bufRead s.buf a') ∧
    (Running s → s.pend = none →
      step s = .next { s with inputs := rest,
                              pend := some { cause := .bufWriteWhileBusy, word := s.curCmd.getD 0 } }) ∧
    (Running s → s.pend ≠ none → step s = .next { s with inputs := rest }) ∧
    (s.status.faulted = true → step s = .next { s with inputs := rest })

/-- R52, reads: idle or faulted, a written byte is returned; an Unwritten byte faults BUF_UNWRITTEN with FCMD = 0 on an idle
core and raises nothing on a faulted one; busy, a read raises nothing and changes no state of the core. The value
returned where the rule gives a draw is any byte; how the model draws it is its own choice (log 7). -/
def Obligations.HostBufReads : Prop :=
  ∀ (s : State) (a : Byte) (rest : List Input),
    HostTurn s → s.inputs = .read 8 (a.setWidth 9) :: rest →
    (∀ b, s.status.busy = false → bufRead s.buf a = some b →
      step s = .next { s with inputs := rest, readout := some (b.setWidth 32) }) ∧
    (Idle s → bufRead s.buf a = none →
      ∃ b : Byte, step s = .next { s with
        inputs := rest, readout := some (b.setWidth 32), draws := s.draws + 1, fault := 0x04, fcmd := 0,
        result := 0, status := { code := 0xFF, busy := false, faulted := true }, pend := none, agenda := [] }) ∧
    (s.status.faulted = true → s.status.busy = false → bufRead s.buf a = none →
      ∃ b : Byte, step s = .next { s with
        inputs := rest, readout := some (b.setWidth 32), draws := s.draws + 1 }) ∧
    (s.status.busy = true →
      ∃ b : Byte, step s = .next { s with
        inputs := rest, readout := some (b.setWidth 32), draws := s.draws + 1 })

/-- The accesses of R203, by width and offset; `write` says whether the access is a write. -/
def badAccess (write : Bool) (width : Nat) (off : BitVec 9) : Prop :=
  (off.toNat < 0x100 ∧ width ≠ 8) ∨
  (0x100 ≤ off.toNat ∧ off.toNat < 0x114 ∧ (width ≠ 32 ∨ off.toNat % 4 ≠ 0)) ∨
  0x114 ≤ off.toNat ∨
  (write = true ∧ off.toNat ∈ [0x104, 0x108, 0x10C, 0x110])

/-- What a host access of R203 does, `u` being the state but for the fault: raised at once with FCMD = 0 when idle,
latched with CURCMD when busy (only the first event), ignored when faulted (R56, R206). -/
def hostAccessOutcome (s u : State) : Prop :=
  (Idle s → step s = .next { u with
      fault := 0x0D, fcmd := 0, result := 0, status := { code := 0xFF, busy := false, faulted := true },
      pend := none, agenda := [] }) ∧
  (Running s → s.pend = none →
    step s = .next { u with pend := some { cause := .hostAccess, word := s.curCmd.getD 0 } }) ∧
  (Running s → s.pend ≠ none → step s = .next u) ∧
  (s.status.faulted = true → step s = .next u)

/-- R56 and R203: each access of R203 is a HOST_ACCESS fault. A read among them returns some value.
The value, and which accesses R203 means, are the model's reading (log 7, log 16). -/
def Obligations.BadHostAccess : Prop :=
  (∀ (s : State) (width : Nat) (off : BitVec 9) (v : Word) (rest : List Input),
    HostTurn s → s.inputs = .write width off v :: rest → badAccess true width off →
    hostAccessOutcome s { s with inputs := rest }) ∧
  (∀ (s : State) (width : Nat) (off : BitVec 9) (rest : List Input),
    HostTurn s → s.inputs = .read width off :: rest → badAccess false width off →
    ∃ v : Word, hostAccessOutcome s { s with inputs := rest, readout := some v, draws := s.draws + 1 })

/-- R24, R55, R58: a 32-bit read of CMD, STATUS, RESULT, FAULT or FCMD returns the register, in every state of the core, and
changes nothing; STATUS reads as its three fields with every other bit 0. -/
def Obligations.HostRegisterReads : Prop :=
  (∀ (s : State) (off : BitVec 9) (v : Word) (rest : List Input),
    HostTurn s → s.inputs = .read 32 off :: rest →
    (off, v) ∈ [((0x100 : BitVec 9), s.cmd), (0x104, s.status.word), (0x108, s.result), (0x10C, s.fault),
      (0x110, s.fcmd)] →
    step s = .next { s with inputs := rest, readout := some v }) ∧
  (∀ st : Status,
    st.word.extractLsb' 0 8 = st.code ∧ st.word.getLsbD 8 = st.busy ∧ st.word.getLsbD 9 = st.faulted ∧
      ∀ i, 10 ≤ i → st.word.getLsbD i = false)

/-! ### Completion, faults, reset, time -/

/-- R205: `finish(code, result)` without and with a latched host fault. -/
def Obligations.CompletionAppliesPend : Prop :=
  (∀ (code : Code) (result : Word) (s : State), s.pend = none →
    finish code result s = completedWith code result s) ∧
  (∀ (code : Code) (result : Word) (s : State) (p : Pend), s.pend = some p →
    finish code result s = { s with
      result := result, pend := none, fault := p.cause.value.setWidth 32, fcmd := p.word,
      status := { code := 0xFF, busy := false, faulted := true }, agenda := [],
      hist := .complete s.now 0xFF :: s.hist })

/-- R204, fault entry: only the first fault is recorded; from a running command FCMD is CURCMD and a Complete event is
appended; from an idle core FCMD is 0 and no event is. -/
def Obligations.FaultEntry : Prop :=
  ∀ (cause : Cause) (s : State),
    (s.status.faulted = true → raise cause s = s) ∧
    (Running s → raise cause s = faultedWith cause s) ∧
    (Idle s → raise cause s = { s with
      fault := cause.value.setWidth 32, fcmd := 0, result := 0,
      status := { code := 0xFF, busy := false, faulted := true }, pend := none, agenda := [] })

/-- R204: faults are precise. Whatever the command, if its execution at acceptance faults, the state is the one before but
for FAULT, FCMD, STATUS, RESULT, HIST and the end of the command: no BUF byte, pin, BUSCFG, MODE, PROFILE, VERSION
or T changes. -/
def Obligations.CommandFaultsArePrecise : Prop :=
  ∀ (i : Instr) (s t : State), Running s → s.pend = none → exec i s = .next t → t.status.faulted = true →
    ∃ cause, t = faultedWith cause s

/-- R204, R209: a faulted core leaves the fault only by reset. Whatever else happens, only T, NOW, the inputs still to
come and what the host reads change. The inputs and what a read returns are the model's own fields (log 1, log 7). -/
def Obligations.FaultedCoreHalts : Prop :=
  ∀ s t : State, s.Inv → s.status.faulted = true → NoReset s → step s = .next t →
    t = { s with t := t.t, now := t.now, inputs := t.inputs, draws := t.draws, readout := t.readout }

/-- R22, R230: the values of the state after reset, and the reset event, whatever the core is doing: every element of R22's
table takes its reset value (T any; BUSCFG's polarity bits, which have none, are left out), and a command the host
writes next is accepted at once. That a reset is an input, taken at any step, is the model's choice (log 12). -/
def Obligations.ResetValues : Prop :=
  (State.reset.cmd = 0 ∧ State.reset.status.word = 0 ∧ State.reset.result = 0 ∧ State.reset.fault = 0 ∧
    State.reset.fcmd = 0 ∧ State.reset.pend = none ∧ State.reset.curCmd = none ∧ State.reset.now = 0 ∧
    State.reset.busCfg.configured = false ∧ State.reset.mode = .undefined ∧ State.reset.profile = none ∧
    State.reset.version = none ∧ State.reset.hist = [] ∧ (∀ a, bufRead State.reset.buf a = none) ∧
    State.reset.pins = { sclk := .z, mosi := .z, cs := .z, utx := .high }) ∧
  (∀ (s : State) (rest : List Input), s.inputs = .reset :: rest →
    ∃ t, step s = .next t ∧
      t.cmd = 0 ∧ t.status.word = 0 ∧ t.result = 0 ∧ t.fault = 0 ∧ t.fcmd = 0 ∧ t.pend = none ∧ t.curCmd = none ∧
      t.now = 0 ∧ t.busCfg.configured = false ∧ t.mode = .undefined ∧ t.profile = none ∧ t.version = none ∧
      t.hist = [] ∧ (∀ a, bufRead t.buf a = none) ∧ t.agenda = [] ∧
      t.pins = { sclk := .z, mosi := .z, cs := .z, utx := .high } ∧
      ∀ w rest', rest = .write 32 0x100 w :: rest' → nextMove t = .command w { t with inputs := rest' })

/-- R13, R27, R28: a tick, which happens whenever the sequencer waits and nothing else does, advances T modulo 256 and NOW;
beyond that it only releases a sequencer that waits for it. That time passes when no input is left is the model's choice
(log 1). -/
def Obligations.TickAdvancesTime : Prop :=
  ∀ s : State, HostTurn s → s.inputs = [] →
    (s.agenda = [] → step s = .next { s with t := s.t + 1, now := s.now + 1 }) ∧
    (∀ rest, s.agenda = .awaitTick :: rest →
      step s = .next { s with t := s.t + 1, now := s.now + 1, agenda := rest })

/-- R27, R241: time passes only in ticks, one at a time, and only while the sequencer waits or is idle; without a tick T
changes only when a TB.WRITE is accepted. -/
def Obligations.TimePassesOnlyInTicks : Prop :=
  ∀ s t : State, NoReset s → step s = .next t →
    (t.now = s.now + 1 ∧ t.t = s.t + 1 ∧ HostTurn s) ∨
    (t.now = s.now ∧ (t.t = s.t ∨
      ∃ v w rest, s.inputs = .write 32 0x100 w :: rest ∧ decode w = .ok (.tbWrite v) ∧ t.t = v))

/-- No step of the machine stops it: faults of the spec are states, and commands that never complete keep running
(R201, R204, R244). This is the model's choice of what a stop is (log 8). -/
def Obligations.StepNeverStops : Prop := ∀ s : State, ∃ t, step s = .next t

/-! ### TimeBase -/

/-- TB.READ (R100), TB.WRITE (R101), and TB.DIFF (R102): the forward distance by the source's two branches. -/
def Obligations.TickReadWriteDiff : Prop :=
  ∀ (v earlier later : Byte) (s : State), s.pend = none →
    exec .tbRead s = .next (completedWith .ok (s.t.setWidth 32) s) ∧
    exec (.tbWrite v) s = .next (completedWith .ok 0 { s with t := v }) ∧
    ∃ d : Byte, exec (.tbDiff earlier later) s = .next (completedWith .ok (d.setWidth 32) s) ∧
      d.toNat = (if earlier.toNat ≤ later.toNat then later.toNat - earlier.toNat
        else 255 - earlier.toNat + 1 + later.toNat)

/-- R110: the facts of the modular arithmetic of distances. -/
def Obligations.TickDiffLaws : Prop :=
  ∀ a b : Byte,
    tickDiff a a = 0 ∧ a + tickDiff a b = b ∧ tickDiff a b = b - a ∧
      (tickDiff a b).toNat + (tickDiff b a).toNat = if a = b then 0 else 256

/-- The elapsed-time laws that R107 and R108 derive, whatever comes after the wait or delay. `wait_until` ends after
exactly diff(s, t) ticks, at most 255, with T at the target; `delay_us` and `delay_ms` after exactly n and 1000 n
ticks. Nothing else changes and no event is recorded. -/
def Obligations.ElapsedTimeLaws : Prop :=
  ∀ (target : Byte) (n : Nat) (next : List Act) (s : State), Quiet s →
    (tickDiff s.t target).toNat ≤ 255 ∧
    Reaches { s with agenda := .waitUntil target :: next }
      { s with t := target, now := s.now + (tickDiff s.t target).toNat, agenda := next } ∧
    Reaches { s with agenda := .delayUs n :: next } { later n s with agenda := next } ∧
    Reaches { s with agenda := .delayMs n :: next } { later (1000 * n) s with agenda := next }

/-- TB.WAIT (R103) waits until T = target; TB.DLYUS (R105) takes n ticks and TB.DLYMS (R106) 1000 n. -/
def Obligations.WaitsAndDelaysComplete : Prop :=
  ∀ (target : Byte) (n : BitVec 16) (s : State), Quiet s →
    RunsTo (.tbWait target) s
      (completedWith .ok 0 { s with t := target, now := s.now + (tickDiff s.t target).toNat }) ∧
    RunsTo (.tbDlyUs n) s (completedWith .ok 0 (later n.toNat s)) ∧
    RunsTo (.tbDlyMs n) s (completedWith .ok 0 (later (1000 * n.toNat) s))

/-! ### SoftSpiBus -/

/-- SPI.INIT (R120): once; it stores the configuration and drives CS inactive, SCLK idle, MOSI 0, in that order at one
instant. On a configured bus it faults SPI_REINIT. -/
def Obligations.SpiInitOnce : Prop :=
  ∀ (cpol cpha cspol : Bool) (s : State),
    (s.busCfg.configured = false → s.pend = none →
      exec (.spiInit cpol cpha cspol) s = .next (completedWith .ok 0 { s with
        busCfg := { configured := true, cpol := cpol, cpha := cpha, cspol := cspol }
        pins := { s.pins with cs := levelOf (!cspol), sclk := levelOf cpol, mosi := .low }
        hist := .drive s.now .mosi false :: .drive s.now .sclk cpol :: .drive s.now .cs (!cspol) :: s.hist })) ∧
    (s.busCfg.configured = true → Running s →
      exec (.spiInit cpol cpha cspol) s = .next (faultedWith .spiReinit s))

/-- SPI.SEL (R121) and SPI.DESEL (R122): CS to CSPOL and to its complement, also with CPHA = 1; before SPI.INIT they
fault SPI_UNCONFIGURED. -/
def Obligations.SpiSelectAndDeselect : Prop :=
  ∀ s : State,
    (s.busCfg.configured = true → s.pend = none →
      exec .spiSel s = .next (completedWith .ok 0 { s with
        pins := { s.pins with cs := levelOf s.busCfg.cspol }
        hist := .drive s.now .cs s.busCfg.cspol :: s.hist }) ∧
      exec .spiDesel s = .next (completedWith .ok 0 { s with
        pins := { s.pins with cs := levelOf (!s.busCfg.cspol) }
        hist := .drive s.now .cs (!s.busCfg.cspol) :: s.hist })) ∧
    (s.busCfg.configured = false → Running s →
      exec .spiSel s = .next (faultedWith .spiUnconfigured s) ∧
      exec .spiDesel s = .next (faultedWith .spiUnconfigured s))

/-- The commands that transfer a byte when they get past their documented error checks (R123, 43_radio.md R160). -/
def transfers (s : State) : Instr → Prop
  | .spiXfer _ | .spiXferB _ _ _ _ _ | .spiFrame _ _ _ _ _ => True
  | .rfInit | .rfRdy | .rfRxC _ _ => True
  | .rfMode m => m.toNat ≤ 2
  | .rfConfig p => p.toNat < s.par.nprofiles ∧ s.profile ≠ some p
  | .rfTx _ len _ => len ≠ 0 ∧ len.toNat ≤ s.par.fifoCapacity
  | .rfRxF _ maxlen => maxlen.toNat ≤ s.par.fifoCapacity
  | _ => False

/-- R123, R160, R207: a transfer before SPI.INIT faults SPI_UNCONFIGURED, and one with CPHA = 1 faults
CPHA_UNIMPLEMENTED, before every check of MODE or BUF. -/
def Obligations.TransferPreconditions : Prop :=
  ∀ (i : Instr) (s : State), transfers s i → Running s →
    (s.busCfg.configured = false → exec i s = .next (faultedWith .spiUnconfigured s)) ∧
    (s.busCfg.configured = true → s.busCfg.cpha = true → exec i s = .next (faultedWith .cphaUnimplemented s))

/-- R124, `spi_byte(tx)`, whatever comes after it: a byte is exchanged most significant bit first with the waveform of the
rule, 8 x SPI_SETTLE_US ticks later; CS and everything else are unchanged. The answers are the environment's; the lists
they come from and the count of draws are the model's own (log 6), here and in every statement below. SPI.XFER
(R125) is one such exchange, and RESULT is the received byte. -/
def Obligations.SpiByteExchange : Prop :=
  ∀ (tx : Byte) (next : List Act) (s : State), Quiet s →
    (∃ rx, Agrees s.misoIn (answersOf rx) ∧
      Reaches { s with agenda := spiByte s tx ++ next } { afterByte tx rx s with agenda := next }) ∧
    (BusReady s → ∃ rx, Agrees s.misoIn (answersOf rx) ∧
      RunsTo (.spiXfer tx) s (completedWith .ok (rx.setWidth 32) (afterByte tx rx s)))

/-- The operands of a format X command name regions the command may use (R126, R51, R53). -/
def XOperandsReady (t r : Bool) (a b : Byte) (n : Nat) (s : State) : Prop :=
  (t = true → RegionReadable s a n) ∧ (r = true → b.toNat + n ≤ 256)

/-- `m'` is `m` after the bytes `bs` were stored from `b` on: they stand there, and every other address reads as before. -/
def storesExactly (m m' : Memory) (b : Byte) (bs : List Byte) : Prop :=
  (∀ i x, bs[i]? = some x → bufRead m' (b + BitVec.ofNat 8 i) = some x) ∧
  (∀ a, (∀ i, i < bs.length → a ≠ b + BitVec.ofNat 8 i) → bufRead m' a = bufRead m a)

/-- R54, R127: what a command stores, and the frame of BUF. In a region that does not wrap the bytes stored stand in
address order and every other address reads as before; an exchange with an rx buffer stores exactly the received
bytes, and one without stores nothing. -/
def Obligations.StoredBytes : Prop :=
  ∀ (b : Byte) (bs : List Byte), b.toNat + bs.length ≤ 256 →
    (∀ m : Memory, storesExactly m (bufWriteAll m b bs) b bs) ∧
    (∀ (t : Bool) (a : Byte) (s : State),
      storesExactly s.buf (afterExchange t true a b bs s).buf b bs ∧
      (afterExchange t false a b bs s).buf = s.buf)

/-- SPI.XFERB (R126, R127): `count` bytes in index order, with either buffer present or absent. -/
def Obligations.SpiXferBytesCompletes : Prop :=
  ∀ (t r : Bool) (a b count : Byte) (s : State), Quiet s → BusReady s → XOperandsReady t r a b count.toNat s →
    ∃ rxs : List Byte, rxs.length = count.toNat ∧ Agrees s.misoIn (answersOfAll rxs) ∧
      RunsTo (.spiXferB t r a b count) s (completedWith .ok 0 (afterExchange t r a b rxs s))

/-- SPI.FRAME (R128): select, the bytes of SPI.XFERB, deselect. -/
def Obligations.SpiFrameCompletes : Prop :=
  ∀ (t r : Bool) (a b count : Byte) (s : State), Quiet s → BusReady s → XOperandsReady t r a b count.toNat s →
    ∃ rxs : List Byte, rxs.length = count.toNat ∧ Agrees s.misoIn (answersOfAll rxs) ∧
      RunsTo (.spiFrame t r a b count) s
        (completedWith .ok 0 (drive .cs (!s.busCfg.cspol)
          (afterExchange t r a b rxs (drive .cs s.busCfg.cspol s))))

/-- R126, R128, R207: on a bus that can transfer, an illegal region of a present buffer faults BUF_RANGE; with both legal,
an Unwritten tx byte faults BUF_UNWRITTEN. -/
def Obligations.FormatXBufferFaults : Prop :=
  ∀ (t r : Bool) (a b count : Byte) (s : State), BusReady s → Running s →
    ((t = true ∧ 256 < a.toNat + count.toNat) ∨ (r = true ∧ 256 < b.toNat + count.toNat) →
      exec (.spiXferB t r a b count) s = .next (faultedWith .bufRange s) ∧
      exec (.spiFrame t r a b count) s = .next (faultedWith .bufRange s)) ∧
    (t = true → a.toNat + count.toNat ≤ 256 → (r = true → b.toNat + count.toNat ≤ 256) →
      (∃ i, i < count.toNat ∧ bufRead s.buf (a + BitVec.ofNat 8 i) = none) →
      exec (.spiXferB t r a b count) s = .next (faultedWith .bufUnwritten s) ∧
      exec (.spiFrame t r a b count) s = .next (faultedWith .bufUnwritten s))

/-! ### SoftSerialLine -/

/-- UART.TX (R140): the waveform of UTX, 11 x UART_BIT ticks in all. -/
def Obligations.UartTxCompletes : Prop :=
  ∀ (byte : Byte) (s : State), Quiet s →
    RunsTo (.uartTx byte) s (completedWith .ok 0 { later (11 * s.par.uartBit) s with
      pins := { s.pins with utx := .high }
      hist := (txEvents s.now s.par.uartBit byte).reverse ++ s.hist })

/-- UART.RX (R141, R146): NOISE after the start sample when the line is high; else the outcome by the stop sample and the
data, sampled at the rule's times. -/
def Obligations.UartRxOutcomes : Prop :=
  ∀ s : State, Quiet s →
    (Agrees s.urxIn [true] ∧ RunsTo .uartRx s (completedWith .noise 0 (afterGlitch s))) ∨
    (∃ d stop, Agrees s.urxIn (frameBits d stop) ∧
      RunsTo .uartRx s (completedWith (receiveCode d stop) (d.setWidth 32) (afterReceive d stop s)))

/-- UART.WAITB (R142): after n high samples and a low one a frame is received; a good one ends the command with DECODED;
after a bad one or a glitch the run goes on as a UART.WAITB started then does. -/
def Obligations.UartWaitByteCompletes : Prop :=
  ∀ (s : State) (n : Nat) (d : Byte) (rest : List Bool), Quiet s →
    (s.urxIn = List.replicate n true ++ false :: (frameBits d true ++ rest) →
      RunsTo .uartWaitB s
        (completedWith .decoded (d.setWidth 32) (afterReceive d true (afterSample false (afterSpin true n s))))) ∧
    (s.urxIn = List.replicate n true ++ false :: (frameBits d false ++ rest) →
      ∃ w, exec .uartWaitB (afterReceive d false (afterSample false (afterSpin true n s))) = .next w ∧
        RunsTo .uartWaitB s w) ∧
    (s.urxIn = List.replicate n true ++ false :: true :: rest →
      ∃ w, exec .uartWaitB (afterGlitch (afterSample false (afterSpin true n s))) = .next w ∧
        RunsTo .uartWaitB s w)

/-- UART.BRK (R143): always ends within its budget, with the result the samples give. -/
def Obligations.UartBreakCompletes : Prop :=
  ∀ (budget : BitVec 24) (s : State), Quiet s →
    ∃ (bits : List Bool) (result : Word), breakResult s.par budget.toNat 0 bits = some result ∧
      Agrees s.urxIn bits ∧ bits.length * s.par.brkSample ≤ budget.toNat ∧
      RunsTo (.uartBrk budget) s (completedWith .ok result (afterBreakSamples bits s))

/-- UART.NOBRK (R144): n low samples, one a tick, then a high one. -/
def Obligations.UartNoBreakCompletes : Prop :=
  ∀ (s : State) (n : Nat) (rest : List Bool), Quiet s →
    s.urxIn = List.replicate n false ++ true :: rest →
    RunsTo .uartNoBrk s (completedWith .ok 0 (afterSample true (afterSpin false n s)))

/-- R145, R244: while the line stays low UART.NOBRK goes on sampling once a tick, and while it stays high UART.WAITB does;
neither has a timeout. -/
def Obligations.SpinsWithoutTimeout : Prop :=
  ∀ (s : State) (n : Nat) (rest : List Bool), Quiet s →
    (s.urxIn = List.replicate n false ++ rest →
      ∃ w, exec .uartNoBrk (afterSpin false n s) = .next w ∧ RunsTo .uartNoBrk s w) ∧
    (s.urxIn = List.replicate n true ++ rest →
      ∃ w, exec .uartWaitB (afterSpin true n s) = .next w ∧ RunsTo .uartWaitB s w)

/-! ### RadioDriver -/

/-- RF.INIT (R163): the version register is read; a sentinel ends NO_RESPONSE and changes no record, else VERSION is
recorded and the memo reset. MODE is never changed. -/
def Obligations.RadioInitCompletes : Prop :=
  ∀ s : State, Quiet s → BusReady s →
    ∃ x v : Byte, Agrees s.misoIn (answersOfAll [x, v]) ∧
      RunsTo .rfInit s
        (let u := afterFrame [readAddress s.par s.par.regVersion, 0] [x, v] s
         if v = s.par.notWiredA ∨ v = s.par.notWiredB then completedWith .noResponse (v.setWidth 32) u
         else completedWith .ok (v.setWidth 32) { u with version := some v, profile := none })

/-- RF.MODE (R164), every poll satisfied by its first read: the write, the polls, then MODE. A mode operand above 2 is
INVALID_PARAMETER and changes nothing else, whatever the bus. -/
def Obligations.RadioModeCompletes : Prop :=
  (∀ (c : Byte) (m : RadioMode) (s : State) (rxs : List (List Byte)) (rest : List Bool), Quiet s → BusReady s →
    (c, m) ∈ [((0 : Byte), RadioMode.standby), (1, .receive), (2, .transmit)] →
    Answers (modeFrames s.par m) rxs → s.misoIn = answersOfAll rxs.flatten ++ rest →
    RunsTo (.rfMode c) s
      (completedWith .ok 0 { afterRadio (modeFrames s.par m) rxs s with mode := .known m })) ∧
  (∀ (c : Byte) (s : State), s.pend = none → 2 < c.toNat →
    exec (.rfMode c) s = .next (completedWith .invalidParameter 0 s))

/-- R162, `poll`, whatever comes after it: the register is read again until the flag is as wanted; with a finite
POLL_LIMIT the limit's last failing read ends the whole command with TIMEOUT and MODE Undefined. -/
def Obligations.PollReadsUntilSatisfied : Prop :=
  ∀ (reg : BitVec 7) (bit : Fin 8) (want : Bool) (next : List Act) (s : State) (fails : List (List Byte))
    (last : List Byte) (rest : List Bool), Quiet s →
    (∀ f ∈ fails, f.length = 2 ∧ flagSet (f.getLastD 0) bit ≠ want) → last.length = 2 →
    s.misoIn = answersOfAll (fails ++ [last]).flatten ++ rest →
    (flagSet (last.getLastD 0) bit = want → (∀ limit, s.par.pollLimit = some limit → fails.length < limit) →
      Reaches { s with agenda := .poll reg bit want 0 :: next }
        { afterFrames ((fails ++ [last]).map fun f => ([readAddress s.par reg, 0], f)) s with agenda := next }) ∧
    (flagSet (last.getLastD 0) bit ≠ want → s.par.pollLimit = some (fails.length + 1) →
      Reaches { s with agenda := .poll reg bit want 0 :: next }
        (completedWith .timeout (reg.setWidth 32)
          { afterFrames ((fails ++ [last]).map fun f => ([readAddress s.par reg, 0], f)) s with
            mode := .undefined }))

/-- RF.CONFIG (R165): an unknown profile is INVALID_PARAMETER; a memo hit ends OK; both change nothing else, whatever the
bus. Otherwise every pair is written in order and the profile becomes active. -/
def Obligations.RadioConfigCompletes : Prop :=
  ∀ (p : Byte) (s : State),
    (s.pend = none → s.par.nprofiles ≤ p.toNat →
      exec (.rfConfig p) s = .next (completedWith .invalidParameter 0 s)) ∧
    (s.pend = none → p.toNat < s.par.nprofiles → s.profile = some p →
      exec (.rfConfig p) s = .next (completedWith .ok 0 s)) ∧
    (∀ pairs, Quiet s → BusReady s → s.par.profiles[p.toNat]? = some pairs → s.profile ≠ some p →
      ∃ rxs, Answers (pairs.map fun av => writeFrame s.par av.1 av.2) rxs ∧
        Agrees s.misoIn (answersOfAll rxs.flatten) ∧
        RunsTo (.rfConfig p) s
          (completedWith .ok 0
            { afterRadio (pairs.map fun av => writeFrame s.par av.1 av.2) rxs s with profile := some p }))

/-- R171, the memo law: from any state in which the profile is known and the bus ready, RF.CONFIG p ends in a state in
which a second RF.CONFIG p completes at once with no event but its completion. -/
def Obligations.RadioConfigMemo : Prop :=
  ∀ (p : Byte) (s : State), Quiet s → BusReady s → p.toNat < s.par.nprofiles →
    ∃ u, RunsTo (.rfConfig p) s u ∧ u.status.code = 0 ∧ u.profile = some p ∧
      ∀ w, exec (.rfConfig p) (acceptedWord w u) = .next (completedWith .ok 0 (acceptedWord w u))

/-- RF.TX (R166), every poll satisfied by its first read: the frames of the rule in its order, the mode back at the prior
one, and OVERRUN or OK by the flags read last. -/
def Obligations.RadioTransmitCompletes : Prop :=
  ∀ (a len rep : Byte) (prior : RadioMode) (s : State) (rxs : List (List Byte)) (rest : List Bool),
    Quiet s → BusReady s → s.mode = .known prior → len ≠ 0 → len.toNat ≤ s.par.fifoCapacity →
    RegionReadable s a len.toNat →
    Answers (txFrames s.par prior (bufReadAll s.buf a len.toNat)
      (if rep = 0 then s.par.defaultTxRepeat else rep.toNat)) rxs →
    s.misoIn = answersOfAll rxs.flatten ++ rest →
    RunsTo (.rfTx a len rep) s
      (let u := afterRadio (txFrames s.par prior (bufReadAll s.buf a len.toNat)
          (if rep = 0 then s.par.defaultTxRepeat else rep.toNat)) rxs s
       let f := (rxs.getLastD []).getLastD 0
       if flagSet f s.par.bitFifoNotEmpty = true ∨ flagSet f s.par.bitFifoOverrun = true then
         completedWith .overrun (f.setWidth 32) u
       else completedWith .ok 0 u)

/-- R166, R168, R201: the size errors are returned before any bus traffic and change nothing else, whatever the bus. -/
def Obligations.RadioSizeErrors : Prop :=
  ∀ (a len rep : Byte) (s : State), s.pend = none →
    (len = 0 → exec (.rfTx a len rep) s = .next (completedWith .invalidParameter 0 s)) ∧
    (s.par.fifoCapacity < len.toNat →
      exec (.rfTx a len rep) s = .next (completedWith .bufferTooSmall 0 s) ∧
      exec (.rfRxF a len) s = .next (completedWith .longPayload 0 s))

/-- R160, R207: on a bus that can transfer, RF.TX, RF.RDY, RF.RXF and RF.RXC fault MODE_UNDEFINED before set_mode; with a
known mode an illegal region faults BUF_RANGE, and an Unwritten payload byte of RF.TX BUF_UNWRITTEN. -/
def Obligations.RadioDataFaults : Prop :=
  ∀ (a n rep : Byte) (s : State), BusReady s → Running s →
    (s.mode = .undefined →
      exec .rfRdy s = .next (faultedWith .modeUndefined s) ∧
      exec (.rfRxC a n) s = .next (faultedWith .modeUndefined s) ∧
      (n.toNat ≤ s.par.fifoCapacity → exec (.rfRxF a n) s = .next (faultedWith .modeUndefined s)) ∧
      (n.toNat ≤ s.par.fifoCapacity → n ≠ 0 →
        exec (.rfTx a n rep) s = .next (faultedWith .modeUndefined s))) ∧
    (s.mode ≠ .undefined →
      (256 < a.toNat + n.toNat + 1 → exec (.rfRxC a n) s = .next (faultedWith .bufRange s)) ∧
      (n.toNat ≤ s.par.fifoCapacity → 256 < a.toNat + n.toNat →
        exec (.rfRxF a n) s = .next (faultedWith .bufRange s) ∧
        exec (.rfTx a n rep) s = .next (faultedWith .bufRange s)) ∧
      (n.toNat ≤ s.par.fifoCapacity → a.toNat + n.toNat ≤ 256 →
        (∃ i, i < n.toNat ∧ bufRead s.buf (a + BitVec.ofNat 8 i) = none) →
        exec (.rfTx a n rep) s = .next (faultedWith .bufUnwritten s)))

/-- RF.RDY (R167): one register read; READY or NOT_READY by the payload-ready flag. -/
def Obligations.RadioReadyCompletes : Prop :=
  ∀ s : State, Quiet s → BusReady s → s.mode ≠ .undefined →
    ∃ x f : Byte, Agrees s.misoIn (answersOfAll [x, f]) ∧
      RunsTo .rfRdy s
        (let u := afterFrame [readAddress s.par s.par.regIrqFlags2, 0] [x, f] s
         if flagSet f s.par.bitPayloadReady = true then completedWith .ready 1 u
         else completedWith .notReady 0 u)

/-- RF.RXF (R168): one frame; exactly `maxlen` bytes are stored from `b` on. -/
def Obligations.RadioReceiveFixedCompletes : Prop :=
  ∀ (b maxlen : Byte) (s : State), Quiet s → BusReady s → s.mode ≠ .undefined →
    maxlen.toNat ≤ s.par.fifoCapacity → b.toNat + maxlen.toNat ≤ 256 →
    ∃ (x : Byte) (xs : List Byte), xs.length = maxlen.toNat ∧ Agrees s.misoIn (answersOfAll (x :: xs)) ∧
      RunsTo (.rfRxF b maxlen) s
        (completedWith .ok (maxlen.setWidth 32)
          { afterFrame (readAddress s.par s.par.regFifo :: List.replicate maxlen.toNat 0) (x :: xs) s with
            buf := bufWriteAll s.buf b xs })

/-- RF.RXC (R169): the length prefix is stored; a prefix above `maxlen` ends BUFFER_TOO_SMALL with no byte more; else
that many bytes follow it, in the same frame. -/
def Obligations.RadioReceiveCountedCompletes : Prop :=
  ∀ (b maxlen : Byte) (s : State), Quiet s → BusReady s → s.mode ≠ .undefined →
    b.toNat + maxlen.toNat + 1 ≤ 256 →
    ∃ (x n : Byte) (xs : List Byte), Agrees s.misoIn (answersOfAll (x :: n :: xs)) ∧
      if maxlen.toNat < n.toNat then
        xs = [] ∧
        RunsTo (.rfRxC b maxlen) s
          (completedWith .bufferTooSmall (n.setWidth 32)
            { afterFrame [readAddress s.par s.par.regFifo, 0] [x, n] s with buf := bufWrite s.buf b n })
      else
        xs.length = n.toNat ∧
        RunsTo (.rfRxC b maxlen) s
          (completedWith .ok (n.setWidth 32)
            { afterFrame (readAddress s.par s.par.regFifo :: 0 :: List.replicate n.toNat 0) (x :: n :: xs) s with
              buf := bufWriteAll s.buf b (n :: xs) })

/-- R31 to R33, R174: MODE, PROFILE and VERSION are written only by radio commands and by reset. A step keeps the
invariant that ties radio actions to a radio command. -/
def Obligations.OnlyRadioWritesRadioState : Prop :=
  ∀ s t : State, s.RadioInv → step s = .next t →
    t.RadioInv ∧
    (t.mode ≠ s.mode ∨ t.profile ≠ s.profile ∨ t.version ≠ s.version →
      (∃ rest, s.inputs = .reset :: rest) ∨ ∃ w, s.curCmd = some w ∧ isRadioWord w = true)

/-- R30: once configured, BUSCFG is immutable until reset; and the parameters never change. -/
def Obligations.BusConfigImmutable : Prop :=
  ∀ s t : State, step s = .next t →
    t.par = s.par ∧ (NoReset s → s.busCfg.configured = true → t.busCfg = s.busCfg)

/-! ### ManchesterCodec -/

/-- The legal nibbles of R190, as values. -/
def legalNibbleValue (x : BitVec 4) : Prop := x ∈ [(0x5 : BitVec 4), 0x6, 0x9, 0xA]

/-- Every byte of the region (b, n) has both nibbles legal (R191). -/
def RegionIsManchester (s : State) (b : Byte) (n : Nat) : Prop :=
  ∀ i x, i < n → bufRead s.buf (b + BitVec.ofNat 8 i) = some x →
    legalNibbleValue (x.extractLsb' 4 4) ∧ legalNibbleValue (x.extractLsb' 0 4)

/-- R190, R194, R196: the code, its round trip, and the sixteen legal bytes. -/
def Obligations.NibbleCode : Prop :=
  (enc2 0 = 0x5 ∧ enc2 1 = 0x6 ∧ enc2 2 = 0x9 ∧ enc2 3 = 0xA) ∧
  (∀ n : BitVec 4, decByte (encNib n) = n ∧ legalByte (encNib n) = true) ∧
  (∀ x : Byte, legalByte x = true → encNib (decByte x) = x) ∧
  ((List.range 256).filter fun k => legalByte (BitVec.ofNat 8 k)).length = 16

/-- MC.VALID (R191): OK with 1 or INVALID_MANCHESTER with 0; BUF is not written. -/
def Obligations.ManchesterValid : Prop :=
  ∀ (b size : Byte) (s : State), s.pend = none → RegionReadable s b size.toNat →
    (RegionIsManchester s b size.toNat → exec (.mcValid b size) s = .next (completedWith .ok 1 s)) ∧
    (¬ RegionIsManchester s b size.toNat → exec (.mcValid b size) s = .next (completedWith .invalidManchester 0 s))

/-- MC.DECODE (R192): byte j of the first half is decoded from bytes 2j and 2j + 1 as they were; every other byte of BUF
keeps its value. -/
def Obligations.ManchesterDecode : Prop :=
  ∀ (b size : Byte) (s : State), s.pend = none → RegionReadable s b size.toNat → size.toNat % 2 = 0 →
    RegionIsManchester s b size.toNat →
    ∃ m, exec (.mcDecode b size) s =
        .next (completedWith .decoded (BitVec.ofNat 32 (size.toNat / 2)) { s with buf := m }) ∧
      (∀ j x y, j < size.toNat / 2 → bufRead s.buf (b + BitVec.ofNat 8 (2 * j)) = some x →
        bufRead s.buf (b + BitVec.ofNat 8 (2 * j + 1)) = some y →
        bufRead m (b + BitVec.ofNat 8 j) = some (decByte x ++ decByte y)) ∧
      (∀ a', (∀ j, j < size.toNat / 2 → a' ≠ b + BitVec.ofNat 8 j) → bufRead m a' = bufRead s.buf a')

/-- MC.ENCODE (R193): two bytes for each source byte as it was before any write; every other byte of BUF keeps its
value. -/
def Obligations.ManchesterEncode : Prop :=
  ∀ (a b size : Byte) (s : State), s.pend = none → RegionReadable s a size.toNat →
    b.toNat + 2 * size.toNat ≤ 256 →
    ∃ m, exec (.mcEncode a b size) s =
        .next (completedWith .ok (BitVec.ofNat 32 (2 * size.toNat)) { s with buf := m }) ∧
      (∀ i x, i < size.toNat → bufRead s.buf (a + BitVec.ofNat 8 i) = some x →
        bufRead m (b + BitVec.ofNat 8 (2 * i)) = some (encNib (x.extractLsb' 4 4)) ∧
        bufRead m (b + BitVec.ofNat 8 (2 * i + 1)) = some (encNib (x.extractLsb' 0 4))) ∧
      (∀ a', (∀ k, k < 2 * size.toNat → a' ≠ b + BitVec.ofNat 8 k) → bufRead m a' = bufRead s.buf a')

/-- R191 to R193, R207: the faults of the codec, the first failing check of each command. -/
def Obligations.ManchesterFaults : Prop :=
  ∀ (a b size : Byte) (s : State), Running s →
    (256 < b.toNat + size.toNat →
      exec (.mcValid b size) s = .next (faultedWith .bufRange s) ∧
      exec (.mcDecode b size) s = .next (faultedWith .bufRange s)) ∧
    (b.toNat + size.toNat ≤ 256 →
      (∃ i, i < size.toNat ∧ bufRead s.buf (b + BitVec.ofNat 8 i) = none) →
      exec (.mcValid b size) s = .next (faultedWith .bufUnwritten s) ∧
      exec (.mcDecode b size) s = .next (faultedWith .bufUnwritten s)) ∧
    (RegionReadable s b size.toNat → size.toNat % 2 = 1 →
      exec (.mcDecode b size) s = .next (faultedWith .oddSize s)) ∧
    (RegionReadable s b size.toNat → size.toNat % 2 = 0 → ¬ RegionIsManchester s b size.toNat →
      exec (.mcDecode b size) s = .next (faultedWith .manchesterPrecondition s)) ∧
    (256 < a.toNat + size.toNat ∨ 256 < b.toNat + 2 * size.toNat →
      exec (.mcEncode a b size) s = .next (faultedWith .bufRange s)) ∧
    (a.toNat + size.toNat ≤ 256 → b.toNat + 2 * size.toNat ≤ 256 →
      (∃ i, i < size.toNat ∧ bufRead s.buf (a + BitVec.ofNat 8 i) = none) →
      exec (.mcEncode a b size) s = .next (faultedWith .bufUnwritten s))

/-- R194, the round trip at command level, overlapping regions included: MC.ENCODE, then MC.VALID gives 1, and MC.DECODE of
the encoded bytes reproduces the data in the first half. -/
def Obligations.EncodeThenDecodeRoundTrip : Prop :=
  ∀ (a b size : Byte) (s : State), s.pend = none → RegionReadable s a size.toNat →
    2 * size.toNat ≤ 255 → b.toNat + 2 * size.toNat ≤ 256 →
    ∃ t u, exec (.mcEncode a b size) s = .next t ∧
      exec (.mcValid b (BitVec.ofNat 8 (2 * size.toNat))) t = .next (completedWith .ok 1 t) ∧
      exec (.mcDecode b (BitVec.ofNat 8 (2 * size.toNat))) t = .next u ∧
      u.status.code = 0x04 ∧ u.result = BitVec.ofNat 32 size.toNat ∧
      ∀ i, i < size.toNat →
        bufRead u.buf (b + BitVec.ofNat 8 i) = bufRead s.buf (a + BitVec.ofNat 8 i)

/-- R195: a region of legal bytes is valid; one byte replaced by a byte with an illegal nibble, at any position, makes
MC.VALID give 0 and MC.DECODE fault (on an odd size it faults with ODD_SIZE, R207). -/
def Obligations.SingleNibbleSensitivity : Prop :=
  ∀ (b size : Byte) (s : State), s.pend = none → Running s → RegionReadable s b size.toNat →
    RegionIsManchester s b size.toNat →
    exec (.mcValid b size) s = .next (completedWith .ok 1 s) ∧
    ∀ (k : Nat) (x : Byte) (u : State), k < size.toNat →
      ¬ (legalNibbleValue (x.extractLsb' 4 4) ∧ legalNibbleValue (x.extractLsb' 0 4)) →
      u = { s with buf := bufWrite s.buf (b + BitVec.ofNat 8 k) x } →
      exec (.mcValid b size) u = .next (completedWith .invalidManchester 0 u) ∧
      exec (.mcDecode b size) u =
        .next (faultedWith (if size.toNat % 2 = 0 then .manchesterPrecondition else .oddSize) u)

/-! ### Invariants -/

/-- The machine's invariant is kept by every step: BUF canonical; BUSY exactly while a command has actions left, and never
while faulted; PEND only while busy; FAULTED exactly when CODE is 0xFF and FAULT is nonzero, and FCMD 0 while not
faulted; CODE always one of R200's codes; PROFILE always a known profile; the agenda ends a command. -/
def Obligations.StepKeepsInvariant : Prop := ∀ s t : State, s.Inv → step s = .next t → t.Inv

/-- The bus invariant is kept by every step: before SPI.INIT no SPI pin is driven and no running command touches one; after it
every SPI pin is driven and SCLK leaves CPOL only for the sample of one bit, so that a configured bus has SCLK at CPOL
whenever no command runs (R131). UTX is always driven. -/
def Obligations.StepKeepsBusInvariant : Prop :=
  ∀ s t : State, s.BusInv → step s = .next t →
    t.BusInv ∧ (t.busCfg.configured = true → t.agenda = [] → t.pins.sclk = levelOf t.busCfg.cpol)

/-- The state after reset meets the machine's invariant, the bus invariant, and the one of the radio records. -/
def Obligations.ResetMeetsInvariants : Prop :=
  State.reset.Inv ∧ State.reset.BusInv ∧ State.reset.RadioInv
end

