-- ==== Sys2Proof/Laws/Memory.lean ====
section
/-! SUPPORT. The laws of BUF: read after write, and the canonical form kept by every memory operation. -/

namespace Sys2Proof.Machine

/-- Read after insert at the same address. -/
theorem bufRead_bufInsert_same (m : Memory) (a b : Byte) : bufRead (bufInsert m a.toNat b) a = some b := by
  induction m with
  | nil => simp [bufInsert, bufRead]
  | cons c rest ih =>
    obtain ⟨k, v⟩ := c
    unfold bufInsert
    split
    · simp [bufRead]
    · split
      · simp [bufRead]
      · rename_i h1 h2
        simp [bufRead, Ne.symm h2, ih]

/-- An insert leaves every other address alone. -/
theorem bufRead_bufInsert_other (m : Memory) (k : Nat) (a b : Byte) (h : k ≠ a.toNat) :
    bufRead (bufInsert m k b) a = bufRead m a := by
  induction m with
  | nil => simp [bufInsert, bufRead, h]
  | cons c rest ih =>
    obtain ⟨j, v⟩ := c
    unfold bufInsert
    split
    · simp [bufRead, h]
    · split
      · rename_i h1 h2
        subst h2
        simp [bufRead, h]
      · simp [bufRead, ih]

/-- Read after write, same address. -/
@[simp] theorem bufRead_bufWrite_same (m : Memory) (a b : Byte) : bufRead (bufWrite m a b) a = some b :=
  bufRead_bufInsert_same m a b

/-- A write leaves every other byte, and its written mark, alone (20_memory.md R54). -/
theorem bufRead_bufWrite_other (m : Memory) (a a' b : Byte) (h : a' ≠ a) :
    bufRead (bufWrite m a b) a' = bufRead m a' :=
  bufRead_bufInsert_other m a.toNat a' b (fun e => h (BitVec.eq_of_toNat_eq e.symm))

/-- Read after write, by cases. -/
theorem bufRead_bufWrite (m : Memory) (a a' b : Byte) :
    bufRead (bufWrite m a b) a' = if a' = a then some b else bufRead m a' := by
  split
  · subst_vars; simp
  · exact bufRead_bufWrite_other m a a' b ‹_›

/-- A higher lower bound is a stronger form. -/
theorem wfFrom_mono {lo lo' : Nat} {m : Memory} (h : lo' ≤ lo) (hm : Memory.wfFrom lo m = true) :
    Memory.wfFrom lo' m = true := by
  cases m with
  | nil => rfl
  | cons c rest =>
    obtain ⟨k, v⟩ := c
    simp only [Memory.wfFrom, Bool.and_eq_true, decide_eq_true_eq] at hm ⊢
    exact ⟨⟨by omega, hm.1.2⟩, hm.2⟩

/-- Inserting below 256 keeps the canonical form. -/
theorem wfFrom_bufInsert {lo k : Nat} {m : Memory} {b : Byte} (hk : lo ≤ k) (h256 : k < 256)
    (hm : Memory.wfFrom lo m = true) : Memory.wfFrom lo (bufInsert m k b) = true := by
  induction m generalizing lo with
  | nil => simp [bufInsert, Memory.wfFrom, hk, h256]
  | cons c rest ih =>
    obtain ⟨j, v⟩ := c
    simp only [Memory.wfFrom, Bool.and_eq_true, decide_eq_true_eq] at hm
    unfold bufInsert
    split
    · simp only [Memory.wfFrom, Bool.and_eq_true, decide_eq_true_eq]
      exact ⟨⟨hk, h256⟩, ⟨⟨by omega, hm.1.2⟩, hm.2⟩⟩
    · split
      · rename_i h
        subst h
        simp only [Memory.wfFrom, Bool.and_eq_true, decide_eq_true_eq]
        exact ⟨⟨hk, h256⟩, hm.2⟩
      · simp only [Memory.wfFrom, Bool.and_eq_true, decide_eq_true_eq]
        exact ⟨hm.1, ih (by omega) hm.2⟩

/-- A write keeps the canonical form. -/
theorem wf_bufWrite {m : Memory} (a b : Byte) (hm : m.wf = true) : (bufWrite m a b).wf = true :=
  wfFrom_bufInsert (Nat.zero_le _) (by omega) hm

/-- A list of writes keeps the canonical form. -/
theorem wf_bufWriteAll {m : Memory} (a : Byte) (bs : List Byte) (hm : m.wf = true) :
    (bufWriteAll m a bs).wf = true := by
  induction bs generalizing m a with
  | nil => exact hm
  | cons b rest ih => exact ih (a + 1) (wf_bufWrite a b hm)

/-- The decode loop keeps the canonical form. -/
theorem wf_decodeInPlace {m : Memory} (b : Byte) (n : Nat) (hm : m.wf = true) : (decodeInPlace b n m).wf = true := by
  have : ∀ (l : List Nat) (m : Memory), m.wf = true → (l.foldl (decodeStep b) m).wf = true := by
    intro l
    induction l with
    | nil => exact fun m h => h
    | cons j rest ih => exact fun m h => ih _ (wf_bufWrite _ _ h)
  exact this _ _ hm

end Sys2Proof.Machine
end

