-- ==== Sys2Proof/Laws/State.lean ====
section
/-! SUPPORT. One lemma per field per update of the state: what each operation leaves in each field. -/

namespace Sys2Proof.Machine

variable (s : State)

/-! `logEvent` -/
@[simp] theorem logEvent_par (e : Event) : (logEvent e s).par = s.par := rfl
@[simp] theorem logEvent_cmd (e : Event) : (logEvent e s).cmd = s.cmd := rfl
@[simp] theorem logEvent_status (e : Event) : (logEvent e s).status = s.status := rfl
@[simp] theorem logEvent_result (e : Event) : (logEvent e s).result = s.result := rfl
@[simp] theorem logEvent_fault (e : Event) : (logEvent e s).fault = s.fault := rfl
@[simp] theorem logEvent_fcmd (e : Event) : (logEvent e s).fcmd = s.fcmd := rfl
@[simp] theorem logEvent_pend (e : Event) : (logEvent e s).pend = s.pend := rfl
@[simp] theorem logEvent_t (e : Event) : (logEvent e s).t = s.t := rfl
@[simp] theorem logEvent_now (e : Event) : (logEvent e s).now = s.now := rfl
@[simp] theorem logEvent_busCfg (e : Event) : (logEvent e s).busCfg = s.busCfg := rfl
@[simp] theorem logEvent_mode (e : Event) : (logEvent e s).mode = s.mode := rfl
@[simp] theorem logEvent_profile (e : Event) : (logEvent e s).profile = s.profile := rfl
@[simp] theorem logEvent_version (e : Event) : (logEvent e s).version = s.version := rfl
@[simp] theorem logEvent_pins (e : Event) : (logEvent e s).pins = s.pins := rfl
@[simp] theorem logEvent_buf (e : Event) : (logEvent e s).buf = s.buf := rfl
@[simp] theorem logEvent_curCmd (e : Event) : (logEvent e s).curCmd = s.curCmd := rfl
@[simp] theorem logEvent_hist (e : Event) : (logEvent e s).hist = e :: s.hist := rfl
@[simp] theorem logEvent_agenda (e : Event) : (logEvent e s).agenda = s.agenda := rfl
@[simp] theorem logEvent_rx (e : Event) : (logEvent e s).rx = s.rx := rfl
@[simp] theorem logEvent_inputs (e : Event) : (logEvent e s).inputs = s.inputs := rfl
@[simp] theorem logEvent_misoIn (e : Event) : (logEvent e s).misoIn = s.misoIn := rfl
@[simp] theorem logEvent_urxIn (e : Event) : (logEvent e s).urxIn = s.urxIn := rfl
@[simp] theorem logEvent_draws (e : Event) : (logEvent e s).draws = s.draws := rfl
@[simp] theorem logEvent_readout (e : Event) : (logEvent e s).readout = s.readout := rfl

/-! `drive` -/
@[simp] theorem drive_par (p : OutPin) (l : Bool) : (drive p l s).par = s.par := rfl
@[simp] theorem drive_cmd (p : OutPin) (l : Bool) : (drive p l s).cmd = s.cmd := rfl
@[simp] theorem drive_status (p : OutPin) (l : Bool) : (drive p l s).status = s.status := rfl
@[simp] theorem drive_result (p : OutPin) (l : Bool) : (drive p l s).result = s.result := rfl
@[simp] theorem drive_fault (p : OutPin) (l : Bool) : (drive p l s).fault = s.fault := rfl
@[simp] theorem drive_fcmd (p : OutPin) (l : Bool) : (drive p l s).fcmd = s.fcmd := rfl
@[simp] theorem drive_pend (p : OutPin) (l : Bool) : (drive p l s).pend = s.pend := rfl
@[simp] theorem drive_t (p : OutPin) (l : Bool) : (drive p l s).t = s.t := rfl
@[simp] theorem drive_now (p : OutPin) (l : Bool) : (drive p l s).now = s.now := rfl
@[simp] theorem drive_busCfg (p : OutPin) (l : Bool) : (drive p l s).busCfg = s.busCfg := rfl
@[simp] theorem drive_mode (p : OutPin) (l : Bool) : (drive p l s).mode = s.mode := rfl
@[simp] theorem drive_profile (p : OutPin) (l : Bool) : (drive p l s).profile = s.profile := rfl
@[simp] theorem drive_version (p : OutPin) (l : Bool) : (drive p l s).version = s.version := rfl
@[simp] theorem drive_pins (p : OutPin) (l : Bool) : (drive p l s).pins = s.pins.set p (levelOf l) := rfl
@[simp] theorem drive_buf (p : OutPin) (l : Bool) : (drive p l s).buf = s.buf := rfl
@[simp] theorem drive_curCmd (p : OutPin) (l : Bool) : (drive p l s).curCmd = s.curCmd := rfl
@[simp] theorem drive_hist (p : OutPin) (l : Bool) : (drive p l s).hist = .drive s.now p l :: s.hist := rfl
@[simp] theorem drive_agenda (p : OutPin) (l : Bool) : (drive p l s).agenda = s.agenda := rfl
@[simp] theorem drive_rx (p : OutPin) (l : Bool) : (drive p l s).rx = s.rx := rfl
@[simp] theorem drive_inputs (p : OutPin) (l : Bool) : (drive p l s).inputs = s.inputs := rfl
@[simp] theorem drive_misoIn (p : OutPin) (l : Bool) : (drive p l s).misoIn = s.misoIn := rfl
@[simp] theorem drive_urxIn (p : OutPin) (l : Bool) : (drive p l s).urxIn = s.urxIn := rfl
@[simp] theorem drive_draws (p : OutPin) (l : Bool) : (drive p l s).draws = s.draws := rfl
@[simp] theorem drive_readout (p : OutPin) (l : Bool) : (drive p l s).readout = s.readout := rfl

/-! `storeByte` -/
@[simp] theorem storeByte_par (a b : Byte) : (storeByte a b s).par = s.par := rfl
@[simp] theorem storeByte_cmd (a b : Byte) : (storeByte a b s).cmd = s.cmd := rfl
@[simp] theorem storeByte_status (a b : Byte) : (storeByte a b s).status = s.status := rfl
@[simp] theorem storeByte_result (a b : Byte) : (storeByte a b s).result = s.result := rfl
@[simp] theorem storeByte_fault (a b : Byte) : (storeByte a b s).fault = s.fault := rfl
@[simp] theorem storeByte_fcmd (a b : Byte) : (storeByte a b s).fcmd = s.fcmd := rfl
@[simp] theorem storeByte_pend (a b : Byte) : (storeByte a b s).pend = s.pend := rfl
@[simp] theorem storeByte_t (a b : Byte) : (storeByte a b s).t = s.t := rfl
@[simp] theorem storeByte_now (a b : Byte) : (storeByte a b s).now = s.now := rfl
@[simp] theorem storeByte_busCfg (a b : Byte) : (storeByte a b s).busCfg = s.busCfg := rfl
@[simp] theorem storeByte_mode (a b : Byte) : (storeByte a b s).mode = s.mode := rfl
@[simp] theorem storeByte_profile (a b : Byte) : (storeByte a b s).profile = s.profile := rfl
@[simp] theorem storeByte_version (a b : Byte) : (storeByte a b s).version = s.version := rfl
@[simp] theorem storeByte_pins (a b : Byte) : (storeByte a b s).pins = s.pins := rfl
@[simp] theorem storeByte_buf (a b : Byte) : (storeByte a b s).buf = bufWrite s.buf a b := rfl
@[simp] theorem storeByte_curCmd (a b : Byte) : (storeByte a b s).curCmd = s.curCmd := rfl
@[simp] theorem storeByte_hist (a b : Byte) : (storeByte a b s).hist = s.hist := rfl
@[simp] theorem storeByte_agenda (a b : Byte) : (storeByte a b s).agenda = s.agenda := rfl
@[simp] theorem storeByte_rx (a b : Byte) : (storeByte a b s).rx = s.rx := rfl
@[simp] theorem storeByte_inputs (a b : Byte) : (storeByte a b s).inputs = s.inputs := rfl
@[simp] theorem storeByte_misoIn (a b : Byte) : (storeByte a b s).misoIn = s.misoIn := rfl
@[simp] theorem storeByte_urxIn (a b : Byte) : (storeByte a b s).urxIn = s.urxIn := rfl
@[simp] theorem storeByte_draws (a b : Byte) : (storeByte a b s).draws = s.draws := rfl
@[simp] theorem storeByte_readout (a b : Byte) : (storeByte a b s).readout = s.readout := rfl

/-! `tick` -/
@[simp] theorem tick_par : (tick s).par = s.par := rfl
@[simp] theorem tick_cmd : (tick s).cmd = s.cmd := rfl
@[simp] theorem tick_status : (tick s).status = s.status := rfl
@[simp] theorem tick_result : (tick s).result = s.result := rfl
@[simp] theorem tick_fault : (tick s).fault = s.fault := rfl
@[simp] theorem tick_fcmd : (tick s).fcmd = s.fcmd := rfl
@[simp] theorem tick_pend : (tick s).pend = s.pend := rfl
@[simp] theorem tick_t : (tick s).t = s.t + 1 := rfl
@[simp] theorem tick_now : (tick s).now = s.now + 1 := rfl
@[simp] theorem tick_busCfg : (tick s).busCfg = s.busCfg := rfl
@[simp] theorem tick_mode : (tick s).mode = s.mode := rfl
@[simp] theorem tick_profile : (tick s).profile = s.profile := rfl
@[simp] theorem tick_version : (tick s).version = s.version := rfl
@[simp] theorem tick_pins : (tick s).pins = s.pins := rfl
@[simp] theorem tick_buf : (tick s).buf = s.buf := rfl
@[simp] theorem tick_curCmd : (tick s).curCmd = s.curCmd := rfl
@[simp] theorem tick_hist : (tick s).hist = s.hist := rfl
@[simp] theorem tick_agenda : (tick s).agenda = release s.agenda := rfl
@[simp] theorem tick_rx : (tick s).rx = s.rx := rfl
@[simp] theorem tick_inputs : (tick s).inputs = s.inputs := rfl
@[simp] theorem tick_misoIn : (tick s).misoIn = s.misoIn := rfl
@[simp] theorem tick_urxIn : (tick s).urxIn = s.urxIn := rfl
@[simp] theorem tick_draws : (tick s).draws = s.draws := rfl
@[simp] theorem tick_readout : (tick s).readout = s.readout := rfl

/-! `accept` -/
@[simp] theorem accept_par (w : Word) : (accept w s).par = s.par := rfl
@[simp] theorem accept_cmd (w : Word) : (accept w s).cmd = w := rfl
@[simp] theorem accept_status (w : Word) : (accept w s).status = { s.status with busy := true } := rfl
@[simp] theorem accept_result (w : Word) : (accept w s).result = s.result := rfl
@[simp] theorem accept_fault (w : Word) : (accept w s).fault = s.fault := rfl
@[simp] theorem accept_fcmd (w : Word) : (accept w s).fcmd = s.fcmd := rfl
@[simp] theorem accept_pend (w : Word) : (accept w s).pend = s.pend := rfl
@[simp] theorem accept_t (w : Word) : (accept w s).t = s.t := rfl
@[simp] theorem accept_now (w : Word) : (accept w s).now = s.now := rfl
@[simp] theorem accept_busCfg (w : Word) : (accept w s).busCfg = s.busCfg := rfl
@[simp] theorem accept_mode (w : Word) : (accept w s).mode = s.mode := rfl
@[simp] theorem accept_profile (w : Word) : (accept w s).profile = s.profile := rfl
@[simp] theorem accept_version (w : Word) : (accept w s).version = s.version := rfl
@[simp] theorem accept_pins (w : Word) : (accept w s).pins = s.pins := rfl
@[simp] theorem accept_buf (w : Word) : (accept w s).buf = s.buf := rfl
@[simp] theorem accept_curCmd (w : Word) : (accept w s).curCmd = some w := rfl
@[simp] theorem accept_hist (w : Word) : (accept w s).hist = .accept s.now w :: s.hist := rfl
@[simp] theorem accept_agenda (w : Word) : (accept w s).agenda = s.agenda := rfl
@[simp] theorem accept_rx (w : Word) : (accept w s).rx = s.rx := rfl
@[simp] theorem accept_inputs (w : Word) : (accept w s).inputs = s.inputs := rfl
@[simp] theorem accept_misoIn (w : Word) : (accept w s).misoIn = s.misoIn := rfl
@[simp] theorem accept_urxIn (w : Word) : (accept w s).urxIn = s.urxIn := rfl
@[simp] theorem accept_draws (w : Word) : (accept w s).draws = s.draws := rfl
@[simp] theorem accept_readout (w : Word) : (accept w s).readout = s.readout := rfl

/-! `push` -/
@[simp] theorem push_par (acts : List Act) : (push acts s).par = s.par := rfl
@[simp] theorem push_cmd (acts : List Act) : (push acts s).cmd = s.cmd := rfl
@[simp] theorem push_status (acts : List Act) : (push acts s).status = s.status := rfl
@[simp] theorem push_result (acts : List Act) : (push acts s).result = s.result := rfl
@[simp] theorem push_fault (acts : List Act) : (push acts s).fault = s.fault := rfl
@[simp] theorem push_fcmd (acts : List Act) : (push acts s).fcmd = s.fcmd := rfl
@[simp] theorem push_pend (acts : List Act) : (push acts s).pend = s.pend := rfl
@[simp] theorem push_t (acts : List Act) : (push acts s).t = s.t := rfl
@[simp] theorem push_now (acts : List Act) : (push acts s).now = s.now := rfl
@[simp] theorem push_busCfg (acts : List Act) : (push acts s).busCfg = s.busCfg := rfl
@[simp] theorem push_mode (acts : List Act) : (push acts s).mode = s.mode := rfl
@[simp] theorem push_profile (acts : List Act) : (push acts s).profile = s.profile := rfl
@[simp] theorem push_version (acts : List Act) : (push acts s).version = s.version := rfl
@[simp] theorem push_pins (acts : List Act) : (push acts s).pins = s.pins := rfl
@[simp] theorem push_buf (acts : List Act) : (push acts s).buf = s.buf := rfl
@[simp] theorem push_curCmd (acts : List Act) : (push acts s).curCmd = s.curCmd := rfl
@[simp] theorem push_hist (acts : List Act) : (push acts s).hist = s.hist := rfl
@[simp] theorem push_agenda (acts : List Act) : (push acts s).agenda = acts ++ s.agenda := rfl
@[simp] theorem push_rx (acts : List Act) : (push acts s).rx = s.rx := rfl
@[simp] theorem push_inputs (acts : List Act) : (push acts s).inputs = s.inputs := rfl
@[simp] theorem push_misoIn (acts : List Act) : (push acts s).misoIn = s.misoIn := rfl
@[simp] theorem push_urxIn (acts : List Act) : (push acts s).urxIn = s.urxIn := rfl
@[simp] theorem push_draws (acts : List Act) : (push acts s).draws = s.draws := rfl
@[simp] theorem push_readout (acts : List Act) : (push acts s).readout = s.readout := rfl

/-! `launch` -/
@[simp] theorem launch_par (acts : List Act) : (launch acts s).par = s.par := rfl
@[simp] theorem launch_cmd (acts : List Act) : (launch acts s).cmd = s.cmd := rfl
@[simp] theorem launch_status (acts : List Act) : (launch acts s).status = s.status := rfl
@[simp] theorem launch_result (acts : List Act) : (launch acts s).result = s.result := rfl
@[simp] theorem launch_fault (acts : List Act) : (launch acts s).fault = s.fault := rfl
@[simp] theorem launch_fcmd (acts : List Act) : (launch acts s).fcmd = s.fcmd := rfl
@[simp] theorem launch_pend (acts : List Act) : (launch acts s).pend = s.pend := rfl
@[simp] theorem launch_t (acts : List Act) : (launch acts s).t = s.t := rfl
@[simp] theorem launch_now (acts : List Act) : (launch acts s).now = s.now := rfl
@[simp] theorem launch_busCfg (acts : List Act) : (launch acts s).busCfg = s.busCfg := rfl
@[simp] theorem launch_mode (acts : List Act) : (launch acts s).mode = s.mode := rfl
@[simp] theorem launch_profile (acts : List Act) : (launch acts s).profile = s.profile := rfl
@[simp] theorem launch_version (acts : List Act) : (launch acts s).version = s.version := rfl
@[simp] theorem launch_pins (acts : List Act) : (launch acts s).pins = s.pins := rfl
@[simp] theorem launch_buf (acts : List Act) : (launch acts s).buf = s.buf := rfl
@[simp] theorem launch_curCmd (acts : List Act) : (launch acts s).curCmd = s.curCmd := rfl
@[simp] theorem launch_hist (acts : List Act) : (launch acts s).hist = s.hist := rfl
@[simp] theorem launch_agenda (acts : List Act) : (launch acts s).agenda = acts := rfl
@[simp] theorem launch_rx (acts : List Act) : (launch acts s).rx = s.rx := rfl
@[simp] theorem launch_inputs (acts : List Act) : (launch acts s).inputs = s.inputs := rfl
@[simp] theorem launch_misoIn (acts : List Act) : (launch acts s).misoIn = s.misoIn := rfl
@[simp] theorem launch_urxIn (acts : List Act) : (launch acts s).urxIn = s.urxIn := rfl
@[simp] theorem launch_draws (acts : List Act) : (launch acts s).draws = s.draws := rfl
@[simp] theorem launch_readout (acts : List Act) : (launch acts s).readout = s.readout := rfl

/-! `answer` -/
@[simp] theorem answer_par (v : Word) : (answer v s).par = s.par := rfl
@[simp] theorem answer_cmd (v : Word) : (answer v s).cmd = s.cmd := rfl
@[simp] theorem answer_status (v : Word) : (answer v s).status = s.status := rfl
@[simp] theorem answer_result (v : Word) : (answer v s).result = s.result := rfl
@[simp] theorem answer_fault (v : Word) : (answer v s).fault = s.fault := rfl
@[simp] theorem answer_fcmd (v : Word) : (answer v s).fcmd = s.fcmd := rfl
@[simp] theorem answer_pend (v : Word) : (answer v s).pend = s.pend := rfl
@[simp] theorem answer_t (v : Word) : (answer v s).t = s.t := rfl
@[simp] theorem answer_now (v : Word) : (answer v s).now = s.now := rfl
@[simp] theorem answer_busCfg (v : Word) : (answer v s).busCfg = s.busCfg := rfl
@[simp] theorem answer_mode (v : Word) : (answer v s).mode = s.mode := rfl
@[simp] theorem answer_profile (v : Word) : (answer v s).profile = s.profile := rfl
@[simp] theorem answer_version (v : Word) : (answer v s).version = s.version := rfl
@[simp] theorem answer_pins (v : Word) : (answer v s).pins = s.pins := rfl
@[simp] theorem answer_buf (v : Word) : (answer v s).buf = s.buf := rfl
@[simp] theorem answer_curCmd (v : Word) : (answer v s).curCmd = s.curCmd := rfl
@[simp] theorem answer_hist (v : Word) : (answer v s).hist = s.hist := rfl
@[simp] theorem answer_agenda (v : Word) : (answer v s).agenda = s.agenda := rfl
@[simp] theorem answer_rx (v : Word) : (answer v s).rx = s.rx := rfl
@[simp] theorem answer_inputs (v : Word) : (answer v s).inputs = s.inputs := rfl
@[simp] theorem answer_misoIn (v : Word) : (answer v s).misoIn = s.misoIn := rfl
@[simp] theorem answer_urxIn (v : Word) : (answer v s).urxIn = s.urxIn := rfl
@[simp] theorem answer_draws (v : Word) : (answer v s).draws = s.draws := rfl
@[simp] theorem answer_readout (v : Word) : (answer v s).readout = some v := rfl

/-! `resetEvent` -/
@[simp] theorem resetEvent_par : (resetEvent s).par = s.par := rfl
@[simp] theorem resetEvent_cmd : (resetEvent s).cmd = 0 := rfl
@[simp] theorem resetEvent_status : (resetEvent s).status = { code := 0, busy := false, faulted := false } := rfl
@[simp] theorem resetEvent_result : (resetEvent s).result = 0 := rfl
@[simp] theorem resetEvent_fault : (resetEvent s).fault = 0 := rfl
@[simp] theorem resetEvent_fcmd : (resetEvent s).fcmd = 0 := rfl
@[simp] theorem resetEvent_pend : (resetEvent s).pend = none := rfl
@[simp] theorem resetEvent_t : (resetEvent s).t = Config.resetTick s.draws := rfl
@[simp] theorem resetEvent_now : (resetEvent s).now = 0 := rfl
@[simp] theorem resetEvent_busCfg : (resetEvent s).busCfg = { configured := false, cpol := false, cpha := false, cspol := false } := rfl
@[simp] theorem resetEvent_mode : (resetEvent s).mode = .undefined := rfl
@[simp] theorem resetEvent_profile : (resetEvent s).profile = none := rfl
@[simp] theorem resetEvent_version : (resetEvent s).version = none := rfl
@[simp] theorem resetEvent_pins : (resetEvent s).pins = { sclk := .z, mosi := .z, cs := .z, utx := .high } := rfl
@[simp] theorem resetEvent_buf : (resetEvent s).buf = [] := rfl
@[simp] theorem resetEvent_curCmd : (resetEvent s).curCmd = none := rfl
@[simp] theorem resetEvent_hist : (resetEvent s).hist = [] := rfl
@[simp] theorem resetEvent_agenda : (resetEvent s).agenda = [] := rfl
@[simp] theorem resetEvent_rx : (resetEvent s).rx = 0 := rfl
@[simp] theorem resetEvent_inputs : (resetEvent s).inputs = s.inputs := rfl
@[simp] theorem resetEvent_misoIn : (resetEvent s).misoIn = s.misoIn := rfl
@[simp] theorem resetEvent_urxIn : (resetEvent s).urxIn = s.urxIn := rfl
@[simp] theorem resetEvent_draws : (resetEvent s).draws = s.draws + 1 := rfl
@[simp] theorem resetEvent_readout : (resetEvent s).readout = s.readout := rfl

/-! Pins -/
@[simp] theorem pins_set_sclk (ps : Pins) (l : Level) : ps.set .sclk l = { ps with sclk := l } := rfl
@[simp] theorem pins_set_mosi (ps : Pins) (l : Level) : ps.set .mosi l = { ps with mosi := l } := rfl
@[simp] theorem pins_set_cs (ps : Pins) (l : Level) : ps.set .cs l = { ps with cs := l } := rfl
@[simp] theorem pins_set_utx (ps : Pins) (l : Level) : ps.set .utx l = { ps with utx := l } := rfl

@[simp] theorem levelOf_ne_z (l : Bool) : levelOf l ≠ .z := by cases l <;> decide
@[simp] theorem levelOf_inj (l l' : Bool) : levelOf l = levelOf l' ↔ l = l' := by cases l <;> cases l' <;> decide

/-- BUF after reset has the canonical form. -/
theorem reset_buf_wf : State.reset.buf.wf = true := rfl

end Sys2Proof.Machine
end

