-- ==== Sys2Proof/Laws/Ops.lean ====
section
/-! SUPPORT. What each shared operation can do, said once. -/

namespace Sys2Proof.Machine

/-! ### Samples -/

/-- A MISO sample: the event, one answer taken, and a draw only where the environment had decided none. -/
theorem sample_miso (s : State) : (sample .miso s).2 = { s with
    hist := .sample s.now .miso (sample .miso s).1 :: s.hist
    misoIn := s.misoIn.drop 1
    draws := s.draws + (1 - s.misoIn.length) } := by
  obtain ⟨⟩ := s
  rename_i misoIn urxIn draws readout
  cases misoIn <;> simp [sample, pinAnswer, logEvent]

/-- A URX sample is `afterSample` of its answer. -/
theorem sample_urx (s : State) : (sample .urx s).2 = afterSample (sample .urx s).1 s := by
  obtain ⟨⟩ := s
  rename_i misoIn urxIn draws readout
  cases urxIn <;> simp [sample, pinAnswer, logEvent, afterSample]

/-- A MISO sample answers what the environment has decided. -/
theorem sample_miso_decided {s : State} {b : Bool} {rest : List Bool} (h : s.misoIn = b :: rest) :
    (sample .miso s).1 = b := by
  simp [sample, pinAnswer, h]

/-- A URX sample answers what the environment has decided. -/
theorem sample_urx_decided {s : State} {b : Bool} {rest : List Bool} (h : s.urxIn = b :: rest) :
    (sample .urx s).1 = b := by
  simp [sample, pinAnswer, h]

/-! ### Completion and faults -/

/-- `finish` without a latched host fault. -/
theorem finish_quiet (code : Code) (result : Word) {s : State} (h : s.pend = none) :
    finish code result s = completedWith code result s := by
  simp [finish, h, completedWith, logEvent]

/-- `finish` with a latched host fault. -/
theorem finish_pending (code : Code) (result : Word) {s : State} {p : Pend} (h : s.pend = some p) :
    finish code result s = { s with
      result := result, pend := none, fault := zext32 p.cause.value, fcmd := p.word,
      status := { code := 0xFF, busy := false, faulted := true }, agenda := [],
      hist := .complete s.now 0xFF :: s.hist } := by
  simp [finish, h, logEvent, Code.value]

/-- `raise` on a faulted core does nothing. -/
theorem raise_faulted (cause : Cause) {s : State} (h : s.status.faulted = true) : raise cause s = s := by
  simp [raise, h]

/-- `raise` from a running command. -/
theorem raise_running (cause : Cause) {s : State} (h : Running s) : raise cause s = faultedWith cause s := by
  simp [raise, h.1, h.2, faultedWith, faultEvents, Code.value]

/-- `raise` on an idle core. -/
theorem raise_idle (cause : Cause) {s : State} (h : Idle s) : raise cause s = { s with
    fault := zext32 cause.value, fcmd := 0, result := 0,
    status := { code := 0xFF, busy := false, faulted := true }, pend := none, agenda := [] } := by
  simp [raise, h.1, h.2, faultEvents, Code.value]

/-- `accept` records the word and sets BUSY. -/
theorem accept_eq (w : Word) (s : State) : accept w s = acceptedWord w s := rfl

/-- What a checked command does: raise one of its faults, or run its body when every check passes. -/
theorem checked_cases (checks : List (Option Cause)) (body : State → State) (s : State) :
    (∃ c, firstFault checks = some c ∧ checked checks body s = raise c s) ∨
    (firstFault checks = none ∧ checked checks body s = body s) := by
  unfold checked
  cases h : firstFault checks with
  | some c => exact .inl ⟨c, rfl, rfl⟩
  | none => exact .inr ⟨rfl, rfl⟩

@[simp] theorem firstFault_nil : firstFault [] = none := rfl
@[simp] theorem firstFault_some (c : Cause) (l : List (Option Cause)) : firstFault (some c :: l) = some c := rfl
@[simp] theorem firstFault_none (l : List (Option Cause)) : firstFault (none :: l) = firstFault l := rfl
@[simp] theorem require_true (c : Cause) : require true c = none := rfl
@[simp] theorem require_false (c : Cause) : require false c = some c := rfl

/-- Every check passes when none fails. -/
theorem firstFault_eq_none (checks : List (Option Cause)) : firstFault checks = none ↔ ∀ c ∈ checks, c = none := by
  induction checks with
  | nil => simp
  | cons c rest ih => cases c <;> simp [ih]

/-- A fault comes from one of the checks. -/
theorem firstFault_mem {checks : List (Option Cause)} {c : Cause} (h : firstFault checks = some c) :
    some c ∈ checks := by
  induction checks with
  | nil => simp at h
  | cons d rest ih => cases d <;> simp_all

/-! ### Steps -/

/-- Everything a step can do: the sequencer performs an action, an input event happens, or a command word is accepted
and either runs or faults in decode. -/
theorem step_cases {s t : State} (h : step s = .next t) :
    (∃ a s', nextMove s = .act a s' ∧ t = perform a s') ∨
    (∃ i s', nextMove s = .event i s' ∧ t = applyInput i s') ∨
    (∃ w s' i, nextMove s = .command w s' ∧ decode w = .ok i ∧ exec i (accept w s') = .next t) ∨
    (∃ w s' e, nextMove s = .command w s' ∧ decode w = .error e ∧ t = raise (decodeFault e) (accept w s')) := by
  unfold step at h
  cases hm : nextMove s with
  | act a s' => rw [hm] at h; exact .inl ⟨a, s', rfl, (Host.Outcome.next.inj h).symm⟩
  | event i s' => rw [hm] at h; exact .inr (.inl ⟨i, s', rfl, (Host.Outcome.next.inj h).symm⟩)
  | command w s' =>
    rw [hm] at h
    simp only at h
    cases hd : decode w with
    | ok i => rw [hd] at h; exact .inr (.inr (.inl ⟨w, s', i, rfl, hd, h⟩))
    | error e => rw [hd] at h; exact .inr (.inr (.inr ⟨w, s', e, rfl, hd, (Host.Outcome.next.inj h).symm⟩))

/-- Where the next move comes from: a reset, the sequencer, or another input on the host's turn. -/
theorem nextMove_cases (s : State) :
    (∃ rest, s.inputs = .reset :: rest ∧ nextMove s = .event .reset { s with inputs := rest }) ∨
    (NoReset s ∧ ∃ a rest, s.agenda = a :: rest ∧ a ≠ .awaitTick ∧ nextMove s = .act a { s with agenda := rest }) ∨
    (NoReset s ∧ HostTurn s ∧ nextMove s = inputMove s) := by
  unfold nextMove
  split
  · rename_i rest h
    exact .inl ⟨rest, h, rfl⟩
  · rename_i h
    have hr : NoReset s := fun rest e => h rest e
    unfold sequencerMove
    split
    · rename_i ha
      exact .inr (.inr ⟨hr, .inl ha, rfl⟩)
    · rename_i rest ha
      exact .inr (.inr ⟨hr, .inr ⟨rest, ha⟩, rfl⟩)
    · rename_i a rest hne ha
      exact .inr (.inl ⟨hr, a, rest, ha, hne, rfl⟩)

/-- The next move on the host's turn. -/
theorem nextMove_hostTurn {s : State} (hr : NoReset s) (ht : HostTurn s) : nextMove s = inputMove s := by
  rcases nextMove_cases s with ⟨rest, h, -⟩ | ⟨-, a, rest, ha, hne, -⟩ | ⟨-, -, h⟩
  · exact absurd h (hr rest)
  · rcases ht with h | ⟨r, h⟩
    · rw [h] at ha; cases ha
    · rw [h] at ha; cases ha; exact absurd rfl hne
  · exact h

/-! ### Runs -/

theorem reaches_refl (s : State) : Reaches s s := ⟨0, rfl⟩

/-- One step, then a run. -/
theorem reaches_step {s t u : State} (h : step s = .next t) (hr : Reaches t u) : Reaches s u := by
  obtain ⟨k, hk⟩ := hr
  refine ⟨k + 1, ?_⟩
  simp only [Host.Core.run, Sys2Proof.core, h]
  exact hk

/-- Runs compose. -/
theorem reaches_trans {s t u : State} (h : Reaches s t) (hr : Reaches t u) : Reaches s u := by
  obtain ⟨k, hk⟩ := h
  induction k generalizing s with
  | zero =>
    have : s = t := Host.Outcome.next.inj hk
    exact this ▸ hr
  | succ k ih =>
    simp only [Host.Core.run, Sys2Proof.core] at hk
    cases hs : step s with
    | next s' =>
      rw [hs] at hk
      exact reaches_step hs (ih hk)
    | fault r => rw [hs] at hk; cases hk
    | refused r => rw [hs] at hk; cases hk

/-- With no input waiting, a step performs the first action of the agenda. -/
theorem step_act {s : State} {a : Act} {rest : List Act} (hi : s.inputs = []) (ha : s.agenda = a :: rest)
    (hne : a ≠ .awaitTick) : step s = .next (perform a { s with agenda := rest }) := by
  have : nextMove s = .act a { s with agenda := rest } := by
    rcases nextMove_cases s with ⟨r, h, -⟩ | ⟨-, b, r, hb, -, h⟩ | ⟨-, ht, -⟩
    · rw [hi] at h; cases h
    · rw [ha] at hb; cases hb; exact h
    · rcases ht with h | ⟨r, h⟩
      · rw [h] at ha; cases ha
      · rw [h] at ha; cases ha; exact absurd rfl hne
  simp [step, this]

/-- With no input waiting, a step of a core that waits or is idle is a tick. -/
theorem step_tick {s : State} (hi : s.inputs = []) (ht : HostTurn s) : step s = .next (tick s) := by
  have : nextMove s = .event .tick s := by
    rw [nextMove_hostTurn (by intro r h; rw [hi] at h; cases h) ht]
    simp [inputMove, hi]
  simp [step, this, applyInput]

/-- With no input waiting, a run goes on by performing the first action. -/
theorem reaches_act {s u : State} {a : Act} {rest : List Act} (hi : s.inputs = []) (ha : s.agenda = a :: rest)
    (hne : a ≠ .awaitTick) (h : Reaches (perform a { s with agenda := rest }) u) : Reaches s u :=
  reaches_step (step_act hi ha hne) h

/-- With no input waiting, a run goes on by a tick. -/
theorem reaches_tick {s u : State} (hi : s.inputs = []) (ht : HostTurn s) (h : Reaches (tick s) u) :
    Reaches s u :=
  reaches_step (step_tick hi ht) h

end Sys2Proof.Machine
end

