-- ==== Sys2Proof/Laws/PerInstr.lean ====
section
/-! SUPPORT. The per-command law of the encoding: the opcode field of the encoded word is the command's opcode
(30_encoding.md R70, R73), for every command and every operand. -/

namespace Sys2Proof.Laws

/-- OP of a word put together from four bytes. -/
theorem fieldOp_wordOf (op a b c : Byte) : fieldOp (wordOf op a b c) = op := by
  ext i hi
  simp only [fieldOp, wordOf, BitVec.getElem_extractLsb', BitVec.getLsbD_append]
  simp [show ¬ (24 + i < 8) by omega, show ¬ (24 + i - 8 < 8) by omega, show ¬ (24 + i - 8 - 8 < 8) by omega,
    show 24 + i - 8 - 8 - 8 = i by omega]
  exact BitVec.getLsbD_eq_getElem hi

/-- OP of a word with a 16-bit operand. -/
theorem fieldOp_imm16 (op : Byte) (n : BitVec 16) : fieldOp (op ++ 0#8 ++ n) = op := by
  ext i hi
  simp only [fieldOp, BitVec.getElem_extractLsb', BitVec.getLsbD_append]
  simp [show ¬ (24 + i < 16) by omega, show ¬ (24 + i - 16 < 8) by omega, show 24 + i - 16 - 8 = i by omega]
  exact BitVec.getLsbD_eq_getElem hi

/-- OP of a word with a 24-bit operand. -/
theorem fieldOp_imm24 (op : Byte) (n : BitVec 24) : fieldOp (op ++ n) = op := by
  ext i hi
  simp only [fieldOp, BitVec.getElem_extractLsb', BitVec.getLsbD_append]
  simp [show ¬ (24 + i < 24) by omega, show 24 + i - 24 = i by omega]
  exact BitVec.getLsbD_eq_getElem hi

/-- The opcode field of the word is the command's opcode. -/
def OpcodeField.Statement (i : Instr) : Prop := fieldOp (encode i) = opcode i

theorem OpcodeField.tbRead : OpcodeField.Statement .tbRead := fieldOp_wordOf _ _ _ _
theorem OpcodeField.tbWrite (v : Byte) : OpcodeField.Statement (.tbWrite v) := fieldOp_wordOf _ _ _ _
theorem OpcodeField.tbDiff (earlier later : Byte) : OpcodeField.Statement (.tbDiff earlier later) :=
    fieldOp_wordOf _ _ _ _
theorem OpcodeField.tbWait (target : Byte) : OpcodeField.Statement (.tbWait target) := fieldOp_wordOf _ _ _ _
theorem OpcodeField.tbDlyUs (n : BitVec 16) : OpcodeField.Statement (.tbDlyUs n) := fieldOp_imm16 _ _
theorem OpcodeField.tbDlyMs (n : BitVec 16) : OpcodeField.Statement (.tbDlyMs n) := fieldOp_imm16 _ _
theorem OpcodeField.spiInit (cpol cpha cspol : Bool) : OpcodeField.Statement (.spiInit cpol cpha cspol) :=
    fieldOp_wordOf _ _ _ _
theorem OpcodeField.spiSel : OpcodeField.Statement .spiSel := fieldOp_wordOf _ _ _ _
theorem OpcodeField.spiDesel : OpcodeField.Statement .spiDesel := fieldOp_wordOf _ _ _ _
theorem OpcodeField.spiXfer (tx : Byte) : OpcodeField.Statement (.spiXfer tx) := fieldOp_wordOf _ _ _ _
theorem OpcodeField.spiXferB (t r : Bool) (a b count : Byte) : OpcodeField.Statement (.spiXferB t r a b count) :=
    fieldOp_wordOf _ _ _ _
theorem OpcodeField.spiFrame (t r : Bool) (a b count : Byte) : OpcodeField.Statement (.spiFrame t r a b count) :=
    fieldOp_wordOf _ _ _ _
theorem OpcodeField.uartTx (byte : Byte) : OpcodeField.Statement (.uartTx byte) := fieldOp_wordOf _ _ _ _
theorem OpcodeField.uartRx : OpcodeField.Statement .uartRx := fieldOp_wordOf _ _ _ _
theorem OpcodeField.uartWaitB : OpcodeField.Statement .uartWaitB := fieldOp_wordOf _ _ _ _
theorem OpcodeField.uartBrk (budget : BitVec 24) : OpcodeField.Statement (.uartBrk budget) := fieldOp_imm24 _ _
theorem OpcodeField.uartNoBrk : OpcodeField.Statement .uartNoBrk := fieldOp_wordOf _ _ _ _
theorem OpcodeField.rfInit : OpcodeField.Statement .rfInit := fieldOp_wordOf _ _ _ _
theorem OpcodeField.rfMode (mode : Byte) : OpcodeField.Statement (.rfMode mode) := fieldOp_wordOf _ _ _ _
theorem OpcodeField.rfConfig (p : Byte) : OpcodeField.Statement (.rfConfig p) := fieldOp_wordOf _ _ _ _
theorem OpcodeField.rfTx (a len rep : Byte) : OpcodeField.Statement (.rfTx a len rep) := fieldOp_wordOf _ _ _ _
theorem OpcodeField.rfRdy : OpcodeField.Statement .rfRdy := fieldOp_wordOf _ _ _ _
theorem OpcodeField.rfRxF (b maxlen : Byte) : OpcodeField.Statement (.rfRxF b maxlen) := fieldOp_wordOf _ _ _ _
theorem OpcodeField.rfRxC (b maxlen : Byte) : OpcodeField.Statement (.rfRxC b maxlen) := fieldOp_wordOf _ _ _ _
theorem OpcodeField.mcValid (b size : Byte) : OpcodeField.Statement (.mcValid b size) := fieldOp_wordOf _ _ _ _
theorem OpcodeField.mcDecode (b size : Byte) : OpcodeField.Statement (.mcDecode b size) := fieldOp_wordOf _ _ _ _
theorem OpcodeField.mcEncode (a b size : Byte) : OpcodeField.Statement (.mcEncode a b size) := fieldOp_wordOf _ _ _ _

end Sys2Proof.Laws
end

