-- ==== Sys2Proof/Laws/Step.lean ====
section
/-! SUPPORT. What a whole step can do, said once: the fields each operation keeps, the outcomes of a command at its
acceptance, the outcomes of an action, and the moves of a step. -/

namespace Sys2Proof.Machine

/-! ### The fields an operation keeps -/

/-- `u` keeps the parameters, time, the bus configuration, the radio's records, CURCMD and the pins of `s`. -/
structure Kept (u s : State) : Prop where
  par : u.par = s.par
  t : u.t = s.t
  now : u.now = s.now
  busCfg : u.busCfg = s.busCfg
  mode : u.mode = s.mode
  profile : u.profile = s.profile
  version : u.version = s.version
  curCmd : u.curCmd = s.curCmd
  pins : u.pins = s.pins

theorem Kept.refl (s : State) : Kept s s := ⟨rfl, rfl, rfl, rfl, rfl, rfl, rfl, rfl, rfl⟩

/-- Completion keeps everything but RESULT, STATUS, PEND, FAULT, FCMD and HIST, and ends the command (R205). -/
theorem finish_frame (c : Code) (r : Word) (s : State) :
    Kept (finish c r s) s ∧ (finish c r s).buf = s.buf ∧ (finish c r s).agenda = [] := by
  unfold finish
  split <;> exact ⟨⟨rfl, rfl, rfl, rfl, rfl, rfl, rfl, rfl, rfl⟩, rfl, rfl⟩

/-- Fault entry keeps everything but FAULT, FCMD, STATUS, RESULT, PEND and HIST, and ends the command (R204). -/
theorem raise_frame (c : Cause) (s : State) :
    Kept (raise c s) s ∧ (raise c s).buf = s.buf ∧
      ((raise c s).agenda = s.agenda ∨ (raise c s).agenda = []) := by
  unfold raise
  split
  · exact ⟨Kept.refl s, rfl, .inl rfl⟩
  · exact ⟨⟨rfl, rfl, rfl, rfl, rfl, rfl, rfl, rfl, rfl⟩, rfl, .inr rfl⟩

/-- Latching a host fault changes PEND only (R206). -/
theorem latch_frame (c : Cause) (w : Word) (s : State) : latch c w s = { s with pend := (latch c w s).pend } := by
  unfold latch
  split <;> rfl

/-- Host misuse keeps everything but the fault registers, PEND and the running command. -/
theorem hostFault_frame (c : Cause) (s : State) :
    Kept (hostFault c s) s ∧ (hostFault c s).buf = s.buf ∧
      ((hostFault c s).agenda = s.agenda ∨ (hostFault c s).agenda = []) := by
  unfold hostFault
  split
  · exact ⟨Kept.refl s, rfl, .inl rfl⟩
  · split
    · rw [latch_frame]; exact ⟨⟨rfl, rfl, rfl, rfl, rfl, rfl, rfl, rfl, rfl⟩, rfl, .inl rfl⟩
    · exact raise_frame c s

/-- A host access keeps time, BUSCFG, the radio's records, CURCMD and the pins. -/
theorem applyInput_frame (i : Input) (s : State) (h1 : i ≠ .tick) (h2 : i ≠ .reset) :
    Kept (applyInput i s) s ∧ ((applyInput i s).agenda = s.agenda ∨ (applyInput i s).agenda = []) := by
  have hf := hostFault_frame .hostAccess s
  cases i <;> simp only [applyInput, ne_eq, not_true, reduceCtorEq] at *
  case write w o v =>
    unfold hostWrite
    split <;> try exact ⟨hf.1, hf.2.2⟩
    · unfold hostWriteBuf
      split
      · exact ⟨Kept.refl s, .inl rfl⟩
      · split
        · rw [latch_frame]; exact ⟨⟨rfl, rfl, rfl, rfl, rfl, rfl, rfl, rfl, rfl⟩, .inl rfl⟩
        · exact ⟨⟨rfl, rfl, rfl, rfl, rfl, rfl, rfl, rfl, rfl⟩, .inl rfl⟩
    · unfold hostWriteCmdRejected
      split
      · exact ⟨Kept.refl s, .inl rfl⟩
      · rw [latch_frame]; exact ⟨⟨rfl, rfl, rfl, rfl, rfl, rfl, rfl, rfl, rfl⟩, .inl rfl⟩
  case read w o =>
    have answers : ∀ u : State, u = { s with readout := u.readout, draws := u.draws } → Kept u s := by
      intro u h
      rw [h]
      exact ⟨rfl, rfl, rfl, rfl, rfl, rfl, rfl, rfl, rfl⟩
    have trans : ∀ u v : State, Kept v u → u = { s with readout := u.readout, draws := u.draws } → Kept v s := by
      intro u v h hu
      have k := answers u hu
      exact ⟨h.par.trans k.par, h.t.trans k.t, h.now.trans k.now, h.busCfg.trans k.busCfg, h.mode.trans k.mode,
        h.profile.trans k.profile, h.version.trans k.version, h.curCmd.trans k.curCmd, h.pins.trans k.pins⟩
    unfold hostRead
    split <;> try exact ⟨answers _ rfl, .inl rfl⟩
    · unfold hostReadBuf
      split
      · exact ⟨answers _ rfl, .inl rfl⟩
      · split
        · exact ⟨answers _ rfl, .inl rfl⟩
        · have h := raise_frame .bufUnwritten (answerFreeByte o s)
          exact ⟨trans _ _ h.1 rfl, h.2.2⟩
    · have h := hostFault_frame .hostAccess (answerFree o s)
      exact ⟨trans _ _ h.1 rfl, h.2.2⟩
  case waitIdle => exact ⟨Kept.refl s, .inl trivial⟩

/-- Completion touches neither time, BUSCFG, CURCMD nor the parameters. -/
theorem finish_time (c : Code) (r : Word) (s : State) :
    (finish c r s).par = s.par ∧ (finish c r s).t = s.t ∧ (finish c r s).now = s.now ∧
      (finish c r s).busCfg = s.busCfg ∧ (finish c r s).curCmd = s.curCmd :=
  have h := (finish_frame c r s).1
  ⟨h.par, h.t, h.now, h.busCfg, h.curCmd⟩

/-- The end of `uart_receive` touches neither time, BUSCFG, CURCMD nor the parameters. -/
theorem uartReturn_frame (c : RxCaller) (code : Code) (d : Byte) (s : State) :
    (uartReturn c code d s).par = s.par ∧ (uartReturn c code d s).t = s.t ∧ (uartReturn c code d s).now = s.now ∧
      (uartReturn c code d s).busCfg = s.busCfg ∧ (uartReturn c code d s).curCmd = s.curCmd := by
  cases c <;> simp only [uartReturn]
  · exact finish_time _ _ s
  · split
    · exact finish_time _ _ s
    · exact ⟨rfl, rfl, rfl, rfl, rfl⟩

/-- No action of the sequencer touches time, BUSCFG, CURCMD or the parameters. -/
theorem perform_frame (a : Act) (s : State) :
    (perform a s).par = s.par ∧ (perform a s).t = s.t ∧ (perform a s).now = s.now ∧
      (perform a s).busCfg = s.busCfg ∧ (perform a s).curCmd = s.curCmd := by
  have f := finish_time
  have sm := sample_miso s
  have su := sample_urx s
  have rt := uartReturn_frame
  cases a <;> simp only [perform]
  case drive => simp
  case waitUntil => unfold performWaitUntil; split; simp; split <;> simp [push]
  case whileAtOrAbove => unfold performWhileAtOrAbove; split <;> simp [push]
  case whileBelow => unfold performWhileBelow; split <;> simp [push]
  case delayUs => simp [performDelayUs, push]
  case delayLoop => unfold performDelayLoop; split <;> simp [push]
  case delayMs => unfold performDelayMs; split <;> simp [push]
  case sampleRx => unfold performSampleRx; rw [sm]; simp
  case spiBytes t r a b n => cases n <;> simp [performSpiBytes, push]
  case storeRx => simp [storeByte]
  case finish => simp [f]
  case finishRx => simp [f]
  case uartStart => simp [performUartStart, push]
  case uartGlitch => unfold performUartGlitch; rw [su]; split <;> simp [rt, push, afterSample]
  case uartData => unfold performUartData; rw [su]; simp [push, afterSample]
  case uartStop => unfold performUartStop; rw [su]; split <;> (try split) <;> simp [rt, afterSample]
  case spinWhileHigh => unfold performSpinWhileHigh; rw [su]; split <;> simp [push, afterSample]
  case spinWhileLow => unfold performSpinWhileLow; rw [su]; split <;> simp [f, push, afterSample]
  case breakLoop => unfold performBreakLoop; split <;> simp [f, push]
  case breakSample => unfold performBreakSample; rw [su]; split <;> simp [f, push, afterSample]
  case poll => simp [performPoll, push]
  case pollTest => unfold performPollTest; split; simp; split <;> simp [f, push]
  case initCheck => unfold performInitCheck; split <;> simp [f]
  case txLoad a len k => match k with | 0 | 1 | k+2 => simp [performTxLoad, push]
  case txCheck => unfold performTxCheck; split <;> simp [f]
  case readyCheck => unfold performReadyCheck; split <;> simp [f]
  case countedPrefix => unfold performCountedPrefix; split <;> simp [f, push, storeByte]
  all_goals simp

/-! ### An action of the sequencer -/

/-- `u'` keeps the parameters, STATUS, the fault registers,
    PEND and the agenda of `u`; BUF stays canonical and PROFILE
known. -/
structure Alike (u' u : State) : Prop where
  par : u'.par = u.par
  status : u'.status = u.status
  fault : u'.fault = u.fault
  fcmd : u'.fcmd = u.fcmd
  pend : u'.pend = u.pend
  agenda : u'.agenda = u.agenda
  buf : u.buf.wf = true → u'.buf.wf = true
  profile : (∀ p, u.profile = some p → p.toNat < u.par.nprofiles) →
    ∀ p, u'.profile = some p → p.toNat < u'.par.nprofiles

/-- What an action can do: end the command with a code other than FAULT,
    or put actions in front of the agenda; both on a
state alike but for what the action writes. An action that can stand last in an agenda ends the command or leaves
such an action last. -/
theorem perform_cases (a : Act) (u : State) (ha : a ≠ .awaitTick) (hr : a.inRange u.par = true) :
    (∃ c r u', c ≠ .fault ∧ perform a u = finish c r u' ∧ Alike u' u) ∨
   (∃ acts u', perform a u = push acts u' ∧ Alike u' u ∧ (∀ x ∈ acts, x.inRange u.par = true) ∧
       (a.endsCommand = true → acts ≠ [] ∧ endsCommand acts = true)) := by
  have S0 : Alike u u := ⟨rfl, rfl, rfl, rfl, rfl, rfl, fun h => h, fun h => h⟩
  have Su : ∀ b, Alike (afterSample b u) u := fun b => ⟨rfl, rfl, rfl, rfl, rfl, rfl, fun h => h, fun h => h⟩
  have byteR : ∀ tx, ∀ x ∈ spiByte u tx, x.inRange u.par = true := by
    intro tx x hx
    simp only [spiByte, List.mem_cons, List.mem_flatMap, spiBit, List.not_mem_nil, or_false] at hx
    rcases hx with rfl | ⟨i, _, rfl | rfl | rfl | rfl | rfl⟩ <;> rfl
  have su := sample_urx u
  have rt : ∀ c code d b, code ≠ .fault →
     (∃ cc r u', cc ≠ .fault ∧ uartReturn c code d (afterSample b u) = finish cc r u' ∧ Alike u' u) ∨
     (∃ acts u', uartReturn c code d (afterSample b u) = push acts u' ∧ Alike u' u ∧ (∀ x ∈ acts,
         x.inRange u.par = true) ∧ (acts ≠ [] ∧ endsCommand acts = true)) := by
    intro c code d b hc
    cases c with
    | receive => left; exact ⟨code, _, _, hc, rfl, Su b⟩
    | waitByte =>
      simp only [uartReturn]; split
      · left; exact ⟨.decoded, _, _, by decide, rfl, Su b⟩
      · right; exact ⟨[.spinWhileHigh], _, rfl, Su b, by simp [Act.inRange], by decide⟩
  have rtt : ∀ c code d b (hc : code ≠ .fault) (t), t = uartReturn c code d (afterSample b u) →
     (∃ cc r u', cc ≠ .fault ∧ t = finish cc r u' ∧ Alike u' u) ∨
     (∃ acts u', t = push acts u' ∧ Alike u' u ∧ (∀ x ∈ acts, x.inRange u.par = true) ∧
         (a.endsCommand = true → acts ≠ [] ∧ endsCommand acts = true)) := by
    intro c code d b hc t ht
    rcases rt c code d b hc with h | ⟨acts, u', h1, h2, h4, h5⟩
    · rw [ht]; exact .inl h
    · rw [ht]; exact .inr ⟨acts, u', h1, h2, h4, fun _ => h5⟩
  cases a <;> simp only [perform]
  case awaitTick => exact absurd rfl ha
  case drive p l => right; exact ⟨[], drive p l u, rfl, ⟨rfl, rfl, rfl, rfl, rfl, rfl, fun h => h, fun h => h⟩,
      by simp, by simp [Act.endsCommand]⟩
  case waitUntil t =>
    right; unfold performWaitUntil; split
    · exact ⟨[], u, rfl, S0, by simp, by simp [Act.endsCommand]⟩
    · split
      · exact ⟨_, u, rfl, S0, by simp [Act.inRange], by simp [Act.endsCommand]⟩
      · exact ⟨_, u, rfl, S0, by simp [Act.inRange], by simp [Act.endsCommand]⟩
  case whileAtOrAbove =>
    right; unfold performWhileAtOrAbove; split
    · exact ⟨_, u, rfl, S0, by simp [Act.inRange], by simp [Act.endsCommand]⟩
    · exact ⟨_, u, rfl, S0, by simp [Act.inRange], by simp [Act.endsCommand]⟩
  case whileBelow =>
    right; unfold performWhileBelow; split
    · exact ⟨_, u, rfl, S0, by simp [Act.inRange], by simp [Act.endsCommand]⟩
    · exact ⟨[], u, rfl, S0, by simp, by simp [Act.endsCommand]⟩
  case delayUs => right; exact ⟨_, u, rfl, S0, by simp [Act.inRange], by simp [Act.endsCommand]⟩
  case delayLoop =>
    right; unfold performDelayLoop; split
    · exact ⟨[], u, rfl, S0, by simp, by simp [Act.endsCommand]⟩
    · exact ⟨_, u, rfl, S0, by simp [Act.inRange], by simp [Act.endsCommand]⟩
  case delayMs =>
    right; unfold performDelayMs; split
    · exact ⟨[], u, rfl, S0, by simp, by simp [Act.endsCommand]⟩
    · exact ⟨_, u, rfl, S0, by simp [Act.inRange], by simp [Act.endsCommand]⟩
  case clearRx => right; exact ⟨[], { u with rx := 0 }, rfl, ⟨rfl, rfl, rfl, rfl, rfl, rfl, fun h => h, fun h =>
      h⟩, by simp, by simp [Act.endsCommand]⟩
  case sampleRx =>
    right
    refine ⟨[], performSampleRx u, rfl, ?_, by simp, by simp [Act.endsCommand]⟩
    unfold performSampleRx
    rw [sample_miso]
    exact ⟨rfl, rfl, rfl, rfl, rfl, rfl, fun h => h, fun h => h⟩
  case spiBytes t r a b n =>
    right
    cases n with
    | zero => exact ⟨[], u, rfl, S0, by simp, by simp [Act.endsCommand]⟩
    | succ n =>
      refine ⟨_, u, rfl, S0, ?_, by simp [Act.endsCommand]⟩
      intro x hx
      simp only [List.mem_append] at hx
      rcases hx with (hx | hx) | hx
      · exact byteR _ _ hx
      · cases r <;> simp at hx; subst hx; rfl
      · simp at hx; subst hx; rfl
  case storeRx b => right; exact ⟨[], storeByte b u.rx u, rfl, ⟨rfl, rfl, rfl, rfl, rfl, rfl, fun h =>
      wf_bufWrite _ _ h, fun h => h⟩, by simp, by simp [Act.endsCommand]⟩
  case finish c r => left; exact ⟨c, r, u, by simpa [Act.inRange] using hr, rfl, S0⟩
  case finishRx => left; exact ⟨.ok, _, u, by decide, rfl, S0⟩
  case uartStart c => right; exact ⟨_, u, rfl, S0, by simp [Act.inRange], by simp [endsCommand, Act.endsCommand]⟩
  case uartGlitch c t =>
    unfold performUartGlitch; rw [su]; split
    · exact rtt c .noise 0 _ (by decide) _ rfl
    · right; exact ⟨_, _, rfl, Su _, by simp [Act.inRange], by simp [endsCommand, Act.endsCommand]⟩
  case uartData c i d t =>
    unfold performUartData; rw [su]; right
    refine ⟨_, _, rfl, Su _, ?_, ?_⟩
    · split <;> simp [Act.inRange]
    · split <;> simp [endsCommand, Act.endsCommand]
  case uartStop c d =>
    unfold performUartStop; rw [su]; split
    · exact rtt c .decoded d _ (by decide) _ rfl
    · split
      · exact rtt c .framing d _ (by decide) _ rfl
      · exact rtt c .lineBreak 0 _ (by decide) _ rfl
  case spinWhileHigh =>
    unfold performSpinWhileHigh; rw [su]; right; split
    · exact ⟨_, _, rfl, Su _, by simp [Act.inRange], by simp [endsCommand, Act.endsCommand]⟩
    · exact ⟨_, _, rfl, Su _, by simp [Act.inRange], by simp [endsCommand, Act.endsCommand]⟩
  case spinWhileLow =>
    unfold performSpinWhileLow; rw [su]; split
    · left; exact ⟨_, _, _, by decide, rfl, Su _⟩
    · right; exact ⟨_, _, rfl, Su _, by simp [Act.inRange], by simp [endsCommand, Act.endsCommand]⟩
  case breakLoop =>
    unfold performBreakLoop; split
    · right; exact ⟨_, _, rfl, S0, by simp [Act.inRange], by simp [endsCommand, Act.endsCommand]⟩
    · left; exact ⟨_, _, _, by decide, rfl, S0⟩
  case breakSample =>
    unfold performBreakSample; rw [su]; split
    · left; exact ⟨_, _, _, by decide, rfl, Su _⟩
    · right; exact ⟨_, _, rfl, Su _, by simp [Act.inRange], by simp [endsCommand, Act.endsCommand]⟩
  case poll reg bit want k =>
    right; refine ⟨_, _, rfl, S0, ?_, by simp [Act.endsCommand]⟩
    intro x hx
    simp only [regRead, List.mem_append, List.mem_singleton] at hx
    rcases hx with (((rfl | hx) | hx) | rfl) | rfl
    · rfl
    · exact byteR _ _ hx
    · exact byteR _ _ hx
    · rfl
    · rfl
  case pollTest =>
    unfold performPollTest; split
    · right; exact ⟨[], u, rfl, S0, by simp, by simp [Act.endsCommand]⟩
    · split
      · left; exact ⟨_, _, _, by decide, rfl, ⟨rfl, rfl, rfl, rfl, rfl, rfl, fun h => h, fun h => h⟩⟩
      · right; exact ⟨_, u, rfl, S0, by simp [Act.inRange], by simp [Act.endsCommand]⟩
  case setMode m => right; exact ⟨[], { u with mode := .known m }, rfl, ⟨rfl, rfl, rfl, rfl, rfl, rfl, fun h => h,
      fun h => h⟩, by simp, by simp [Act.endsCommand]⟩
  case setProfile p =>
    right; refine ⟨[], { u with profile := some p }, rfl, ⟨rfl, rfl, rfl, rfl, rfl, rfl, fun h => h, ?_⟩, by simp,
        by simp [Act.endsCommand]⟩
    intro _ q hq
    have : q = p := by simpa using hq.symm
    subst this; simpa [Act.inRange] using hr
  case initCheck =>
    left; unfold performInitCheck; split
    · exact ⟨_, _, _, by decide, rfl, S0⟩
    · refine ⟨_, _, _, by decide, rfl, ⟨rfl, rfl, rfl, rfl, rfl, rfl, fun h => h, ?_⟩⟩
      intro _ q hq; simp at hq
  case txLoad a len k =>
    have fifoR : ∀ x ∈ fifoWrite u a len, x.inRange u.par = true := by
      intro x hx
      simp only [fifoWrite, List.mem_append, List.mem_singleton] at hx
      rcases hx with ((rfl | hx) | rfl) | rfl
      · rfl
      · exact byteR _ _ hx
      · rfl
      · rfl
    right
    match k with
    | 0 => exact ⟨[], u, rfl, S0, by simp, by simp [Act.endsCommand]⟩
    | 1 => exact ⟨_, u, rfl, S0, fifoR, by simp [Act.endsCommand]⟩
    | k + 2 =>
      refine ⟨_, u, rfl, S0, ?_, by simp [Act.endsCommand]⟩
      intro x hx
      simp only [List.mem_append, List.mem_cons, List.not_mem_nil, or_false] at hx
      rcases hx with hx | rfl | rfl
      · exact fifoR x hx
      · rfl
      · rfl
  case txCheck =>
    left; unfold performTxCheck; split
    · exact ⟨_, _, _, by decide, rfl, S0⟩
    · exact ⟨_, _, _, by decide, rfl, S0⟩
  case readyCheck =>
    left; unfold performReadyCheck; split
    · exact ⟨_, _, _, by decide, rfl, S0⟩
    · exact ⟨_, _, _, by decide, rfl, S0⟩
  case countedPrefix b m =>
    unfold performCountedPrefix; split
    · left; exact ⟨_, _, _, by decide, rfl, ⟨rfl, rfl, rfl, rfl, rfl, rfl, fun h => wf_bufWrite _ _ h, fun h => h⟩⟩
    · right; exact ⟨_, _, rfl, ⟨rfl, rfl, rfl, rfl, rfl, rfl, fun h => wf_bufWrite _ _ h, fun h => h⟩,
        by simp [Act.inRange, deselectAct], by simp [endsCommand, Act.endsCommand]⟩

/-! ### A command at its acceptance -/

/-- A property of every fault and of the body is a property of a checked command. -/
theorem checked_induction {P : State → Prop} {l : List (Option Cause)} {body : State → State} {s : State}
    (h1 : ∀ c, P (raise c s)) (h2 : P (body s)) : P (checked l body s) := by
  rcases checked_cases l body s with ⟨c, _, h⟩ | ⟨_, h⟩ <;> rw [h]
  · exact h1 c
  · exact h2

/-- What a command can do when it is accepted: fault, end at once with at most a change of BUF, T or the SPI pins,
    or start
a list of actions. -/
theorem exec_induction (i : Instr) (s t : State) (P : State → Prop) (h : exec i s = .next t)
    (hraise : ∀ c, P (raise c s))
    (hfin : ∀ code r, code ≠ .fault → P (finish code r s))
    (hbuf : ∀ code r m, code ≠ .fault → (s.buf.wf = true → Memory.wf m = true) → P (finish code r { s with buf :=
        m }))
    (hw : ∀ v, i = .tbWrite v → P (finish .ok 0 { s with t := v }))
    (hinit : ∀ a b c, s.busCfg.configured = false → P (spiInitBody a b c s))
    (hcs : ∀ l, s.busCfg.configured = true → P (finish .ok 0 (drive .cs l s)))
    (hl : ∀ acts, acts ≠ [] → P (launch acts s)) : P t := by
  have hck : ∀ l body, P (body s) → P (checked l body s) := fun l body h2 => checked_induction hraise h2
  have hre : ∀ (l : List (Option Cause)) body, (firstFault (requireConfigured s :: l) = none → P (body s)) →
      P (checked (requireConfigured s :: l) body s) := by
    intro l body hb
    rcases checked_cases (requireConfigured s :: l) body s with ⟨c, _, h⟩ | ⟨h0, h⟩ <;> rw [h]
    · exact hraise c
    · exact hb h0
  cases i <;> simp only [exec, execTbRead, execTbWrite, execTbDiff, execTbWait, execTbDlyUs,
    execTbDlyMs, execSpiInit, execSpiSel, execSpiDesel, execSpiXfer, execSpiXferB, execSpiFrame, execUartTx,
    execUartRx, execUartWaitB, execUartBrk, execUartNoBrk, execRfInit, execRfMode, execRfConfig,
    execRfTx, execRfRdy, execRfRxF, execRfRxC, execMcValid, execMcDecode, execMcEncode,
    Host.Outcome.next.injEq] at h <;> subst h
  case tbRead => exact hfin _ _ (by decide)
  case tbWrite v => exact hw v rfl
  case tbDiff => exact hfin _ _ (by decide)
  case tbWait => exact hl _ (by simp)
  case tbDlyUs => exact hl _ (by simp)
  case tbDlyMs => exact hl _ (by simp)
  case spiInit a b c =>
    rcases checked_cases [require (!s.busCfg.configured) .spiReinit] (spiInitBody a b c) s with
      ⟨c, _, h⟩ | ⟨h0, h⟩ <;> rw [h]
    · exact hraise c
    · refine hinit a b c ?_
      cases hc : s.busCfg.configured
      · rfl
      · rw [hc] at h0; simp at h0
  case spiSel => apply hre; intro h0; apply hcs; cases hc : s.busCfg.configured <;> simp_all [requireConfigured]
  case spiDesel => apply hre; intro h0; apply hcs; cases hc : s.busCfg.configured <;> simp_all [requireConfigured]
  case spiXfer => apply hck; apply hl; simp
  case spiXferB => apply hck; apply hl; simp
  case spiFrame => apply hck; apply hl; simp
  case uartTx => apply hl; simp [uartTxActs]
  case uartRx => apply hl; simp
  case uartWaitB => apply hl; simp
  case uartBrk => apply hl; simp
  case uartNoBrk => apply hl; simp
  case rfInit => apply hck; apply hl; simp
  case rfMode => split; exact hfin _ _ (by decide); apply hck; apply hl; simp
  case rfConfig p =>
    cases s.par.profiles[p.toNat]? with
    | none => exact hfin _ _ (by decide)
    | some pairs =>
      simp only
      by_cases h : s.profile = some p
      · rw [if_pos h]; exact hfin _ _ (by decide)
      · rw [if_neg h]; apply hck; apply hl; simp
  case rfTx a len rep =>
    by_cases h : len = 0
    · rw [if_pos h]; exact hfin _ _ (by decide)
    · rw [if_neg h]
      by_cases h : s.par.fifoCapacity < len.toNat
      · rw [if_pos h]; exact hfin _ _ (by decide)
      · rw [if_neg h]; apply hck; apply hl; simp [txActs]
  case rfRdy => apply hck; apply hl; simp
  case rfRxF => split; exact hfin _ _ (by decide); apply hck; apply hl; simp
  case rfRxC => apply hck; apply hl; simp
  case mcValid b n =>
    apply hck
    show P (if regionManchester s.buf b n.toNat = true then finish .ok 1 s else finish .invalidManchester 0 s)
    by_cases h : regionManchester s.buf b n.toNat = true
    · rw [if_pos h]; exact hfin _ _ (by decide)
    · rw [if_neg h]; exact hfin _ _ (by decide)
  case mcDecode => apply hck; exact hbuf _ _ _ (by decide) (fun h => wf_decodeInPlace _ _ h)
  case mcEncode => apply hck; exact hbuf _ _ _ (by decide) (fun h => wf_bufWriteAll _ _ h)

/-! ### The moves of a step -/

/-- The port of CMD is reached by 32-bit accesses at its offset only (R55, R56). -/
theorem portOf_cmd {w : Nat} {o : BitVec 9} (h : portOf w o = .cmd) : w = 32 ∧ o = 0x100 := by
  unfold portOf at h
  split at h
  · split at h <;> cases h
  · split at h
    · rename_i hw
      refine ⟨hw, ?_⟩
      split at h <;> simp at h
      rename_i ho
      exact BitVec.eq_of_toNat_eq ho
    · cases h

/-- Where an input move comes from: an event (a CMD write among them only where the core does not accept it),
    a reset, or
an accepted command word. -/
theorem inputMove_cases (s : State) :
    (∃ i rest, inputMove s = .event i { s with inputs := rest } ∧ i ≠ .reset ∧
      ∀ v, i = .write 32 0x100 v → acceptsCommand s = false) ∨
    (∃ rest, s.inputs = .reset :: rest) ∨
    (∃ w rest, s.inputs = .write 32 0x100 w :: rest ∧ Idle s ∧ inputMove s = .command w { s with inputs :=
        rest }) := by
  unfold inputMove
  split
  · exact .inl ⟨.tick, s.inputs, rfl, by simp, by simp⟩
  · left
    split
    · exact ⟨.tick, s.inputs, rfl, by simp, by simp⟩
    · exact ⟨.waitIdle, _, rfl, by simp, by simp⟩
  · rename_i w o v rest hin
    unfold hostWriteMove
    split
    · rename_i h
      obtain ⟨rfl, rfl⟩ := portOf_cmd h.1
      have ha := h.2
      simp only [acceptsCommand, Bool.and_eq_true, Bool.not_eq_true'] at ha
      exact .inr (.inr ⟨v, rest, hin, ⟨ha.2, ha.1⟩, rfl⟩)
    · rename_i h
      refine .inl ⟨_, rest, rfl, by simp, ?_⟩
      intro v' e
      cases e
      cases ha : acceptsCommand s with
      | false => rfl
      | true => exact absurd ⟨rfl, ha⟩ h
  · exact .inl ⟨.tick, _, rfl, by simp, by simp⟩
  · rename_i rest h
    exact .inr (.inl ⟨rest, h⟩)
  · exact .inl ⟨.read _ _, _, rfl, by simp, by simp⟩

/-- The four kinds of step: a reset, an action of the sequencer, another input event, or the acceptance of a command
word. -/
theorem step_moves {s t : State} (h : step s = .next t) :
    (∃ rest, s.inputs = .reset :: rest ∧ t = resetEvent { s with inputs := rest }) ∨
    (NoReset s ∧ ∃ a rest, s.agenda = a :: rest ∧ a ≠ .awaitTick ∧ t = perform a { s with agenda := rest }) ∨
    (NoReset s ∧ HostTurn s ∧ ∃ i rest, i ≠ .reset ∧ (∀ v, i = .write 32 0x100 v → acceptsCommand s = false) ∧
      t = applyInput i { s with inputs := rest }) ∨
    (NoReset s ∧ HostTurn s ∧ Idle s ∧ ∃ w rest, s.inputs = .write 32 0x100 w :: rest ∧
      ((∃ i, decode w = .ok i ∧ exec i (acceptedWord w { s with inputs := rest }) = .next t) ∨
       ∃ c, t = raise c (acceptedWord w { s with inputs := rest }))) := by
  rcases nextMove_cases s with ⟨rest, h1, h2⟩ | ⟨hn, a, rest, h1, h2, h3⟩ | ⟨hn, ht, h1⟩
  · simp only [step, h2, applyInput, Host.Outcome.next.injEq] at h
    exact .inl ⟨rest, h1, h.symm⟩
  · simp only [step, h3, Host.Outcome.next.injEq] at h
    exact .inr (.inl ⟨hn, a, rest, h1, h2, h.symm⟩)
  · rcases inputMove_cases s with ⟨i, rest, h2, h3, h4⟩ | ⟨rest, h2⟩ | ⟨w, rest, h2, h3, h4⟩
    · rw [h2] at h1
      simp only [step, h1, Host.Outcome.next.injEq] at h
      exact .inr (.inr (.inl ⟨hn, ht, i, rest, h3, h4, h.symm⟩))
    · exact absurd h2 (hn rest)
    · rw [h4] at h1
      simp only [step, h1] at h
      refine .inr (.inr (.inr ⟨hn, ht, h3, w, rest, h2, ?_⟩))
      cases hd : decode w with
      | ok i => rw [hd] at h; exact .inl ⟨i, rfl, h⟩
      | error e => rw [hd] at h; exact .inr ⟨decodeFault e, (Host.Outcome.next.inj h).symm⟩

end Sys2Proof.Machine
end

