-- ==== Sys2Proof/Tests/Slice0.lean ====
section
/-! SUPPORT. Tests: expected values are the spec's own examples and vectors (95_test_vectors.md, cited by name), and for
every statement with hypotheses a concrete state that meets them all. -/

namespace Sys2Proof.Tests

open Sys2Proof Sys2Proof.Machine

/-- A field of the next state. -/
def after {α : Type} (f : State → α) (o : Host.Outcome State Fault Refusal) : Option α :=
  match o with
  | .next s => some (f s)
  | _ => none

/-- Right after reset, with S = 1, DEFAULT_TX_REPEAT = 1, the vectors' PROFILES, and T = 0. -/
def base : State := { State.reset with par := Config.paramsWith 1 0 [[(0x02, 0x00), (0x03, 0x10)]], t := 0 }

/-- After SPI.INIT with the given polarity bits. -/
def bus (cpol cpha cspol : Bool) : State :=
  { base with
    busCfg := { configured := true, cpol := cpol, cpha := cpha, cspol := cspol }
    pins := { sclk := levelOf cpol, mosi := .low, cs := levelOf (!cspol), utx := .high } }

/-- A configured bus (mode 0, CS active low), the given radio mode, and bytes of BUF from address 0. -/
def radio (m : RadioMode) (bytes : List Byte) : State :=
  { bus false false false with mode := .known m, buf := bufWriteAll [] 0 bytes }

/-- The state in which word `w` runs. -/
def running (w : Word) (s : State) : State :=
  { s with cmd := w, curCmd := some w, status := { code := 0, busy := true, faulted := false } }

/-- TB.DLYUS 1000 holding for a tick. -/
def holding : State := { running 0x140003E8 base with agenda := [.awaitTick, .finish .ok 0] }

/-- `holding` with a host fault latched. -/
def holdingPend : State := { holding with pend := some { cause := .hostAccess, word := 0x140003E8 } }

/-- A core faulted by SPI.XFER 0xA5 right after reset (V-F-1). -/
def faulted : State :=
  { base with
    cmd := 0x230000A5, curCmd := some 0x230000A5, fault := 0x05, fcmd := 0x230000A5
    status := { code := 0xFF, busy := false, faulted := true } }

/-- `s` with one input waiting. -/
def given (i : Input) (s : State) : State := { s with inputs := [i] }

/-- The W9 capture. -/
def capture : List Byte :=
  [0x55, 0x99, 0x56, 0x59, 0x95, 0x55, 0x69, 0x65, 0x55, 0x55, 0x55, 0x55, 0x55, 0x55, 0x55, 0x55]

/-! ### WellFormed refuses what no word encodes -/

theorem test_illformed_xferb_tx : (Instr.spiXferB false true 0x01 0x10 4).wellFormed = false := by decide
theorem test_illformed_xferb_rx : (Instr.spiXferB true false 0x00 0x01 4).wellFormed = false := by decide
theorem test_illformed_frame_tx : (Instr.spiFrame false false 0x01 0x00 1).wellFormed = false := by decide
theorem test_illformed_frame_rx : (Instr.spiFrame false false 0x00 0x80 1).wellFormed = false := by decide
theorem test_wellformed_frame : (Instr.spiFrame true true 0x01 0x80 1).wellFormed = true := by decide

/-! ### Decoding: words written out from R71 and R73 -/

theorem test_decode_timebase :
    decode 0x10000000 = .ok .tbRead ∧ decode 0x110000F0 = .ok (.tbWrite 0xF0) ∧
    decode 0x1200F068 = .ok (.tbDiff 0xF0 0x68) ∧ decode 0x13000064 = .ok (.tbWait 100) ∧
    decode 0x140003E8 = .ok (.tbDlyUs 1000) ∧ decode 0x1500FFFF = .ok (.tbDlyMs 65535) := by decide

theorem test_decode_spi :
    decode 0x20000005 = .ok (.spiInit true false true) ∧ decode 0x20000002 = .ok (.spiInit false true false) ∧
    decode 0x21000000 = .ok .spiSel ∧ decode 0x22000000 = .ok .spiDesel ∧
    decode 0x230000A5 = .ok (.spiXfer 0xA5) := by decide

theorem test_decode_format_x :
    decode 0x24000002 = .ok (.spiXferB false false 0x00 0x00 2) ∧
    decode 0x25001004 = .ok (.spiXferB false true 0x00 0x10 4) ∧
    decode 0x26F00020 = .ok (.spiXferB true false 0xF0 0x00 0x20) ∧
    decode 0x27000102 = .ok (.spiXferB true true 0x00 0x01 2) ∧
    decode 0x28000000 = .ok (.spiFrame false false 0x00 0x00 0) ∧
    decode 0x29001002 = .ok (.spiFrame false true 0x00 0x10 2) ∧
    decode 0x2A000001 = .ok (.spiFrame true false 0x00 0x00 1) ∧
    decode 0x2B001002 = .ok (.spiFrame true true 0x00 0x10 2) := by decide

theorem test_decode_uart :
    decode 0x30000055 = .ok (.uartTx 0x55) ∧ decode 0x31000000 = .ok .uartRx ∧ decode 0x32000000 = .ok .uartWaitB ∧
    decode 0x33FFFFFF = .ok (.uartBrk 16777215) ∧ decode 0x34000000 = .ok .uartNoBrk := by decide

theorem test_decode_radio :
    decode 0x40000000 = .ok .rfInit ∧ decode 0x41000003 = .ok (.rfMode 3) ∧ decode 0x42000001 = .ok (.rfConfig 1) ∧
    decode 0x43F02001 = .ok (.rfTx 0xF0 0x20 1) ∧ decode 0x44000000 = .ok .rfRdy ∧
    decode 0x4500F810 = .ok (.rfRxF 0xF8 16) ∧ decode 0x46000008 = .ok (.rfRxC 0x00 8) := by decide

theorem test_decode_manchester :
    decode 0x50002010 = .ok (.mcValid 0x20 16) ∧ decode 0x51000010 = .ok (.mcDecode 0x00 16) ∧
    decode 0x52002008 = .ok (.mcEncode 0x00 0x20 8) := by decide

theorem test_decode_refuses :
    decode 0x00000000 = .error .illegalOpcode ∧ decode 0x16000000 = .error .illegalOpcode ∧
    decode 0x2C000000 = .error .illegalOpcode ∧ decode 0x53000000 = .error .illegalOpcode ∧
    decode 0xFF000000 = .error .illegalOpcode ∧ decode 0x20000008 = .error .reservedNonzero ∧
    decode 0x24010004 = .error .reservedNonzero ∧ decode 0x26000104 = .error .reservedNonzero ∧
    decode 0x41010001 = .error .reservedNonzero ∧ decode 0x21000001 = .error .reservedNonzero := by decide

theorem test_decode_table_word : decodeTableWord 32 0x43000803 = some (.rfTx 0x00 8 3) := by decide

/-- The machine runs an offered word as its first instruction after reset. -/
theorem test_step_runs_offered_word :
    after (·.cmd) (step (State.reset.withFetchWord 32 0x110000F0)) = some 0x110000F0 ∧
    after (·.t) (step (State.reset.withFetchWord 32 0x110000F0)) = some 0xF0 := by decide

/-! ### TimeBase (vectors of 2.2) -/

theorem test_tb_read : after (·.result) (exec .tbRead { base with t := 0x68 }) = some 0x68 := by decide
theorem test_tb_write : after (·.t) (exec (.tbWrite 0xF0) base) = some 0xF0 := by decide
theorem test_tb_diff_forward : after (·.result) (exec (.tbDiff 0xF0 0x68) base) = some 0x78 := by decide
theorem test_tb_diff_wraps : after (·.result) (exec (.tbDiff 0xFF 0x00) base) = some 1 := by decide
theorem test_tb_wait_behind :
    (performWaitUntil 100 { base with t := 200 }).agenda = [.whileAtOrAbove 200 100] := by decide
theorem test_tb_wait_equal : (performWaitUntil 5 { base with t := 5 }).agenda = [] := by decide
theorem test_tb_dlyus_loop :
    (performDelayLoop 256 0x37 base).agenda = [.waitUntil 0x36, .delayLoop 1 0x36] := by decide
theorem test_tb_dlyms_loop : (performDelayMs 2 base).agenda = [.delayUs 1000, .delayMs 1] := by decide

/-! ### SoftSpiBus (vectors of 2.3) -/

theorem test_spi_init_events :
    after (·.hist) (exec (.spiInit false false false) base) =
      some [.complete 0 0x00, .drive 0 .mosi false, .drive 0 .sclk false, .drive 0 .cs true] := by decide
theorem test_spi_init_twice :
    after (fun t => (t.status.word, t.fault, t.fcmd))
      (exec (.spiInit false false false) (running 0x20000000 (bus false false false))) =
      some (0x000002FF, 0x06, 0x20000000) := by decide
theorem test_spi_sel_active_high : after (·.pins.cs) (exec .spiSel (bus false false true)) = some .high := by decide
theorem test_spi_sel_unconfigured : after (·.fault) (exec .spiSel (running 0x21000000 base)) = some 0x05 := by decide
theorem test_spi_desel_active_high : after (·.pins.cs) (exec .spiDesel (bus false false true)) = some .low := by decide
theorem test_spi_xfer_mosi_bits :
    after (fun t => t.agenda.filter fun a => a = .drive .mosi true ∨ a = .drive .mosi false)
      (exec (.spiXfer 0xA5) (bus false false false)) =
      some ([true, false, true, false, false, true, false, true].map fun b => .drive .mosi b) := by decide
theorem test_spi_xfer_phase_one :
    after (fun t => (t.fault, t.hist)) (exec (.spiXfer 0x00) (running 0x23000000 (bus false true false))) =
      some (0x07, [.complete 0 0xFF]) := by decide
theorem test_spi_xferb_range :
    after (·.fault) (exec (.spiXferB true false 0xF0 0x00 0x20) (running 0x26F00020 (bus false false false))) =
      some 0x03 := by decide
theorem test_spi_xferb_unwritten :
    after (·.fault) (exec (.spiXferB true false 0x00 0x00 1) (running 0x26000001 (bus false false false))) =
      some 0x04 := by decide
theorem test_spi_frame_empty :
    after (·.agenda) (exec (.spiFrame false false 0x00 0x00 0) (bus false false false)) =
      some [.drive .cs false, .spiBytes false false 0 0 0, .drive .cs true, .finish .ok 0] := by decide
theorem test_spi_frame_unconfigured :
    after (fun t => (t.status.word, t.fault, t.fcmd)) (exec (.spiFrame true false 0x00 0x00 1) (running 0x2A000001 base)) =
      some (0x000002FF, 0x05, 0x2A000001) := by decide

/-! ### SoftSerialLine (vectors of 2.4) -/

theorem test_uart_tx_drives :
    after (fun t => t.agenda.filter fun a => a = .drive .utx true ∨ a = .drive .utx false) (exec (.uartTx 0x80) base) =
      some ([false, false, false, false, false, false, false, false, true, true].map fun b => .drive .utx b) := by
  decide
theorem test_uart_tx_first_wait :
    after (fun t => t.agenda.take 2) (exec (.uartTx 0x55) { base with t := 0xF0 }) =
      some [.drive .utx false, .waitUntil 0x58] := by decide
theorem test_uart_rx_noise :
    (fun t : State => (t.status.word, t.result)) (performUartGlitch .receive 52 { base with urxIn := [true] }) =
      (0x03, 0) := by decide
theorem test_uart_rx_break_or_zero :
    (performUartStop .receive 0 { base with urxIn := [false] }).status.word = 0x82 ∧
    (performUartStop .receive 0 { base with urxIn := [true] }).status.word = 0x04 := by decide
theorem test_uart_waitb_spins :
    (performSpinWhileHigh { base with urxIn := [true] }).agenda = [.awaitTick, .spinWhileHigh] := by decide
theorem test_uart_waitb_framing_loops :
    (performUartStop .waitByte 0x41 { base with urxIn := [false] }).agenda = [.spinWhileHigh] := by decide
theorem test_uart_brk_below_a_sample :
    (fun t : State => (t.status.word, t.result, t.hist)) (performBreakLoop 12 0 0 base) =
      (0x00, 0, [.complete 0 0x00]) := by decide
theorem test_uart_brk_eightieth_low :
    (performBreakSample 0 79 16 { base with urxIn := [false] }).result = 1 := by decide
theorem test_uart_nobrk_high :
    (performSpinWhileLow { base with urxIn := [true] }).hist = [.complete 0 0x00, .sample 0 .urx true] := by decide
theorem test_uart_nobrk_low :
    (performSpinWhileLow { base with urxIn := [false] }).agenda = [.awaitTick, .spinWhileLow] := by decide

/-! ### RadioDriver (vectors of 2.5) -/

theorem test_rf_init_no_response :
    (fun t : State => (t.status.word, t.result, t.version)) (performInitCheck { base with rx := 0xFF }) =
      (0x87, 0xFF, none) := by decide
theorem test_rf_init_unconfigured : after (·.fault) (exec .rfInit (running 0x40000000 base)) = some 0x05 := by decide
theorem test_rf_mode_out_of_range :
    after (fun t => t.status.word) (exec (.rfMode 3) base) = some 0x88 := by decide
theorem test_rf_mode_transmit_polls :
    after (fun t => t.agenda.drop 84) (exec (.rfMode 2) (bus false false false)) =
      some [.poll 0x27 7 true 0, .poll 0x27 5 true 0, .setMode .transmit, .finish .ok 0] := by decide
theorem test_rf_config_unknown : after (fun t => t.status.word) (exec (.rfConfig 1) base) = some 0x88 := by decide
theorem test_rf_config_memo :
    after (·.hist) (exec (.rfConfig 0) { bus false false false with profile := some 0 }) =
      some [.complete 0 0x00] := by decide
theorem test_rf_tx_size_errors :
    after (fun t => t.status.word) (exec (.rfTx 0x00 0 1) base) = some 0x88 ∧
    after (fun t => t.status.word) (exec (.rfTx 0x00 67 1) base) = some 0x83 := by decide
theorem test_rf_tx_priority : after (·.fault) (exec (.rfTx 0xF0 0x20 1) (running 0x43F02001 base)) = some 0x05 := by
  decide
theorem test_rf_rdy_ready :
    (fun t : State => (t.status.word, t.result)) (performReadyCheck { base with rx := 0x04 }) = (0x01, 1) := by decide
theorem test_rf_rdy_not_ready :
    (fun t : State => (t.status.word, t.result)) (performReadyCheck { base with rx := 0x00 }) = (0x02, 0) := by decide
theorem test_rf_rxf_long : after (fun t => t.status.word) (exec (.rfRxF 0x00 67) base) = some 0x84 := by decide
theorem test_rf_rxf_range :
    after (·.fault) (exec (.rfRxF 0xF8 16) (running 0x4500F810 (radio .receive []))) = some 0x03 := by decide
theorem test_rf_rxc_too_small :
    (fun t : State => (t.status.word, t.result, t.buf)) (performCountedPrefix 0x00 8 { base with rx := 9 }) =
      (0x83, 9, [(0, 9)]) := by decide
theorem test_rf_rxc_range :
    after (·.fault) (exec (.rfRxC 0xF8 8) (running 0x4600F808 (radio .receive []))) = some 0x03 ∧
    after (·.fault) (exec (.rfRxC 0xF7 8) (running 0x4600F708 (radio .receive []))) = some 0x00 := by decide

/-! ### ManchesterCodec (vectors of 2.6) -/

theorem test_mc_valid_capture :
    after (fun t => (t.status.word, t.result)) (exec (.mcValid 0x00 16) (radio .standby capture)) = some (0x00, 1) := by
  decide
theorem test_mc_valid_illegal :
    after (fun t => (t.status.word, t.result)) (exec (.mcValid 0x00 1) (radio .standby [0x5B])) = some (0x86, 0) := by
  decide
theorem test_mc_decode_capture :
    after (fun t => (t.result, bufReadAll t.buf 0 8)) (exec (.mcDecode 0x00 16) (radio .standby capture)) =
      some (8, [0x0A, 0x12, 0x80, 0x64, 0x00, 0x00, 0x00, 0x00]) := by decide
theorem test_mc_decode_odd :
    after (·.fault) (exec (.mcDecode 0x00 3) (running 0x51000003 (radio .standby [0x55, 0x55, 0x55]))) = some 0x0A := by
  decide
theorem test_mc_encode_overlap :
    after (fun t => (t.result, t.buf)) (exec (.mcEncode 0x00 0x00 2) (radio .standby [0x12, 0x34])) =
      some (4, [(0, 0x56), (1, 0x59), (2, 0x5A), (3, 0x65)]) := by decide
theorem test_mc_encode_too_long :
    after (·.fault) (exec (.mcEncode 0x00 0x00 129) (running 0x52000081 base)) = some 0x03 := by decide

/-! ### Host interface and faults (vectors of 2.7) -/

theorem test_fault_xfer_after_reset :
    after (fun t => (t.status.word, t.fault, t.fcmd, t.pins.sclk))
      (step (given (.write 32 0x100 0x230000A5) base)) = some (0x000002FF, 0x05, 0x230000A5, .z) := by decide
theorem test_fault_status_write :
    after (fun t => (t.status.word, t.fault, t.fcmd)) (step (given (.write 32 0x104 0) base)) =
      some (0x000002FF, 0x0D, 0) := by decide
theorem test_fault_read_unwritten :
    after (fun t => (t.fault, t.fcmd)) (step (given (.read 8 0x005) base)) = some (0x04, 0) := by decide
theorem test_command_while_busy :
    after (fun t => (t.cmd, t.pend)) (step (given (.write 32 0x100 0x10000000) holding)) =
      some (0x140003E8, some { cause := .cmdWhileBusy, word := 0x10000000 }) := by decide

/-! ### Witnesses: for each statement with hypotheses, states and operands that meet them together -/

theorem quiet_base : Quiet base := ⟨rfl, rfl⟩

theorem busReady_bus : BusReady (bus false false false) := ⟨rfl, rfl⟩

theorem witness_DecodeOfEncode :
    (Instr.spiXferB true false 0xFF 0x00 255).wellFormed = true ∧ (Instr.uartBrk 0xFFFFFF).wellFormed = true := by decide

theorem witness_EncodeOfDecode : decode 0x25001004 = .ok (.spiXferB false true 0x00 0x10 4) := by decide

theorem witness_IllegalOpcodesFault :
    (∀ w ∈ ([0x00000000, 0x0F000000, 0x16000000, 0x1F000000, 0x2C000000, 0x2F000000, 0x35000000, 0x3F000000, 0x47000000,
        0x4F000000, 0x53000000, 0xFFFFFFFF] : List Word), illegalOpcodeNumber (w.toNat / 2 ^ 24)) ∧
    ∀ w : Word, Idle (given (.write 32 0x100 w) base) ∧ HostTurn (given (.write 32 0x100 w) base) ∧
      (given (.write 32 0x100 w) base).inputs = .write 32 0x100 w :: [] :=
  ⟨by simp [illegalOpcodeNumber], fun _ => ⟨⟨rfl, rfl⟩, .inl rfl, rfl⟩⟩

theorem witness_ReservedFieldsFault :
    (∀ w ∈ ([0x10800000, 0x21000001, 0x11000100, 0x12010000, 0x20000008, 0x24010004, 0x26000104, 0x52FFFFFF] :
        List Word), ¬ illegalOpcodeNumber (w.toNat / 2 ^ 24)) ∧
    (∀ w ∈ ([0x10800000, 0x21000001, 0x11000100, 0x12010000, 0x20000008, 0x24010004, 0x26000104] : List Word),
      w &&& reservedBits (w.toNat / 2 ^ 24) ≠ 0) ∧
    ∀ w : Word, Idle (given (.write 32 0x100 w) base) ∧ HostTurn (given (.write 32 0x100 w) base) ∧
      (given (.write 32 0x100 w) base).inputs = .write 32 0x100 w :: [] :=
  ⟨by simp [illegalOpcodeNumber], by simp [reservedBits], fun _ => ⟨⟨rfl, rfl⟩, .inl rfl, rfl⟩⟩

theorem witness_StepRunsDecodedCommand :
    let s := given (.write 32 0x100 0x110000F0) base
    Idle s ∧ HostTurn s ∧ s.inputs = .write 32 0x100 0x110000F0 :: [] ∧ decode 0x110000F0 = .ok (.tbWrite 0xF0) :=
  ⟨⟨rfl, rfl⟩, .inl rfl, rfl, by decide⟩

theorem witness_RejectedCommandWrites :
    (HostTurn (given (.write 32 0x100 7) faulted) ∧ (given (.write 32 0x100 7) faulted).status.faulted = true) ∧
    (HostTurn (given (.write 32 0x100 7) holding) ∧ Running (given (.write 32 0x100 7) holding) ∧
      (given (.write 32 0x100 7) holding).pend = none) ∧
    (HostTurn (given (.write 32 0x100 7) holdingPend) ∧ Running (given (.write 32 0x100 7) holdingPend) ∧
      (given (.write 32 0x100 7) holdingPend).pend ≠ none) :=
  ⟨⟨.inl rfl, rfl⟩, ⟨.inr ⟨_, rfl⟩, ⟨rfl, rfl⟩, rfl⟩, ⟨.inr ⟨_, rfl⟩, ⟨rfl, rfl⟩, by decide⟩⟩

/-- Each kind of state a host access meets, whatever the access `i`. -/
theorem witness_host_access (i : Input) :
    (HostTurn (given i base) ∧ Idle (given i base)) ∧
    (HostTurn (given i holding) ∧ Running (given i holding) ∧ (given i holding).pend = none) ∧
    (HostTurn (given i holdingPend) ∧ Running (given i holdingPend) ∧ (given i holdingPend).pend ≠ none) ∧
    (HostTurn (given i faulted) ∧ (given i faulted).status.faulted = true) :=
  ⟨⟨.inl rfl, rfl, rfl⟩, ⟨.inr ⟨_, rfl⟩, ⟨rfl, rfl⟩, rfl⟩, ⟨.inr ⟨_, rfl⟩, ⟨rfl, rfl⟩, nofun⟩, .inl rfl, rfl⟩

theorem witness_HostBufWrites :
    (given (.write 8 ((0x00 : Byte).setWidth 9) 7) base).inputs = .write 8 ((0x00 : Byte).setWidth 9) 7 :: [] ∧
    (given (.write 8 ((0xFF : Byte).setWidth 9) 7) holding).inputs = .write 8 ((0xFF : Byte).setWidth 9) 7 :: [] ∧
    (given (.write 8 ((0xFF : Byte).setWidth 9) 7) holdingPend).inputs = .write 8 ((0xFF : Byte).setWidth 9) 7 :: [] ∧
    (given (.write 8 ((0x00 : Byte).setWidth 9) 7) faulted).inputs = .write 8 ((0x00 : Byte).setWidth 9) 7 :: [] :=
  ⟨rfl, rfl, rfl, rfl⟩

theorem witness_HostBufReads :
    (let s := given (.read 8 ((0x00 : Byte).setWidth 9)) (radio .standby [0x12])
     HostTurn s ∧ s.inputs = .read 8 ((0x00 : Byte).setWidth 9) :: [] ∧ s.status.busy = false ∧
      bufRead s.buf 0x00 = some 0x12) ∧
    (let s := given (.read 8 ((0xFF : Byte).setWidth 9)) base
     HostTurn s ∧ s.inputs = .read 8 ((0xFF : Byte).setWidth 9) :: [] ∧ Idle s ∧ bufRead s.buf 0xFF = none) ∧
    (let s := given (.read 8 ((0xFF : Byte).setWidth 9)) faulted
     HostTurn s ∧ s.status.faulted = true ∧ s.status.busy = false ∧ bufRead s.buf 0xFF = none) ∧
    (let s := given (.read 8 ((0x00 : Byte).setWidth 9)) holding
     HostTurn s ∧ s.status.busy = true) :=
  ⟨⟨.inl rfl, rfl, rfl, by decide⟩, ⟨.inl rfl, rfl, ⟨rfl, rfl⟩, rfl⟩, ⟨.inl rfl, rfl, rfl, rfl⟩, .inr ⟨_, rfl⟩, rfl⟩

theorem witness_BadHostAccess :
    (∀ a ∈ ([(32, 0x000), (8, 0x100), (32, 0x113), (32, 0x114), (32, 0x1FF), (32, 0x104), (32, 0x110)] :
      List (Nat × BitVec 9)), badAccess true a.1 a.2) ∧
    (∀ a ∈ ([(16, 0x0FF), (16, 0x110), (32, 0x101), (8, 0x1FF)] : List (Nat × BitVec 9)), badAccess false a.1 a.2) ∧
    (given (.write 32 0x114 7) holding).inputs = .write 32 0x114 7 :: [] ∧
    (given (.read 16 0x0FF) base).inputs = .read 16 0x0FF :: [] :=
  ⟨by simp [badAccess], by simp [badAccess], rfl, rfl⟩

theorem witness_HostRegisterReads :
    let s := given (.read 32 0x110) faulted
    HostTurn s ∧ s.inputs = .read 32 0x110 :: [] ∧
      ((0x110 : BitVec 9), (0x230000A5 : Word)) ∈
        [((0x100 : BitVec 9), s.cmd), (0x104, s.status.word), (0x108, s.result), (0x10C, s.fault), (0x110, s.fcmd)] :=
  ⟨.inl rfl, rfl, by decide⟩

theorem witness_CompletionAppliesPend :
    holding.pend = none ∧ holdingPend.pend = some { cause := .hostAccess, word := 0x140003E8 } := ⟨rfl, rfl⟩

theorem witness_FaultEntry : faulted.status.faulted = true ∧ Running holding ∧ Idle base :=
  ⟨rfl, ⟨rfl, rfl⟩, rfl, rfl⟩

theorem witness_CommandFaultsArePrecise :
    Running (running 0x21000000 base) ∧ (running 0x21000000 base).pend = none ∧
    after (·.status.faulted) (exec .spiSel (running 0x21000000 base)) = some true := ⟨⟨rfl, rfl⟩, rfl, by decide⟩

theorem inv_of_faulted : faulted.Inv :=
  ⟨by decide, by decide, by decide, by decide, by decide, nofun, by decide, by decide,
    ⟨.fault, by decide, by decide⟩, nofun⟩

theorem witness_FaultedCoreHalts :
    faulted.Inv ∧ faulted.status.faulted = true ∧ NoReset faulted ∧ ∃ t, step faulted = .next t :=
  ⟨inv_of_faulted, rfl, nofun, _, rfl⟩

theorem witness_ResetValues : (given .reset holding).inputs = .reset :: [] := rfl

theorem witness_TickAdvancesTime :
    (HostTurn base ∧ base.inputs = [] ∧ base.agenda = []) ∧
    (HostTurn holding ∧ holding.inputs = [] ∧ holding.agenda = .awaitTick :: [.finish .ok 0]) :=
  ⟨⟨.inl rfl, rfl, rfl⟩, .inr ⟨_, rfl⟩, rfl, rfl⟩

theorem witness_TimePassesOnlyInTicks :
    (NoReset holding ∧ after (·.now) (step holding) = some 1) ∧
    (NoReset (given (.write 32 0x100 0x110000F0) base) ∧
      after (fun t => (t.now, t.t)) (step (given (.write 32 0x100 0x110000F0) base)) = some (0, 0xF0)) :=
  ⟨⟨nofun, by decide⟩, nofun, by decide⟩

theorem witness_TickReadWriteDiff : base.pend = none := rfl

theorem witness_ElapsedTimeLaws : Quiet base := quiet_base

theorem witness_WaitsAndDelaysComplete : Quiet (running 0x14000000 base) := ⟨rfl, rfl⟩

theorem witness_SpiInitOnce :
    (base.busCfg.configured = false ∧ base.pend = none) ∧
    ((running 0x20000000 (bus true true true)).busCfg.configured = true ∧
      Running (running 0x20000000 (bus true true true))) := ⟨⟨rfl, rfl⟩, rfl, rfl, rfl⟩

theorem witness_SpiSelectAndDeselect :
    ((bus false true true).busCfg.configured = true ∧ (bus false true true).pend = none) ∧
    ((running 0x21000000 base).busCfg.configured = false ∧ Running (running 0x21000000 base)) :=
  ⟨⟨rfl, rfl⟩, rfl, rfl, rfl⟩

theorem witness_TransferPreconditions :
    (transfers (running 0x23000000 base) (.rfTx 0xF0 66 1) ∧ Running (running 0x23000000 base) ∧
      (running 0x23000000 base).busCfg.configured = false) ∧
    (transfers (running 0x42000000 (bus false true false)) (.rfConfig 0) ∧
      Running (running 0x42000000 (bus false true false)) ∧
      (running 0x42000000 (bus false true false)).busCfg.configured = true ∧
      (running 0x42000000 (bus false true false)).busCfg.cpha = true) :=
  ⟨⟨by unfold transfers; decide, ⟨rfl, rfl⟩, rfl⟩, by unfold transfers; decide, ⟨rfl, rfl⟩, rfl, rfl⟩

theorem witness_SpiByteExchange :
    Quiet { bus true false false with misoIn := answersOf 0x24 } ∧
    BusReady { bus true false false with misoIn := answersOf 0x24 } := ⟨⟨rfl, rfl⟩, rfl, rfl⟩

theorem witness_StoredBytes : (0xFE : Byte).toNat + ([0x11, 0x22] : List Byte).length ≤ 256 := by decide

theorem witness_SpiXferBytesCompletes :
    Quiet (radio .standby [0xAA, 0xBB]) ∧ BusReady (radio .standby [0xAA, 0xBB]) ∧
    XOperandsReady true true 0x00 0xFE 2 (radio .standby [0xAA, 0xBB]) :=
  ⟨⟨rfl, rfl⟩, ⟨rfl, rfl⟩, fun _ => ⟨by decide, by decide⟩, fun _ => by decide⟩

theorem witness_SpiFrameCompletes :
    Quiet (radio .standby [0x10, 0x00]) ∧ BusReady (radio .standby [0x10, 0x00]) ∧
    XOperandsReady true true 0x00 0x10 2 (radio .standby [0x10, 0x00]) ∧
    XOperandsReady false false 0x00 0x00 255 (radio .standby [0x10, 0x00]) :=
  ⟨⟨rfl, rfl⟩, ⟨rfl, rfl⟩, ⟨fun _ => ⟨by decide, by decide⟩, fun _ => by decide⟩, nofun, nofun⟩

theorem witness_FormatXBufferFaults :
    let s := running 0x26000000 (radio .standby [0xAA])
    (BusReady s ∧ Running s) ∧ 256 < (0xFF : Byte).toNat + (2 : Byte).toNat ∧
    ((0x00 : Byte).toNat + (2 : Byte).toNat ≤ 256 ∧
      ∃ i, i < (2 : Byte).toNat ∧ bufRead s.buf (0x00 + BitVec.ofNat 8 i) = none) :=
  ⟨⟨⟨rfl, rfl⟩, rfl, rfl⟩, by decide, by decide, 1, by decide, by decide⟩

theorem witness_UartTxCompletes : Quiet { base with t := 0xF0 } := ⟨rfl, rfl⟩

theorem witness_UartRxOutcomes :
    Quiet { base with urxIn := [true] } ∧ Quiet { base with urxIn := frameBits 0x41 false } := ⟨⟨rfl, rfl⟩, rfl, rfl⟩

theorem witness_UartWaitByteCompletes :
    (let s := { base with urxIn := List.replicate 10 true ++ false :: (frameBits 0x41 true ++ []) }
     Quiet s ∧ s.urxIn = List.replicate 10 true ++ false :: (frameBits 0x41 true ++ [])) ∧
    (let s := { base with urxIn := List.replicate 0 true ++ false :: (frameBits 0x41 false ++ [false]) }
     Quiet s ∧ s.urxIn = List.replicate 0 true ++ false :: (frameBits 0x41 false ++ [false])) ∧
    (let s := { base with urxIn := List.replicate 1 true ++ false :: true :: [] }
     Quiet s ∧ s.urxIn = List.replicate 1 true ++ false :: true :: []) :=
  ⟨⟨⟨rfl, rfl⟩, rfl⟩, ⟨⟨rfl, rfl⟩, rfl⟩, ⟨rfl, rfl⟩, rfl⟩

theorem witness_UartBreakCompletes : Quiet { base with urxIn := List.replicate 80 false } := ⟨rfl, rfl⟩

theorem witness_UartNoBreakCompletes :
    (let s := { base with urxIn := List.replicate 3 false ++ true :: [] }
     Quiet s ∧ s.urxIn = List.replicate 3 false ++ true :: []) ∧
    (let s := { base with urxIn := List.replicate 0 false ++ true :: [] }
     Quiet s ∧ s.urxIn = List.replicate 0 false ++ true :: []) := ⟨⟨⟨rfl, rfl⟩, rfl⟩, ⟨rfl, rfl⟩, rfl⟩

theorem witness_SpinsWithoutTimeout :
    (let s := { base with urxIn := List.replicate 3 false ++ [] }
     Quiet s ∧ s.urxIn = List.replicate 3 false ++ []) ∧
    (let s := { base with urxIn := List.replicate 3 true ++ [] }
     Quiet s ∧ s.urxIn = List.replicate 3 true ++ []) := ⟨⟨⟨rfl, rfl⟩, rfl⟩, ⟨rfl, rfl⟩, rfl⟩

theorem witness_RadioInitCompletes :
    (let s := { bus false false false with misoIn := answersOfAll [0x00, 0x24] }
     Quiet s ∧ BusReady s) ∧
    (let s := { bus false false false with misoIn := answersOfAll [0x00, 0xFF] }
     Quiet s ∧ BusReady s) := ⟨⟨⟨rfl, rfl⟩, rfl, rfl⟩, ⟨rfl, rfl⟩, rfl, rfl⟩

theorem witness_RadioModeCompletes :
    (let rxs : List (List Byte) := [[0, 0], [0, 0x80]]
     let s := { bus false false false with misoIn := answersOfAll rxs.flatten ++ [] }
     Quiet s ∧ BusReady s ∧
      ((1 : Byte), RadioMode.receive) ∈ [((0 : Byte), RadioMode.standby), (1, .receive), (2, .transmit)] ∧
      Answers (modeFrames s.par .receive) rxs ∧ s.misoIn = answersOfAll rxs.flatten ++ []) ∧
    (let rxs : List (List Byte) := [[0, 0], [0, 0xA0], [0, 0x20]]
     let s := { bus false false false with misoIn := answersOfAll rxs.flatten ++ [] }
     Quiet s ∧ BusReady s ∧ Answers (modeFrames s.par .transmit) rxs) ∧
    (base.pend = none ∧ 2 < (3 : Byte).toNat) :=
  ⟨⟨⟨rfl, rfl⟩, ⟨rfl, rfl⟩, by decide, ⟨rfl, rfl, rfl, rfl, trivial⟩, rfl⟩,
    ⟨⟨rfl, rfl⟩, ⟨rfl, rfl⟩, rfl, rfl, rfl, rfl, rfl, rfl, trivial⟩, rfl, by decide⟩

theorem witness_PollReadsUntilSatisfied :
    (let fails : List (List Byte) := [[0, 0x00]]
     let s := { bus false false false with misoIn := answersOfAll (fails ++ [[0, 0x80]]).flatten ++ [] }
     Quiet s ∧ (∀ f ∈ fails, f.length = 2 ∧ flagSet (f.getLastD 0) 7 ≠ true) ∧ flagSet ([0, 0x80].getLastD 0) 7 = true ∧
      ∀ limit, s.par.pollLimit = some limit → fails.length < limit) ∧
    (let fails : List (List Byte) := [[0, 0x00]]
     let s := { bus false false false with
       par := { base.par with pollLimit := some 2, pollLimit_pos := by decide }
       misoIn := answersOfAll (fails ++ [[0, 0x00]]).flatten ++ [] }
     Quiet s ∧ (∀ f ∈ fails, f.length = 2 ∧ flagSet (f.getLastD 0) 7 ≠ true) ∧ flagSet ([0, 0x00].getLastD 0) 7 ≠ true ∧
      s.par.pollLimit = some (fails.length + 1)) :=
  ⟨⟨⟨rfl, rfl⟩, by decide, by decide, nofun⟩, ⟨rfl, rfl⟩, by decide, by decide, rfl⟩

theorem witness_RadioConfigCompletes :
    (base.pend = none ∧ base.par.nprofiles ≤ (1 : Byte).toNat) ∧
    (let s := { bus false false false with profile := some 0 }
     s.pend = none ∧ (0 : Byte).toNat < s.par.nprofiles ∧ s.profile = some 0) ∧
    (Quiet (bus false false false) ∧ BusReady (bus false false false) ∧
      (bus false false false).par.profiles[(0 : Byte).toNat]? = some [(0x02, 0x00), (0x03, 0x10)] ∧
      (bus false false false).profile ≠ some 0) :=
  ⟨⟨rfl, by decide⟩, ⟨rfl, by decide, rfl⟩, ⟨rfl, rfl⟩, ⟨rfl, rfl⟩, rfl, nofun⟩

theorem witness_RadioConfigMemo :
    Quiet (bus false false false) ∧ BusReady (bus false false false) ∧
    (0 : Byte).toNat < (bus false false false).par.nprofiles := ⟨⟨rfl, rfl⟩, ⟨rfl, rfl⟩, by decide⟩

/-- V-R-15's answers. -/
def txAnswers (flags : Byte) : List (List Byte) :=
  [[0, 0], [0, 0], [0, 0x80], [0, 0x20], [0, 0, 0], [0, 0], [0, 0], [0, 0x80], [0, flags]]

/-- V-R-15's state before the command, with its answers. -/
def beforeTx (flags : Byte) : State :=
  { radio .standby [0xAB, 0xCD] with misoIn := answersOfAll (txAnswers flags).flatten ++ [] }

theorem witness_RadioTransmitCompletes :
    let s := beforeTx 0x00
    Quiet s ∧ BusReady s ∧ s.mode = .known .standby ∧ (2 : Byte) ≠ 0 ∧ (2 : Byte).toNat ≤ s.par.fifoCapacity ∧
      RegionReadable s 0x00 (2 : Byte).toNat ∧
      Answers (txFrames s.par .standby (bufReadAll s.buf 0x00 2) s.par.defaultTxRepeat) (txAnswers 0x00) :=
  ⟨⟨rfl, rfl⟩, ⟨rfl, rfl⟩, rfl, by decide, by decide, ⟨by decide, by decide⟩, rfl, rfl, rfl, rfl, rfl, by decide,
    rfl, by decide, rfl, rfl, rfl, by decide, rfl, rfl, rfl, by decide, rfl, rfl, trivial⟩

theorem witness_RadioTransmitCompletes_overrun :
    let s := beforeTx 0x10
    Quiet s ∧ BusReady s ∧ s.mode = .known .standby ∧ (2 : Byte) ≠ 0 ∧ (2 : Byte).toNat ≤ s.par.fifoCapacity ∧
      RegionReadable s 0x00 (2 : Byte).toNat ∧
      Answers (txFrames s.par .standby (bufReadAll s.buf 0x00 2) s.par.defaultTxRepeat) (txAnswers 0x10) :=
  ⟨⟨rfl, rfl⟩, ⟨rfl, rfl⟩, rfl, by decide, by decide, ⟨by decide, by decide⟩, rfl, rfl, rfl, rfl, rfl, by decide,
    rfl, by decide, rfl, rfl, rfl, by decide, rfl, rfl, rfl, by decide, rfl, rfl, trivial⟩

theorem witness_RadioSizeErrors : base.pend = none ∧ base.par.fifoCapacity < (67 : Byte).toNat := ⟨rfl, by decide⟩

theorem witness_RadioDataFaults :
    (let s := running 0x44000000 (bus false false false)
     BusReady s ∧ Running s ∧ s.mode = .undefined ∧ (66 : Byte).toNat ≤ s.par.fifoCapacity ∧ (66 : Byte) ≠ 0) ∧
    (let s := running 0x43000201 (radio .receive [0x11])
     BusReady s ∧ Running s ∧ s.mode ≠ .undefined ∧ 256 < (0xF8 : Byte).toNat + (8 : Byte).toNat + 1 ∧
      256 < (0xF9 : Byte).toNat + (8 : Byte).toNat ∧ (8 : Byte).toNat ≤ s.par.fifoCapacity ∧
      ∃ i, i < (2 : Byte).toNat ∧ bufRead s.buf (0x00 + BitVec.ofNat 8 i) = none) :=
  ⟨⟨⟨rfl, rfl⟩, ⟨rfl, rfl⟩, rfl, by decide, by decide⟩,
    ⟨rfl, rfl⟩, ⟨rfl, rfl⟩, nofun, by decide, by decide, by decide, 1, by decide, by decide⟩

theorem witness_RadioReadyCompletes :
    Quiet (radio .receive []) ∧ BusReady (radio .receive []) ∧ (radio .receive []).mode ≠ .undefined :=
  ⟨⟨rfl, rfl⟩, ⟨rfl, rfl⟩, nofun⟩

theorem witness_RadioReceiveFixedCompletes :
    Quiet (radio .receive []) ∧ BusReady (radio .receive []) ∧ (radio .receive []).mode ≠ .undefined ∧
    ((66 : Byte).toNat ≤ (radio .receive []).par.fifoCapacity ∧ (0xBE : Byte).toNat + (66 : Byte).toNat ≤ 256) :=
  ⟨⟨rfl, rfl⟩, ⟨rfl, rfl⟩, nofun, by decide, by decide⟩

theorem witness_RadioReceiveCountedCompletes :
    (let s := { radio .receive [] with misoIn := answersOfAll [0, 9] }
     Quiet s ∧ BusReady s ∧ s.mode ≠ .undefined ∧ (0xF7 : Byte).toNat + (8 : Byte).toNat + 1 ≤ 256) ∧
    (let s := { radio .receive [] with misoIn := answersOfAll [0, 8] }
     Quiet s ∧ BusReady s ∧ s.mode ≠ .undefined) :=
  ⟨⟨⟨rfl, rfl⟩, ⟨rfl, rfl⟩, nofun, by decide⟩, ⟨rfl, rfl⟩, ⟨rfl, rfl⟩, nofun⟩

/-- A step of RF.MODE receive that writes MODE. -/
theorem witness_OnlyRadioWritesRadioState :
    let s := { running 0x41000001 (bus false false false) with agenda := [.setMode .receive, .finish .ok 0] }
    s.RadioInv ∧ after (·.mode) (step s) = some (.known .receive) ∧ s.mode = .undefined :=
  ⟨fun _ => ⟨_, rfl, by decide⟩, by decide, rfl⟩

theorem witness_BusConfigImmutable :
    (∃ t, step (given (.write 32 0x100 0x20000007) (bus false false false)) = .next t) ∧
    NoReset (given (.write 32 0x100 0x20000007) (bus false false false)) ∧
    (given (.write 32 0x100 0x20000007) (bus false false false)).busCfg.configured = true := ⟨⟨_, rfl⟩, nofun, rfl⟩

theorem readable_capture : RegionReadable (radio .standby capture) 0x00 (16 : Byte).toNat := ⟨by decide, by decide⟩

/-- The region (0, 16) of `radio .standby capture` is legal. -/
theorem manchester_capture : RegionIsManchester (radio .standby capture) 0x00 (16 : Byte).toNat := by
  have h : ∀ i, i < 16 → ∀ x, x ∈ bufRead (radio .standby capture).buf (0x00 + BitVec.ofNat 8 i) →
      x.extractLsb' 4 4 ∈ [(0x5 : BitVec 4), 0x6, 0x9, 0xA] ∧ x.extractLsb' 0 4 ∈ [(0x5 : BitVec 4), 0x6, 0x9, 0xA] := by
    decide
  exact fun i x hi hx => h i hi x hx

theorem not_manchester : ¬ RegionIsManchester (radio .standby [0x55, 0x5B]) 0x00 (2 : Byte).toNat :=
  fun h => absurd (h 1 0x5B (by decide) (by decide)) (by unfold legalNibbleValue; decide)

theorem witness_NibbleCode : legalByte 0x99 = true := by decide

theorem witness_ManchesterValid :
    ((radio .standby capture).pend = none ∧ RegionReadable (radio .standby capture) 0x00 (16 : Byte).toNat ∧
      RegionIsManchester (radio .standby capture) 0x00 (16 : Byte).toNat) ∧
    (RegionReadable (radio .standby [0x55, 0x5B]) 0x00 (2 : Byte).toNat ∧
      ¬ RegionIsManchester (radio .standby [0x55, 0x5B]) 0x00 (2 : Byte).toNat) :=
  ⟨⟨rfl, readable_capture, manchester_capture⟩, ⟨by decide, by decide⟩, not_manchester⟩

theorem witness_ManchesterDecode :
    (radio .standby capture).pend = none ∧ RegionReadable (radio .standby capture) 0x00 (16 : Byte).toNat ∧
    (16 : Byte).toNat % 2 = 0 ∧ RegionIsManchester (radio .standby capture) 0x00 (16 : Byte).toNat :=
  ⟨rfl, readable_capture, by decide, manchester_capture⟩

theorem witness_ManchesterEncode :
    (radio .standby [0x12, 0x34]).pend = none ∧ RegionReadable (radio .standby [0x12, 0x34]) 0x00 (2 : Byte).toNat ∧
    (0xFC : Byte).toNat + 2 * (2 : Byte).toNat ≤ 256 := ⟨rfl, ⟨by decide, by decide⟩, by decide⟩

theorem witness_ManchesterFaults :
    let s := running 0x51000000 (radio .standby [0x55, 0x5B, 0x55])
    (Running s ∧ 256 < (0xFF : Byte).toNat + (3 : Byte).toNat) ∧
    ((0x00 : Byte).toNat + (4 : Byte).toNat ≤ 256 ∧
      ∃ i, i < (4 : Byte).toNat ∧ bufRead s.buf (0x00 + BitVec.ofNat 8 i) = none) ∧
    (RegionReadable s 0x00 (3 : Byte).toNat ∧ (3 : Byte).toNat % 2 = 1) ∧
    (RegionReadable s 0x00 (2 : Byte).toNat ∧ (2 : Byte).toNat % 2 = 0 ∧
      ¬ RegionIsManchester s 0x00 (2 : Byte).toNat) ∧
    (256 < (0x00 : Byte).toNat + 2 * (129 : Byte).toNat) ∧
    ((0x00 : Byte).toNat + (4 : Byte).toNat ≤ 256 ∧ (0x10 : Byte).toNat + 2 * (4 : Byte).toNat ≤ 256) :=
  ⟨⟨⟨rfl, rfl⟩, by decide⟩, ⟨by decide, 3, by decide, by decide⟩, ⟨⟨by decide, by decide⟩, by decide⟩,
    ⟨⟨by decide, by decide⟩, by decide,
      fun h => absurd (h 1 0x5B (by decide) (by decide)) (by unfold legalNibbleValue; decide)⟩,
    by decide, by decide, by decide⟩

theorem witness_EncodeThenDecodeRoundTrip :
    (radio .standby [0x12, 0x34]).pend = none ∧ RegionReadable (radio .standby [0x12, 0x34]) 0x00 (2 : Byte).toNat ∧
    2 * (2 : Byte).toNat ≤ 255 ∧ (0x00 : Byte).toNat + 2 * (2 : Byte).toNat ≤ 256 :=
  ⟨rfl, ⟨by decide, by decide⟩, by decide, by decide⟩

theorem witness_SingleNibbleSensitivity :
    let s := running 0x51000010 (radio .standby capture)
    (s.pend = none ∧ Running s ∧ RegionReadable s 0x00 (16 : Byte).toNat ∧
      RegionIsManchester s 0x00 (16 : Byte).toNat) ∧
    (15 < (16 : Byte).toNat ∧
      ¬ (legalNibbleValue ((0x57 : Byte).extractLsb' 4 4) ∧ legalNibbleValue ((0x57 : Byte).extractLsb' 0 4))) :=
  ⟨⟨rfl, ⟨rfl, rfl⟩, readable_capture, manchester_capture⟩, by decide, by unfold legalNibbleValue; decide⟩

theorem witness_StepKeepsInvariant : holding.Inv ∧ ∃ t, step holding = .next t :=
  ⟨⟨by decide, by decide, by decide, by decide, by decide, by decide, by decide, by decide,
    ⟨.ok, by decide, by decide⟩, nofun⟩, _, rfl⟩

/-- In the middle of a bit, before the active clock edge, on a bus with CPOL = 1. -/
theorem witness_StepKeepsBusInvariant :
    let s := { running 0x2A000001 (bus true false false) with
      agenda := [.drive .sclk false, .sampleRx, .drive .sclk true, .finish .ok 0] }
    s.BusInv ∧ ∃ t, step s = .next t :=
  ⟨⟨by decide, nofun, fun _ => ⟨by decide, by decide, by decide, by decide⟩⟩, _, rfl⟩

end Sys2Proof.Tests
end

/-! Faults at acceptance, ticks, the bytes a sequence of stores writes, and the fields no step but a reset
writes; with the statements they settle. -/

namespace Sys2Proof.Machine

/-! ### Faults at acceptance (60_exceptions.md R204) -/

/-- With no host fault latched, completing a command raises no fault (R205). -/
theorem finish_faulted_of_quiet (code : Code) (r : Word) {s : State} (h : s.pend = none) :
    (finish code r s).status.faulted = s.status.faulted := by
  rw [finish_quiet code r h]
  rfl

/-- Settles O14: of the outcomes of a command at its acceptance, only `raise` sets FAULTED. -/
theorem commandFaultsArePrecise : Obligations.CommandFaultsArePrecise := by
  intro i s t hrun hquiet hexec
  have ends : ∀ (code : Code) (r : Word) (u : State), u.pend = none → u.status.faulted = false →
      (finish code r u).status.faulted = true → ∃ cause, finish code r u = faultedWith cause s := by
    intro code r u hpend hok hfault
    rw [finish_faulted_of_quiet code r hpend, hok] at hfault
    exact absurd hfault Bool.false_ne_true
  refine exec_induction i s t (fun u => u.status.faulted = true → ∃ cause, u = faultedWith cause s) hexec
    ?raises ?ends ?stores ?setsTime ?configures ?selects ?launches
  case raises => exact fun cause _ => ⟨cause, raise_running cause hrun⟩
  case ends => exact fun code r _ => ends code r s hquiet hrun.2
  case stores => exact fun code r m _ _ => ends code r { s with buf := m } hquiet hrun.2
  case setsTime => exact fun v _ => ends .ok 0 { s with t := v } hquiet hrun.2
  case configures => exact fun _ _ _ _ => ends .ok 0 _ hquiet hrun.2
  case selects => exact fun l _ => ends .ok 0 (drive .cs l s) hquiet hrun.2
  case launches =>
    intro acts _ hfault
    rw [launch_status, hrun.2] at hfault
    exact absurd hfault Bool.false_ne_true

/-! ### Ticks (00_scope.md R13) -/

/-- A tick of an idle sequencer changes T and NOW only. -/
theorem tick_of_idle {s : State} (h : s.agenda = []) : tick s = { s with t := s.t + 1, now := s.now + 1 } := by
  simp [tick, release, h]

/-- A tick takes the `await_tick()` off the agenda of a sequencer that holds there. -/
theorem tick_of_waiting {s : State} {rest : List Act} (h : s.agenda = .awaitTick :: rest) :
    tick s = { s with t := s.t + 1, now := s.now + 1, agenda := rest } := by
  simp [tick, release, h]

/-- Settles O17: with no input waiting, the step on the host's turn is a tick. -/
theorem tickAdvancesTime : Obligations.TickAdvancesTime := by
  intro s hturn hinputs
  rw [step_tick hinputs hturn]
  exact ⟨fun h => by rw [tick_of_idle h], fun rest h => by rw [tick_of_waiting h]⟩

/-! ### Sequences of stores (20_memory.md R54, 41_spi.md R127) -/

/-- The address `i + 1` past `b` is the one `i` past its successor. -/
theorem address_succ (b : Byte) (i : Nat) : b + BitVec.ofNat 8 (i + 1) = b + 1 + BitVec.ofNat 8 i := by
  rw [Nat.add_comm i 1, BitVec.ofNat_add, ← BitVec.add_assoc]
  rfl

/-- A sequence of stores leaves every address outside its region alone. -/
theorem bufRead_bufWriteAll_outside (bs : List Byte) (m : Memory) (b a : Byte)
    (h : ∀ i, i < bs.length → a ≠ b + BitVec.ofNat 8 i) : bufRead (bufWriteAll m b bs) a = bufRead m a := by
  induction bs generalizing m b with
  | nil => rfl
  | cons x rest ih =>
    have hfirst : a ≠ b := by simpa using h 0 (by simp)
    have hrest : ∀ i, i < rest.length → a ≠ b + 1 + BitVec.ofNat 8 i := fun i hi =>
      address_succ b i ▸ h (i + 1) (by simpa using hi)
    calc bufRead (bufWriteAll (bufWrite m b x) (b + 1) rest) a
        = bufRead (bufWrite m b x) a := ih _ _ hrest
      _ = bufRead m a := bufRead_bufWrite_other m b a x hfirst

/-- At most 256 stores reach as many different addresses, so each stored byte stands. -/
theorem bufRead_bufWriteAll_inside (bs : List Byte) (m : Memory) (b : Byte) (hlen : bs.length ≤ 256) (i : Nat)
    (x : Byte) (hx : bs[i]? = some x) : bufRead (bufWriteAll m b bs) (b + BitVec.ofNat 8 i) = some x := by
  induction bs generalizing m b i with
  | nil => simp at hx
  | cons y rest ih =>
    rw [List.length_cons] at hlen
    cases i with
    | zero =>
      have hxy : y = x := by simpa using hx
      have hlater : ∀ j, j < rest.length → b ≠ b + 1 + BitVec.ofNat 8 j := by
        intro j hj
        bv_omega
      calc bufRead (bufWriteAll (bufWrite m b y) (b + 1) rest) (b + BitVec.ofNat 8 0)
          = bufRead (bufWriteAll (bufWrite m b y) (b + 1) rest) b := by simp
        _ = bufRead (bufWrite m b y) b := bufRead_bufWriteAll_outside rest _ _ b hlater
        _ = some x := by rw [bufRead_bufWrite_same, hxy]
    | succ j =>
      rw [address_succ]
      exact ih _ _ (by omega) j (by simpa using hx)

/-- A sequence of stores that fits in BUF stores its bytes and nothing else. -/
theorem storesExactly_bufWriteAll (m : Memory) (b : Byte) (bs : List Byte) (hlen : bs.length ≤ 256) :
    storesExactly m (bufWriteAll m b bs) b bs :=
  ⟨bufRead_bufWriteAll_inside bs m b hlen, fun a => bufRead_bufWriteAll_outside bs m b a⟩

/-- `spi_byte` does not store. -/
@[simp] theorem afterByte_buf (tx rx : Byte) (s : State) : (afterByte tx rx s).buf = s.buf := rfl

/-- An exchange with an rx buffer stores the received bytes from `b` on. -/
theorem afterExchange_buf_rx (t : Bool) (a b : Byte) (rxs : List Byte) (s : State) :
    (afterExchange t true a b rxs s).buf = bufWriteAll s.buf b rxs := by
  induction rxs generalizing a b s with
  | nil => rfl
  | cons rx rest ih => simp [afterExchange, bufWriteAll, ih]

/-- An exchange without an rx buffer stores nothing. -/
theorem afterExchange_buf_noRx (t : Bool) (a b : Byte) (rxs : List Byte) (s : State) :
    (afterExchange t false a b rxs s).buf = s.buf := by
  induction rxs generalizing a b s with
  | nil => rfl
  | cons rx rest ih => simp [afterExchange, ih]

/-- Settles O28: an exchange with an rx buffer is a sequence of stores on BUF. -/
theorem storedBytes : Obligations.StoredBytes := by
  intro b bs hfits
  have hstores : ∀ m : Memory, storesExactly m (bufWriteAll m b bs) b bs := fun m =>
    storesExactly_bufWriteAll m b bs (by omega)
  refine ⟨hstores, fun t a s => ⟨?_, afterExchange_buf_noRx t a b bs s⟩⟩
  rw [afterExchange_buf_rx]
  exact hstores s.buf

/-! ### The parameters and BUSCFG (00_scope.md R7, R8; 10_state.md R30) -/

/-- `t` has the parameters of `s`, and its BUSCFG where `s` has it configured. -/
def KeepsConfig (s t : State) : Prop := t.par = s.par ∧ (s.busCfg.configured = true → t.busCfg = s.busCfg)

/-- What keeps the parameters and BUSCFG whatever its value keeps a configured one. -/
theorem Kept.keepsConfig {s t : State} (h : Kept t s) : KeepsConfig s t := ⟨h.par, fun _ => h.busCfg⟩

/-- Completion keeps the configuration. -/
theorem finish_keepsConfig (code : Code) (r : Word) (s : State) : KeepsConfig s (finish code r s) :=
  (finish_frame code r s).1.keepsConfig

/-- Fault entry keeps the configuration. -/
theorem raise_keepsConfig (cause : Cause) (s : State) : KeepsConfig s (raise cause s) :=
  (raise_frame cause s).1.keepsConfig

/-- An action of the sequencer keeps the configuration. -/
theorem perform_keepsConfig (a : Act) (s : State) : KeepsConfig s (perform a s) := by
  obtain ⟨hpar, -, -, hbus, -⟩ := perform_frame a s
  exact ⟨hpar, fun _ => hbus⟩

/-- An input event other than a reset keeps the configuration. -/
theorem applyInput_keepsConfig (i : Input) (s : State) (h : i ≠ .reset) : KeepsConfig s (applyInput i s) := by
  by_cases htick : i = .tick
  · subst htick
    exact ⟨tick_par s, fun _ => tick_busCfg s⟩
  · exact (applyInput_frame i s htick h).1.keepsConfig

/-- A command keeps the configuration at its acceptance: only SPI.INIT writes BUSCFG, and it faults on a configured bus
(41_spi.md R120). -/
theorem exec_keepsConfig {i : Instr} {s t : State} (h : exec i s = .next t) : KeepsConfig s t := by
  refine exec_induction i s t (KeepsConfig s) h ?raises ?ends ?stores ?setsTime ?configures ?selects ?launches
  case raises => exact fun cause => raise_keepsConfig cause s
  case ends => exact fun code r _ => finish_keepsConfig code r s
  case stores => exact fun code r m _ _ => finish_keepsConfig code r { s with buf := m }
  case setsTime => exact fun v _ => finish_keepsConfig .ok 0 { s with t := v }
  case configures =>
    intro cpol cpha cspol hunconfigured
    refine ⟨(finish_frame .ok 0 _).1.par, fun hconfigured => ?_⟩
    rw [hunconfigured] at hconfigured
    exact absurd hconfigured Bool.false_ne_true
  case selects => exact fun l _ => finish_keepsConfig .ok 0 (drive .cs l s)
  case launches => exact fun acts _ => ⟨launch_par s acts, fun _ => launch_busCfg s acts⟩

/-- Settles O50, by the kinds of step: a reset keeps the parameters, every other kind keeps the configuration. -/
theorem busConfigImmutable : Obligations.BusConfigImmutable := by
  intro s t hstep
  have settles : KeepsConfig s t → t.par = s.par ∧ (NoReset s → s.busCfg.configured = true → t.busCfg = s.busCfg) :=
    fun ⟨hpar, hbus⟩ => ⟨hpar, fun _ => hbus⟩
  rcases step_moves hstep with ⟨rest, hreset, rfl⟩ | ⟨-, a, rest, -, -, rfl⟩ | ⟨-, -, i, rest, hi, -, rfl⟩ |
    ⟨-, -, -, w, rest, -, ⟨i, -, hexec⟩ | ⟨cause, rfl⟩⟩
  · exact ⟨resetEvent_par _, fun hno => absurd hreset (hno rest)⟩
  · exact settles (perform_keepsConfig a { s with agenda := rest })
  · exact settles (applyInput_keepsConfig i { s with inputs := rest } hi)
  · exact settles (exec_keepsConfig (s := acceptedWord w { s with inputs := rest }) hexec)
  · exact settles (raise_keepsConfig cause (acceptedWord w { s with inputs := rest }))

end Sys2Proof.Machine

/-! Host accesses as whole steps, what a command starts, what an action puts in front of the agenda, and the
invariants every step keeps; with the statements they settle. -/

namespace Sys2Proof.Machine

/-! ### Host accesses as steps (10_state.md R23, 20_memory.md R55, 70_reset_and_hazards.md R241) -/

/-- An input that is not a reset is next. -/
theorem noReset_of_cons {s : State} {i : Input} {rest : List Input} (h : s.inputs = i :: rest) (hi : i ≠ .reset) :
    NoReset s := by
  intro rest' h'
  rw [h] at h'
  exact hi (List.cons.inj h').1

/-- On the host's turn, a write of CMD that comes next is a command exactly when the core accepts one. -/
theorem nextMove_commandWrite {s : State} {w : Word} {rest : List Input} (hturn : HostTurn s)
    (hin : s.inputs = .write 32 0x100 w :: rest) :
    nextMove s = if acceptsCommand s then .command w { s with inputs := rest }
      else .event (.write 32 0x100 w) { s with inputs := rest } := by
  rw [nextMove_hostTurn (noReset_of_cons hin nofun) hturn]
  simp only [inputMove, hin, hostWriteMove]
  have hport : portOf 32 0x100 = .cmd := rfl
  simp only [hport, true_and]
  rfl

/-- The core accepts a command exactly when it is idle and not faulted. -/
theorem acceptsCommand_iff (s : State) : acceptsCommand s = true ↔ Idle s := by
  simp [acceptsCommand, Idle, and_comm]

/-- A word written on an accepting core is accepted. -/
theorem nextMove_of_idle {s : State} {w : Word} {rest : List Input} (hidle : Idle s) (hturn : HostTurn s)
    (hin : s.inputs = .write 32 0x100 w :: rest) : nextMove s = .command w { s with inputs := rest } := by
  rw [nextMove_commandWrite hturn hin, if_pos ((acceptsCommand_iff s).2 hidle)]

/-- A word written on a core that does not accept it is rejected. -/
theorem step_of_rejected {s : State} {w : Word} {rest : List Input} (hidle : ¬ Idle s) (hturn : HostTurn s)
    (hin : s.inputs = .write 32 0x100 w :: rest) :
    step s = .next (hostWriteCmdRejected w { s with inputs := rest }) := by
  have hmove := nextMove_commandWrite hturn hin
  rw [if_neg (fun h => hidle ((acceptsCommand_iff s).1 h))] at hmove
  simp only [step, hmove]
  rfl

/-- A read on the host's turn. -/
theorem step_of_read {s : State} {width : Nat} {off : BitVec 9} {rest : List Input} (hturn : HostTurn s)
    (hin : s.inputs = .read width off :: rest) : step s = .next (hostRead width off { s with inputs := rest }) := by
  have hmove : nextMove s = .event (.read width off) { s with inputs := rest } := by
    rw [nextMove_hostTurn (noReset_of_cons hin nofun) hturn]
    simp only [inputMove, hin]
  simp only [step, hmove]
  rfl

/-- Latching on a core with no host fault latched. -/
theorem latch_first (cause : Cause) (w : Word) {s : State} (h : s.pend = none) :
    latch cause w s = { s with pend := some { cause := cause, word := w } } := by
  simp only [latch, h]

/-- Only the first host fault of a busy period is latched. -/
theorem latch_later (cause : Cause) (w : Word) {s : State} (h : s.pend ≠ none) : latch cause w s = s := by
  cases hp : s.pend with
  | none => exact absurd hp h
  | some p => simp only [latch, hp]

/-- Settles O6: the written word is the next move, and its acceptance leaves `acceptedWord`. -/
theorem stepRunsDecodedCommand : Obligations.StepRunsDecodedCommand := by
  intro s w i rest hidle hturn hin hdecode
  simp only [step, nextMove_of_idle hidle hturn hin, hdecode, accept_eq]

/-- Settles O7: neither a faulted nor a running core is idle, so the write is rejected. -/
theorem rejectedCommandWrites : Obligations.RejectedCommandWrites := by
  intro s w rest hturn hin
  have rejected : ¬ Idle s → step s = .next (if s.status.faulted then { s with inputs := rest }
      else latch .cmdWhileBusy w { s with inputs := rest }) := fun h => step_of_rejected h hturn hin
  have running : Running s → step s = .next (latch .cmdWhileBusy w { s with inputs := rest }) := by
    intro ⟨hbusy, hok⟩
    rw [rejected (fun h => by simp [h.1] at hbusy), hok]
    rfl
  refine ⟨fun hfaulted => ?_, fun hrun hnone => ?_, fun hrun hsome => ?_⟩
  · rw [rejected (fun h => by simp [h.2] at hfaulted), if_pos hfaulted]
  · rw [running hrun, latch_first (s := { s with inputs := rest }) _ _ hnone]
  · rw [running hrun, latch_later (s := { s with inputs := rest }) _ _ hsome]

/-- The bits of the STATUS word (10_state.md R24). -/
theorem getLsbD_status_word (st : Status) (i : Nat) :
    st.word.getLsbD i =
      if i < 8 then st.code.getLsbD i else if i < 9 then st.busy else if i < 10 then st.faulted else false := by
  unfold Status.word
  rw [BitVec.getLsbD_append, BitVec.getLsbD_append, BitVec.getLsbD_append]
  simp only [BitVec.getLsbD_ofBool]
  by_cases h8 : i < 8
  · simp [h8]
  by_cases h9 : i < 9
  · simp [h8, h9, show i - 8 = 0 by omega]
  by_cases h10 : i < 10
  · simp [h8, h9, h10, show i - 8 = 1 by omega]
  · simp [h8, h9, h10, show ¬ i - 8 < 1 by omega, show ¬ i - 8 - 1 < 1 by omega]

/-- The fields of the STATUS word, every other bit being 0 (10_state.md R24). -/
theorem status_word_fields (st : Status) :
    st.word.extractLsb' 0 8 = st.code ∧ st.word.getLsbD 8 = st.busy ∧ st.word.getLsbD 9 = st.faulted ∧
      ∀ i, 10 ≤ i → st.word.getLsbD i = false := by
  simp only [getLsbD_status_word]
  refine ⟨BitVec.eq_of_getLsbD_eq fun i hi => ?_, rfl, rfl, fun i hi => ?_⟩
  · simp [getLsbD_status_word, hi]
  · simp [show ¬ i < 8 by omega, show ¬ i < 9 by omega, show ¬ i < 10 by omega]

/-- STATUS reads 0 after reset. -/
theorem status_word_reset : ({ code := 0, busy := false, faulted := false } : Status).word = 0 := rfl

/-- Settles O11: each register's offset is its port. -/
theorem hostRegisterReads : Obligations.HostRegisterReads := by
  refine ⟨fun s off v rest hturn hin hmem => ?_, status_word_fields⟩
  rw [step_of_read hturn hin]
  simp only [List.mem_cons, Prod.mk.injEq, List.not_mem_nil, or_false] at hmem
  rcases hmem with ⟨rfl, rfl⟩ | ⟨rfl, rfl⟩ | ⟨rfl, rfl⟩ | ⟨rfl, rfl⟩ | ⟨rfl, rfl⟩ <;> rfl

/-- Settles O16: the reset event leaves R22's values, among them an idle core, which accepts the next command. -/
theorem resetValues : Obligations.ResetValues := by
  refine ⟨⟨rfl, rfl, rfl, rfl, rfl, rfl, rfl, rfl, rfl, rfl, rfl, rfl, rfl, fun _ => rfl, rfl⟩, fun s rest hin => ?_⟩
  have hstep : step s = .next (resetEvent { s with inputs := rest }) := by
    have hmove : nextMove s = .event .reset { s with inputs := rest } := by simp only [nextMove, hin]
    simp only [step, hmove]
    rfl
  exact ⟨_, hstep, rfl, status_word_reset, rfl, rfl, rfl, rfl, rfl, rfl, rfl, rfl, rfl, rfl, rfl, fun _ => rfl, rfl,
    rfl, fun w rest' hrest => nextMove_of_idle ⟨rfl, rfl⟩ (.inl rfl) hrest⟩

/-- Settles O60: nothing is running, latched, driven or recorded after reset. -/
theorem resetMeetsInvariants : Obligations.ResetMeetsInvariants :=
  ⟨⟨reset_buf_wf, rfl, nofun, nofun, rfl, nofun, nofun, fun _ => ⟨by decide, rfl, rfl⟩, ⟨.ok, by decide, rfl⟩, nofun⟩,
    ⟨nofun, fun _ => ⟨rfl, rfl, rfl, nofun⟩, nofun⟩, nofun⟩

/-! ### Time (10_state.md R27, 70_reset_and_hazards.md R241) -/

/-- A command leaves NOW alone at its acceptance, and T as well but for TB.WRITE. -/
theorem exec_time {i : Instr} {s t : State} (h : exec i s = .next t) :
    t.now = s.now ∧ (t.t = s.t ∨ i = .tbWrite t.t) := by
  have same : s.now = s.now ∧ (s.t = s.t ∨ i = .tbWrite s.t) := ⟨rfl, .inl rfl⟩
  have ends : ∀ {code : Code} {r : Word} {u : State}, u.now = s.now ∧ (u.t = s.t ∨ i = .tbWrite u.t) →
      (finish code r u).now = s.now ∧ ((finish code r u).t = s.t ∨ i = .tbWrite (finish code r u).t) := by
    intro code r u hu
    have hk := (finish_frame code r u).1
    rw [hk.now, hk.t]
    exact hu
  refine exec_induction i s t (fun u => u.now = s.now ∧ (u.t = s.t ∨ i = .tbWrite u.t)) h
    ?raises ?ends ?stores ?setsTime ?configures ?selects ?launches
  case raises =>
    intro c
    have hk := (raise_frame c s).1
    exact ⟨hk.now, .inl hk.t⟩
  case ends => exact fun code r _ => ends same
  case stores => exact fun code r m _ _ => ends (u := { s with buf := m }) same
  case setsTime => exact fun v hv => ends (u := { s with t := v }) ⟨rfl, .inr hv⟩
  case configures =>
    intro cpol cpha cspol _
    refine ends ?_
    exact same
  case selects => exact fun l _ => ends (u := drive .cs l s) same
  case launches => exact fun _ _ => same

/-- Settles O18, by the kinds of step: of them only the tick and the acceptance of TB.WRITE touch time. -/
theorem timePassesOnlyInTicks : Obligations.TimePassesOnlyInTicks := by
  intro s t hno hstep
  rcases step_moves hstep with ⟨rest, hreset, -⟩ | ⟨-, a, rest, -, -, rfl⟩ | ⟨-, hturn, i, rest, hi, -, rfl⟩ |
    ⟨-, -, -, w, rest, hin, ⟨i, hdecode, hexec⟩ | ⟨cause, rfl⟩⟩
  · exact absurd hreset (hno rest)
  · obtain ⟨-, ht, hnow, -⟩ := perform_frame a { s with agenda := rest }
    exact .inr ⟨hnow, .inl ht⟩
  · by_cases htick : i = .tick
    · subst htick
      exact .inl ⟨rfl, rfl, hturn⟩
    · have hk := (applyInput_frame i { s with inputs := rest } htick hi).1
      exact .inr ⟨hk.now, .inl hk.t⟩
  · obtain ⟨hnow, ht | hwrite⟩ := exec_time hexec
    · exact .inr ⟨hnow, .inl ht⟩
    · exact .inr ⟨hnow, .inr ⟨t.t, w, rest, hin, hwrite ▸ hdecode, rfl⟩⟩
  · have hk := (raise_frame cause (acceptedWord w { s with inputs := rest })).1
    exact .inr ⟨hk.now, .inl hk.t⟩

/-! ### The agenda of a command at its acceptance (30_encoding.md R72, 60_exceptions.md R207) -/

/-- Completion ends the command. -/
@[simp] theorem finish_agenda (code : Code) (r : Word) (s : State) : (finish code r s).agenda = [] :=
  (finish_frame code r s).2.2

/-- The first fault ends the command. -/
theorem raise_agenda (cause : Cause) {s : State} (h : s.status.faulted = false) : (raise cause s).agenda = [] := by
  simp [raise, h]

/-- The actions a command starts with at `s`, where its checks pass: a bus command's need a configured bus, and
RF.CONFIG's a known profile. -/
inductive Starts (s : State) : Instr → List Act → Prop
  | tbWait (target : Byte) : Starts s (.tbWait target) [.waitUntil target, .finish .ok 0]
  | tbDlyUs (n : BitVec 16) : Starts s (.tbDlyUs n) [.delayUs n.toNat, .finish .ok 0]
  | tbDlyMs (n : BitVec 16) : Starts s (.tbDlyMs n) [.delayMs n.toNat, .finish .ok 0]
  | uartTx (byte : Byte) : Starts s (.uartTx byte) (uartTxActs s.par s.t byte)
  | uartRx : Starts s .uartRx [.uartStart .receive]
  | uartWaitB : Starts s .uartWaitB [.spinWhileHigh]
  | uartBrk (budget : BitVec 24) : Starts s (.uartBrk budget) [.breakLoop budget.toNat 0 s.t]
  | uartNoBrk : Starts s .uartNoBrk [.spinWhileLow]
  | spiXfer (tx : Byte) : s.busCfg.configured = true → Starts s (.spiXfer tx) (spiByte s tx ++ [.finishRx])
  | spiXferB (t r : Bool) (a b count : Byte) : s.busCfg.configured = true →
      Starts s (.spiXferB t r a b count) [.spiBytes t r a b count.toNat, .finish .ok 0]
  | spiFrame (t r : Bool) (a b count : Byte) : s.busCfg.configured = true →
      Starts s (.spiFrame t r a b count)
        [selectAct s, .spiBytes t r a b count.toNat, deselectAct s, .finish .ok 0]
  | rfInit : s.busCfg.configured = true → Starts s .rfInit (regRead s s.par.regVersion ++ [.initCheck])
  | rfMode (mode : Byte) (m : RadioMode) : s.busCfg.configured = true →
      Starts s (.rfMode mode) (setModeSeq s m ++ [.finish .ok 0])
  | rfConfig (p : Byte) (pairs : List (BitVec 7 × Byte)) : s.busCfg.configured = true → p.toNat < s.par.nprofiles →
      Starts s (.rfConfig p) (profileWrites s pairs ++ [.setProfile p, .finish .ok 0])
  | rfTx (a len rep : Byte) : s.busCfg.configured = true →
      Starts s (.rfTx a len rep) (txActs s a len.toNat (repeatCount s.par rep))
  | rfRdy : s.busCfg.configured = true → Starts s .rfRdy (regRead s s.par.regIrqFlags2 ++ [.readyCheck])
  | rfRxF (b maxlen : Byte) : s.busCfg.configured = true →
      Starts s (.rfRxF b maxlen) (fifoRead s b maxlen.toNat ++ [.finish .ok (zext32 maxlen)])
  | rfRxC (b maxlen : Byte) : s.busCfg.configured = true →
      Starts s (.rfRxC b maxlen) ([selectAct s] ++ spiByte s (readAddress s.par s.par.regFifo) ++ spiByte s 0 ++
        [.countedPrefix b maxlen])

/-- `u` is a state in which command `i`, accepted at `s`, has ended or has its actions on the agenda. -/
def EndedOrStarted (s : State) (i : Instr) (u : State) : Prop := u.agenda = [] ∨ Starts s i u.agenda

/-- A checked command faults, and so ends, unless its checks pass. -/
theorem checked_endedOrStarted {s : State} {i : Instr} {checks : List (Option Cause)} {body : State → State}
    (hok : s.status.faulted = false) (h : firstFault checks = none → EndedOrStarted s i (body s)) :
    EndedOrStarted s i (checked checks body s) := by
  rcases checked_cases checks body s with ⟨c, -, hc⟩ | ⟨hpass, hc⟩ <;> rw [hc]
  · exact .inl (raise_agenda c hok)
  · exact h hpass

/-- Where the checks of a bus transfer pass, the bus is configured (41_spi.md R123). -/
theorem configured_of_xferChecks {s : State} {rest : List (Option Cause)}
    (h : firstFault (xferChecks s ++ rest) = none) : s.busCfg.configured = true := by
  have hconf : requireConfigured s = none := (firstFault_eq_none _).1 h _ (by simp [xferChecks])
  cases hc : s.busCfg.configured with
  | true => rfl
  | false => simp [requireConfigured, hc] at hconf

/-- A bus transfer starts only on a configured bus. -/
theorem transfer_endedOrStarted {s : State} {i : Instr} {rest : List (Option Cause)} {acts : State → List Act}
    (hok : s.status.faulted = false) (h : s.busCfg.configured = true → Starts s i (acts s)) :
    EndedOrStarted s i (checked (xferChecks s ++ rest) (fun s => launch (acts s) s) s) :=
  checked_endedOrStarted hok fun hpass => .inr (h (configured_of_xferChecks hpass))

/-- A command has ended or starts its actions when it has been accepted. -/
theorem exec_endedOrStarted {i : Instr} {s t : State} (hok : s.status.faulted = false) (h : exec i s = .next t) :
    EndedOrStarted s i t := by
  have ends : ∀ code r u, EndedOrStarted s i (finish code r u) := fun code r u => .inl (finish_agenda code r u)
  have starts : ∀ {acts}, Starts s i acts → EndedOrStarted s i (launch acts s) := .inr
  cases i <;> obtain rfl := Host.Outcome.next.inj h
  case tbRead => exact ends _ _ _
  case tbWrite v => exact ends _ _ _
  case tbDiff earlier later => exact ends _ _ _
  case tbWait target => exact starts (.tbWait target)
  case tbDlyUs n => exact starts (.tbDlyUs n)
  case tbDlyMs n => exact starts (.tbDlyMs n)
  case uartTx byte => exact starts (.uartTx byte)
  case uartRx => exact starts .uartRx
  case uartWaitB => exact starts .uartWaitB
  case uartBrk budget => exact starts (.uartBrk budget)
  case uartNoBrk => exact starts .uartNoBrk
  case spiInit cpol cpha cspol => exact checked_endedOrStarted hok fun _ => ends _ _ _
  case spiSel => exact checked_endedOrStarted hok fun _ => ends _ _ _
  case spiDesel => exact checked_endedOrStarted hok fun _ => ends _ _ _
  case spiXfer tx => exact transfer_endedOrStarted (rest := []) hok (.spiXfer tx)
  case spiXferB t r a b count =>
    exact transfer_endedOrStarted (acts := fun _ => [.spiBytes t r a b count.toNat, .finish .ok 0]) hok
      (.spiXferB t r a b count)
  case spiFrame t r a b count => exact transfer_endedOrStarted hok (.spiFrame t r a b count)
  case rfInit => exact transfer_endedOrStarted (rest := []) hok .rfInit
  case rfMode mode =>
    split
    · exact ends _ _ _
    · exact transfer_endedOrStarted (rest := []) hok (.rfMode mode _)
  case rfConfig p =>
    cases hp : s.par.profiles[p.toNat]? with
    | none => exact ends _ _ _
    | some pairs =>
      have hknown : p.toNat < s.par.nprofiles := (List.getElem?_eq_some_iff.1 hp).1
      simp only
      split
      · exact ends _ _ _
      · exact transfer_endedOrStarted (rest := []) hok fun hc => .rfConfig p pairs hc hknown
  case rfTx a len rep =>
    split
    · exact ends _ _ _
    · split
      · exact ends _ _ _
      · exact transfer_endedOrStarted hok (.rfTx a len rep)
  case rfRdy => exact transfer_endedOrStarted hok .rfRdy
  case rfRxF b maxlen =>
    split
    · exact ends _ _ _
    · exact transfer_endedOrStarted hok (.rfRxF b maxlen)
  case rfRxC b maxlen => exact transfer_endedOrStarted hok (.rfRxC b maxlen)
  case mcValid b size =>
    refine checked_endedOrStarted hok fun _ => ?_
    split
    · exact ends _ _ _
    · exact ends _ _ _
  case mcDecode b size => exact checked_endedOrStarted hok fun _ => ends _ _ _
  case mcEncode a b size => exact checked_endedOrStarted hok fun _ => ends _ _ _

/-! ### The action lists of the bus: exchanges and radio frames (41_spi.md R124, 43_radio.md R161 to R166) -/

/-- SPI bytes finish no command. -/
@[simp] theorem spiByte_inRange (par : Params) (s : State) (tx : Byte) :
    (spiByte s tx).all (Act.inRange par) = true := by
  simp [spiByte, spiBit, Act.inRange]

/-- SPI bytes are no radio actions. -/
@[simp] theorem spiByte_any_isRadio (s : State) (tx : Byte) : (spiByte s tx).any Act.isRadio = false := by
  simp [spiByte, spiBit, Act.isRadio]

@[simp] theorem regRead_inRange (par : Params) (s : State) (reg : BitVec 7) :
    (regRead s reg).all (Act.inRange par) = true := by
  simp [regRead, selectAct, deselectAct, Act.inRange]

@[simp] theorem regWrite_inRange (par : Params) (s : State) (reg : BitVec 7) (v : Byte) :
    (regWrite s reg v).all (Act.inRange par) = true := by
  simp [regWrite, selectAct, deselectAct, Act.inRange]

@[simp] theorem fifoRead_inRange (par : Params) (s : State) (p : Byte) (n : Nat) :
    (fifoRead s p n).all (Act.inRange par) = true := by
  simp [fifoRead, selectAct, deselectAct, Act.inRange]

@[simp] theorem setModeSeq_inRange (par : Params) (s : State) (m : RadioMode) :
    (setModeSeq s m).all (Act.inRange par) = true := by
  cases m <;> simp [setModeSeq, Act.inRange]

@[simp] theorem txSwitch_inRange (par : Params) (s : State) : (txSwitch s).all (Act.inRange par) = true := by
  unfold txSwitch
  split <;> simp

@[simp] theorem txRestore_inRange (par : Params) (s : State) : (txRestore s).all (Act.inRange par) = true := by
  unfold txRestore
  split <;> simp

@[simp] theorem profileWrites_inRange (par : Params) (s : State) (pairs : List (BitVec 7 × Byte)) :
    (profileWrites s pairs).all (Act.inRange par) = true := by
  simp only [profileWrites, List.all_flatMap, regWrite_inRange]
  simp

/-- In front of other actions, an action does not matter for how the agenda ends. -/
theorem endsCommand_cons (a : Act) {acts : List Act} (h : acts ≠ []) : endsCommand (a :: acts) = endsCommand acts := by
  cases acts with
  | nil => exact absurd rfl h
  | cons b rest => rfl

/-- How an agenda ends is decided by its last part. -/
theorem endsCommand_append (front : List Act) {acts : List Act} (h : acts ≠ []) :
    endsCommand (front ++ acts) = endsCommand acts := by
  induction front with
  | nil => rfl
  | cons a rest ih => rw [List.cons_append, endsCommand_cons a (by simp [h]), ih]

/-- What a command starts keeps to the rules' ranges. -/
theorem Starts.inRange {s : State} {i : Instr} {acts : List Act} (h : Starts s i acts) :
    acts.all (Act.inRange s.par) = true := by
  cases h <;> simp_all [uartTxActs, txActs, selectAct, deselectAct, Act.inRange]

/-- What a command starts ends the command. -/
theorem Starts.endsCommand {s : State} {i : Instr} {acts : List Act} (h : Starts s i acts) :
    endsCommand acts = true := by
  cases h <;>
    simp [uartTxActs, txActs, endsCommand_append, endsCommand_cons, Sys2Proof.Machine.endsCommand, Act.endsCommand]

/-- Only a radio command starts radio actions. -/
theorem Starts.radio {s : State} {i : Instr} {acts : List Act} {w : Word} (h : Starts s i acts)
    (hradio : acts.any Act.isRadio = true) (hw : decode w = .ok i) : isRadioWord w = true := by
  cases h <;> simp_all [isRadioWord, uartTxActs, selectAct, deselectAct, Act.isRadio]

/-! ### SCLK over a list of actions (41_spi.md R131) -/

/-- Actions that leave SCLK idle may stand before others. -/
theorem clockReturns_append {cpol idle : Bool} {acts : List Act} (rest : List Act)
    (h : clockReturns cpol idle acts = true) :
    clockReturns cpol idle (acts ++ rest) = clockReturns cpol true rest := by
  fun_induction clockReturns cpol idle acts <;> simp_all [clockReturns]

/-- An action that neither drives SCLK nor samples MISO is performed with SCLK idle. -/
theorem clockReturns_cons {a : Act} (cpol idle : Bool) (rest : List Act) (hdrive : ∀ l, a ≠ .drive .sclk l)
    (hsample : a ≠ .sampleRx) : clockReturns cpol idle (a :: rest) = (idle && clockReturns cpol true rest) := by
  rw [clockReturns]
  · exact hdrive
  · exact hsample

/-- Actions off the bus leave SCLK alone. -/
theorem clockReturns_of_offBus (cpol : Bool) {acts : List Act} (h : acts.all Act.offBus = true) :
    clockReturns cpol true acts = true := by
  induction acts with
  | nil => rfl
  | cons a rest ih =>
    rw [List.all_cons, Bool.and_eq_true] at h
    obtain ⟨ha, hrest⟩ := h
    rw [clockReturns_cons cpol true rest (by rintro l rfl; cases ha) (by rintro rfl; cases ha), ih hrest]
    rfl

/-- A byte leaves SCLK idle: each of its bits drives it active, samples, and drives it back (41_spi.md R124). -/
@[simp] theorem clockReturns_spiByte_append (s : State) (tx : Byte) (rest : List Act) :
    clockReturns s.busCfg.cpol true (spiByte s tx ++ rest) = clockReturns s.busCfg.cpol true rest :=
  clockReturns_append rest (by simp [spiByte, spiBit, clockReturns])

@[simp] theorem clockReturns_regRead_append (s : State) (reg : BitVec 7) (rest : List Act) :
    clockReturns s.busCfg.cpol true (regRead s reg ++ rest) = clockReturns s.busCfg.cpol true rest := by
  simp [regRead, selectAct, deselectAct, clockReturns]

@[simp] theorem clockReturns_regWrite_append (s : State) (reg : BitVec 7) (v : Byte) (rest : List Act) :
    clockReturns s.busCfg.cpol true (regWrite s reg v ++ rest) = clockReturns s.busCfg.cpol true rest := by
  simp [regWrite, selectAct, deselectAct, clockReturns]

@[simp] theorem clockReturns_fifoRead_append (s : State) (p : Byte) (n : Nat) (rest : List Act) :
    clockReturns s.busCfg.cpol true (fifoRead s p n ++ rest) = clockReturns s.busCfg.cpol true rest := by
  simp [fifoRead, selectAct, deselectAct, clockReturns]

@[simp] theorem clockReturns_fifoWrite_append (s : State) (p : Byte) (n : Nat) (rest : List Act) :
    clockReturns s.busCfg.cpol true (fifoWrite s p n ++ rest) = clockReturns s.busCfg.cpol true rest := by
  simp [fifoWrite, selectAct, deselectAct, clockReturns]

@[simp] theorem clockReturns_setModeSeq_append (s : State) (m : RadioMode) (rest : List Act) :
    clockReturns s.busCfg.cpol true (setModeSeq s m ++ rest) = clockReturns s.busCfg.cpol true rest := by
  cases m <;> simp [setModeSeq, clockReturns]

@[simp] theorem clockReturns_txSwitch_append (s : State) (rest : List Act) :
    clockReturns s.busCfg.cpol true (txSwitch s ++ rest) = clockReturns s.busCfg.cpol true rest := by
  unfold txSwitch
  split <;> simp

@[simp] theorem clockReturns_txRestore_append (s : State) (rest : List Act) :
    clockReturns s.busCfg.cpol true (txRestore s ++ rest) = clockReturns s.busCfg.cpol true rest := by
  unfold txRestore
  split <;> simp

@[simp] theorem clockReturns_profileWrites_append (s : State) (pairs : List (BitVec 7 × Byte)) (rest : List Act) :
    clockReturns s.busCfg.cpol true (profileWrites s pairs ++ rest) = clockReturns s.busCfg.cpol true rest := by
  induction pairs with
  | nil => rfl
  | cons av pairs ih =>
    calc clockReturns s.busCfg.cpol true (profileWrites s (av :: pairs) ++ rest)
        = clockReturns s.busCfg.cpol true (profileWrites s pairs ++ rest) := by simp [profileWrites]
      _ = clockReturns s.busCfg.cpol true rest := ih

/-- Actions that are safe on a bus with configuration `cfg` and SCLK idle: before SPI.INIT they stay off the bus, after
it they leave SCLK idle. -/
def SafeActs (cfg : BusCfg) (acts : List Act) : Prop :=
  (cfg.configured = false → acts.all Act.offBus = true) ∧
  (cfg.configured = true → clockReturns cfg.cpol true acts = true)

/-- No actions are safe. -/
theorem SafeActs.nil (cfg : BusCfg) : SafeActs cfg [] := ⟨fun _ => rfl, fun _ => rfl⟩

/-- Actions off the bus are safe. -/
theorem SafeActs.of_offBus (cfg : BusCfg) {acts : List Act} (h : acts.all Act.offBus = true) : SafeActs cfg acts :=
  ⟨fun _ => h, fun _ => clockReturns_of_offBus cfg.cpol h⟩

/-- On a configured bus, actions that leave SCLK idle are safe. -/
theorem SafeActs.of_configured {cfg : BusCfg} {acts : List Act} (hc : cfg.configured = true)
    (h : clockReturns cfg.cpol true acts = true) : SafeActs cfg acts :=
  ⟨fun hno => by simp [hc] at hno, fun _ => h⟩

/-- What a command starts is safe. -/
theorem Starts.safeActs {s : State} {i : Instr} {acts : List Act} (h : Starts s i acts) : SafeActs s.busCfg acts := by
  have offBus : ∀ {acts}, acts.all Act.offBus = true → SafeActs s.busCfg acts := SafeActs.of_offBus _
  have onBus : ∀ {acts}, s.busCfg.configured = true → clockReturns s.busCfg.cpol true acts = true →
      SafeActs s.busCfg acts := SafeActs.of_configured
  cases h
  case tbWait => exact offBus rfl
  case tbDlyUs => exact offBus rfl
  case tbDlyMs => exact offBus rfl
  case uartTx => exact offBus rfl
  case uartRx => exact offBus rfl
  case uartWaitB => exact offBus rfl
  case uartBrk => exact offBus rfl
  case uartNoBrk => exact offBus rfl
  case spiXfer hc => exact onBus hc (by simp [clockReturns])
  case spiXferB hc => exact onBus hc rfl
  case spiFrame hc => exact onBus hc rfl
  case rfInit hc => exact onBus hc (by simp [clockReturns])
  case rfMode hc => exact onBus hc (by simp [clockReturns])
  case rfConfig hc _ => exact onBus hc (by simp [clockReturns])
  case rfTx hc => exact onBus hc (by simp [txActs, clockReturns])
  case rfRdy hc => exact onBus hc (by simp [clockReturns])
  case rfRxF hc => exact onBus hc (by simp [clockReturns])
  case rfRxC hc => exact onBus hc (by simp [selectAct, clockReturns])

/-! ### The machine's invariant -/

/-- FAULT holds the value of a cause in a nonzero form only (60_exceptions.md R202). -/
theorem zext32_cause_ne_zero (c : Cause) : zext32 c.value ≠ 0 := by cases c <;> decide

/-- Only the code FAULT has the value 0xFF (60_exceptions.md R200). -/
theorem code_value_ne_fault {c : Code} (h : c ≠ .fault) : c.value ≠ 0xFF := by
  cases c
  case fault => exact absurd rfl h
  all_goals decide

/-- R200's table lists every code. -/
theorem mem_code_all (c : Code) : c ∈ Code.all := by cases c <;> decide

/-- The registers of a core that has not faulted, whatever it is doing: the invariant but for BUSY, PEND and the
agenda. -/
def Unfaulted (s : State) : Prop :=
  s.buf.wf = true ∧ s.status.faulted = false ∧ s.status.code ≠ 0xFF ∧ s.fault = 0 ∧ s.fcmd = 0 ∧
  (∃ c ∈ Code.all, s.status.code = c.value) ∧ ∀ p, s.profile = some p → p.toNat < s.par.nprofiles

/-- A core that has not faulted has the registers of one. -/
theorem State.Inv.unfaulted {s : State} (h : s.Inv) (hok : s.status.faulted = false) : Unfaulted s := by
  obtain ⟨hbuf, -, -, -, -, -, -, hclear, hcode, hprofile⟩ := h
  obtain ⟨hcode', hfault, hfcmd⟩ := hclear hok
  exact ⟨hbuf, hok, hcode', hfault, hfcmd, hcode, hprofile⟩

/-- BUSY says whether the agenda holds an action. -/
theorem State.Inv.busy {s : State} (h : s.Inv) : s.status.busy = !s.agenda.isEmpty := by
  obtain ⟨-, hbusy, -⟩ := h
  exact hbusy

/-- A running command has not faulted. -/
theorem State.Inv.running {s : State} (h : s.Inv) (hbusy : s.status.busy = true) : Running s := by
  obtain ⟨-, -, hfaulted, -⟩ := h
  refine ⟨hbusy, ?_⟩
  cases hf : s.status.faulted with
  | false => rfl
  | true => exact absurd hbusy (by simp [hfaulted hf])

/-- An idle core has no actions left and no host fault latched. -/
theorem State.Inv.idle {s : State} (h : s.Inv) (hidle : Idle s) : s.agenda = [] ∧ s.pend = none := by
  obtain ⟨-, hbusy, -, hpend, -⟩ := h
  obtain ⟨hnot, -⟩ := hidle
  refine ⟨by simpa [hnot] using hbusy, ?_⟩
  by_contra hsome
  simp [hpend hsome] at hnot

/-- What an action may change beside the agenda keeps the registers of a core that has not faulted. -/
theorem Unfaulted.of_alike {u s : State} (h : Unfaulted s) (ha : Alike u s) : Unfaulted u := by
  obtain ⟨hbuf, hok, hcode, hfault, hfcmd, hknown, hprofile⟩ := h
  refine ⟨ha.buf hbuf, ?_, ?_, ha.fault.trans hfault, ha.fcmd.trans hfcmd, ?_, ha.profile hprofile⟩ <;>
    rwa [ha.status]

/-- A running command whose actions end it meets the invariant. -/
theorem Unfaulted.inv_running {s : State} (h : Unfaulted s) (hbusy : s.status.busy = true) (hne : s.agenda ≠ [])
    (hends : endsCommand s.agenda = true) (hrange : s.agenda.all (Act.inRange s.par) = true) : s.Inv := by
  obtain ⟨hbuf, hok, hcode, hfault, hfcmd, hknown, hprofile⟩ := h
  refine ⟨hbuf, ?_, ?_, fun _ => hbusy, hends, List.all_eq_true.1 hrange, ?_, fun _ => ⟨hcode, hfault, hfcmd⟩, hknown,
    hprofile⟩
  · simp [hbusy, hne]
  · simp [hok]
  · simp [hok]

/-- A core with no command running meets the invariant once its fault registers say whether it has faulted. -/
theorem inv_stopped {s : State} (hbuf : s.buf.wf = true) (hidle : s.status.busy = false) (hagenda : s.agenda = [])
    (hpend : s.pend = none) (hfault : s.status.faulted = true → s.status.code = 0xFF ∧ s.fault ≠ 0)
    (hok : s.status.faulted = false → s.status.code ≠ 0xFF ∧ s.fault = 0 ∧ s.fcmd = 0)
    (hknown : ∃ c, s.status.code = Code.value c)
    (hprofile : ∀ p, s.profile = some p → p.toNat < s.par.nprofiles) : s.Inv := by
  obtain ⟨c, hc⟩ := hknown
  refine ⟨hbuf, ?_, fun _ => hidle, ?_, ?_, ?_, hfault, hok, ⟨c, mem_code_all c, hc⟩, hprofile⟩
  · simp [hidle, hagenda]
  · simp [hpend]
  · simp [hagenda, endsCommand]
  · simp [hagenda]

/-- Completion reaches the invariant: with its own code, or with the latched host fault's (60_exceptions.md R205). -/
theorem Unfaulted.inv_finish {s : State} (h : Unfaulted s) {code : Code} (hcode : code ≠ .fault) (r : Word) :
    (finish code r s).Inv := by
  obtain ⟨hbuf, hok, -, hfault, hfcmd, -, hprofile⟩ := h
  cases hp : s.pend with
  | none =>
    rw [finish_quiet code r hp]
    exact inv_stopped hbuf rfl rfl hp (fun hf => absurd hf (by simp [completedWith, hok]))
      (fun _ => ⟨code_value_ne_fault hcode, hfault, hfcmd⟩) ⟨code, rfl⟩ hprofile
  | some p =>
    rw [finish_pending code r hp]
    exact inv_stopped hbuf rfl rfl rfl (fun _ => ⟨rfl, zext32_cause_ne_zero _⟩) nofun ⟨.fault, rfl⟩ hprofile

/-- Fault entry reaches the invariant, from a running command and from an idle core (60_exceptions.md R204). -/
theorem Unfaulted.inv_raise {s : State} (h : Unfaulted s) (cause : Cause) : (raise cause s).Inv := by
  obtain ⟨hbuf, hok, -, -, -, -, hprofile⟩ := h
  cases hbusy : s.status.busy with
  | true =>
    rw [raise_running cause ⟨hbusy, hok⟩]
    exact inv_stopped hbuf rfl rfl rfl (fun _ => ⟨rfl, zext32_cause_ne_zero _⟩) nofun ⟨.fault, rfl⟩ hprofile
  | false =>
    rw [raise_idle cause ⟨hbusy, hok⟩]
    exact inv_stopped hbuf rfl rfl rfl (fun _ => ⟨rfl, zext32_cause_ne_zero _⟩) nofun ⟨.fault, rfl⟩ hprofile

/-- Fault entry keeps the invariant: once faulted, it changes nothing. -/
theorem State.Inv.raise {s : State} (h : s.Inv) (cause : Cause) : (raise cause s).Inv := by
  cases hf : s.status.faulted with
  | true => rw [raise_faulted cause hf]; exact h
  | false => exact (h.unfaulted hf).inv_raise cause

/-- Latching a host fault while a command runs keeps the invariant. -/
theorem State.Inv.latch {s : State} (h : s.Inv) (hbusy : s.status.busy = true) (cause : Cause) (w : Word) :
    (latch cause w s).Inv := by
  rw [latch_frame]
  obtain ⟨hbuf, hagenda, hfaulted, -, hrest⟩ := h
  exact ⟨hbuf, hagenda, hfaulted, fun _ => hbusy, hrest⟩

/-- Host misuse keeps the invariant (60_exceptions.md R206). -/
theorem State.Inv.hostFault {s : State} (h : s.Inv) (cause : Cause) : (hostFault cause s).Inv := by
  unfold Machine.hostFault
  split
  · exact h
  · split
    · exact h.latch ‹_› _ _
    · exact h.raise cause

/-- A store keeps the invariant. -/
theorem State.Inv.storeByte {s : State} (h : s.Inv) (a b : Byte) : (storeByte a b s).Inv := by
  obtain ⟨hbuf, hrest⟩ := h
  exact ⟨wf_bufWrite a b hbuf, hrest⟩

/-- A tick takes a waiting `await_tick()` off the agenda, and nothing else. -/
theorem release_cases (acts : List Act) : release acts = acts ∨ acts = .awaitTick :: release acts := by
  unfold release
  split
  · exact .inr rfl
  · exact .inl rfl

/-- A tick keeps the invariant: `await_tick()` ends no command, so actions follow the one released. -/
theorem State.Inv.tick {s : State} (h : s.Inv) : (tick s).Inv := by
  rcases release_cases s.agenda with hkept | hwaits
  · have hsame : Machine.tick s = { s with t := s.t + 1, now := s.now + 1 } := by simp only [Machine.tick, hkept]
    rw [hsame]
    exact h
  · have hbusy : s.status.busy = true := by rw [h.busy, hwaits]; rfl
    have hun : Unfaulted s := h.unfaulted (h.running hbusy).2
    obtain ⟨-, -, -, -, hends, hrange, -⟩ := h
    rw [hwaits] at hends hrange
    have hne : release s.agenda ≠ [] := by
      intro hnil
      rw [hnil] at hends
      cases hends
    exact Unfaulted.inv_running (s := Machine.tick s) hun hbusy hne (endsCommand_cons _ hne ▸ hends)
      (List.all_eq_true.2 fun x hx => hrange x (List.mem_cons_of_mem _ hx))

/-- A write of BUF keeps the invariant (20_memory.md R52). -/
theorem State.Inv.hostWriteBuf {s : State} (h : s.Inv) (a b : Byte) : (hostWriteBuf a b s).Inv := by
  unfold Machine.hostWriteBuf
  split
  · exact h
  · split
    · exact h.latch ‹_› _ _
    · exact h.storeByte a b

/-- A rejected command word keeps the invariant: a core that is not faulted rejects only while a command runs. -/
theorem State.Inv.hostWriteCmdRejected {s : State} (h : s.Inv) (w : Word) (hrej : acceptsCommand s = false) :
    (hostWriteCmdRejected w s).Inv := by
  unfold Machine.hostWriteCmdRejected
  split
  · exact h
  · rename_i hf
    have hbusy : s.status.busy = true := by simpa [acceptsCommand, hf] using hrej
    exact h.latch hbusy _ _

/-- A read keeps the invariant (20_memory.md R58). -/
theorem State.Inv.hostRead {s : State} (h : s.Inv) (width : Nat) (off : BitVec 9) : (hostRead width off s).Inv := by
  have answered : ∀ v n, State.Inv { s with readout := v, draws := n } := fun _ _ => h
  unfold Machine.hostRead
  split
  case h_1 a =>
    unfold hostReadBuf
    split
    · exact answered _ _
    · split
      · exact answered _ _
      · exact (answered _ _).raise _
  case h_7 => exact (answered _ _).hostFault _
  all_goals exact answered _ _

/-- An input event other than a reset keeps the invariant. -/
theorem State.Inv.applyInput {s : State} (h : s.Inv) (i : Input) (hi : i ≠ .reset)
    (hrej : ∀ v, i = .write 32 0x100 v → acceptsCommand s = false) : (applyInput i s).Inv := by
  cases i with
  | tick => exact h.tick
  | reset => exact absurd rfl hi
  | read width off => exact h.hostRead width off
  | waitIdle => exact h
  | write width off v =>
    simp only [Machine.applyInput, hostWrite]
    split
    · exact h.hostWriteBuf _ _
    · rename_i hport
      obtain ⟨rfl, rfl⟩ := portOf_cmd hport
      exact h.hostWriteCmdRejected v (hrej v rfl)
    all_goals exact h.hostFault _

/-- The reset event meets the invariant. -/
theorem resetEvent_inv (s : State) : (resetEvent s).Inv :=
  inv_stopped rfl rfl rfl rfl nofun (fun _ => ⟨code_value_ne_fault (c := .ok) nofun, rfl, rfl⟩) ⟨.ok, rfl⟩ nofun

/-- An action of the sequencer keeps the invariant. -/
theorem State.Inv.perform {s : State} (h : s.Inv) {a : Act} {rest : List Act} (hagenda : s.agenda = a :: rest)
    (ha : a ≠ .awaitTick) : (perform a { s with agenda := rest }).Inv := by
  have hbusy : s.status.busy = true := by simp [h.busy, hagenda]
  have hun : Unfaulted s := h.unfaulted (h.running hbusy).2
  obtain ⟨-, -, -, -, hends, hrange, -⟩ := h
  rw [hagenda] at hends hrange
  rcases perform_cases a { s with agenda := rest } ha (hrange a List.mem_cons_self) with
    ⟨code, r, u, hcode, hperform, halike⟩ | ⟨acts, u, hperform, halike, hacts, hlast⟩
  · have hu : Unfaulted u := Unfaulted.of_alike (s := { s with agenda := rest }) hun halike
    rw [hperform]
    exact hu.inv_finish hcode r
  · have hu : Unfaulted u := Unfaulted.of_alike (s := { s with agenda := rest }) hun halike
    have hpushed : (push acts u).agenda = acts ++ rest := by rw [push_agenda, halike.agenda]
    have hpar : (push acts u).par = s.par := by rw [push_par, halike.par]
    have hall : (acts ++ rest).all (Act.inRange s.par) = true := by
      rw [List.all_eq_true]
      intro x hx
      rcases List.mem_append.1 hx with hx | hx
      · exact hacts x hx
      · exact hrange x (List.mem_cons_of_mem _ hx)
    obtain ⟨hne, hgoesOn⟩ : acts ++ rest ≠ [] ∧ endsCommand (acts ++ rest) = true := by
      by_cases hrest : rest = []
      · subst hrest
        simpa using hlast hends
      · exact ⟨by simp [hrest], by rw [endsCommand_append acts hrest, ← endsCommand_cons a hrest]; exact hends⟩
    rw [hperform]
    exact Unfaulted.inv_running (s := push acts u) hu (by rw [push_status, halike.status]; exact hbusy)
      (hpushed ▸ hne) (hpushed ▸ hgoesOn) (by rw [hpushed, hpar]; exact hall)

/-- A command reaches the invariant at its acceptance. -/
theorem Unfaulted.inv_exec {s t : State} (h : Unfaulted s) (hbusy : s.status.busy = true) {i : Instr}
    (hexec : exec i s = .next t) : t.Inv := by
  have hok : s.status.faulted = false := by
    obtain ⟨-, hok, -⟩ := h
    exact hok
  have hagenda := exec_endedOrStarted hok hexec
  revert hagenda
  refine exec_induction i s t (fun u => EndedOrStarted s i u → u.Inv) hexec
    ?raises ?ends ?stores ?setsTime ?configures ?selects ?launches
  case raises => exact fun c _ => h.inv_raise c
  case ends => exact fun code r hcode _ => h.inv_finish hcode r
  case stores =>
    intro code r m hcode hwf _
    obtain ⟨hbuf, hrest⟩ := h
    exact Unfaulted.inv_finish (s := { s with buf := m }) ⟨hwf hbuf, hrest⟩ hcode r
  case setsTime => exact fun v _ _ => Unfaulted.inv_finish (code := .ok) (s := { s with t := v }) h nofun 0
  case configures =>
    intro cpol cpha cspol _ _
    refine Unfaulted.inv_finish (code := .ok) ?_ nofun 0
    exact h
  case selects => exact fun l _ _ => Unfaulted.inv_finish (code := .ok) (s := drive .cs l s) h nofun 0
  case launches =>
    intro acts hne hstarted
    have hstarts : Starts s i acts := hstarted.resolve_left hne
    exact Unfaulted.inv_running (s := launch acts s) h hbusy hne hstarts.endsCommand hstarts.inRange

/-- Settles O58, by the kinds of step. -/
theorem stepKeepsInvariant : Obligations.StepKeepsInvariant := by
  intro s t hinv hstep
  rcases step_moves hstep with ⟨rest, -, rfl⟩ | ⟨-, a, rest, hagenda, ha, rfl⟩ | ⟨-, -, i, rest, hi, hrej, rfl⟩ |
    ⟨-, -, hidle, w, rest, -, haccepted⟩
  · exact resetEvent_inv _
  · exact hinv.perform hagenda ha
  · exact State.Inv.applyInput (s := { s with inputs := rest }) hinv i hi hrej
  · have hun : Unfaulted (acceptedWord w { s with inputs := rest }) := hinv.unfaulted hidle.2
    rcases haccepted with ⟨i, -, hexec⟩ | ⟨cause, rfl⟩
    · exact hun.inv_exec rfl hexec
    · exact hun.inv_raise cause

/-! ### What an action of the sequencer touches, and what it puts in front of the agenda -/

/-- What action `a` may change beside the agenda's front: CS and the radio's records only as a radio action, and no
other pin; `drive` apart. -/
structure Beside (a : Act) (u s : State) : Prop where
  agenda : u.agenda = s.agenda
  busCfg : u.busCfg = s.busCfg
  pins : u.pins = s.pins ∨ (a.isRadio = true ∧ ∃ l, u.pins = s.pins.set .cs (levelOf l))
  records : a.isRadio = false → u.mode = s.mode ∧ u.profile = s.profile ∧ u.version = s.version

theorem Beside.refl (a : Act) (s : State) : Beside a s s := ⟨rfl, rfl, .inl rfl, fun _ => ⟨rfl, rfl, rfl⟩⟩

/-- A radio action may change the radio's records. -/
theorem Beside.of_isRadio {a : Act} {u s : State} (ha : a.isRadio = true) (hagenda : u.agenda = s.agenda)
    (hbus : u.busCfg = s.busCfg) (hpins : u.pins = s.pins ∨ ∃ l, u.pins = s.pins.set .cs (levelOf l)) :
    Beside a u s :=
  ⟨hagenda, hbus, hpins.imp id fun h => ⟨ha, h⟩, fun hno => by simp [ha] at hno⟩

/-- Actions that follow from `a`: radio actions only from a radio action, bus actions only from a bus action, and SCLK
idle after them. -/
structure Follows (a : Act) (cfg : BusCfg) (acts : List Act) : Prop where
  notRadio : a.isRadio = false → acts.any Act.isRadio = false
  offBus : a.offBus = true → acts.all Act.offBus = true
  clock : clockReturns cfg.cpol true acts = true

/-- An action off the bus is no radio action. -/
theorem isRadio_of_offBus {a : Act} (h : a.offBus = true) : a.isRadio = false := by
  cases a
  case poll | pollTest | setMode | setProfile | initCheck | txLoad | txCheck | readyCheck | countedPrefix => cases h
  all_goals rfl

/-- Actions off the bus may follow from every action. -/
theorem Follows.of_offBus (a : Act) (cfg : BusCfg) {acts : List Act} (h : acts.all Act.offBus = true) :
    Follows a cfg acts := by
  refine ⟨fun _ => ?_, fun _ => h, clockReturns_of_offBus cfg.cpol h⟩
  rw [List.any_eq_false]
  intro x hx
  rw [isRadio_of_offBus (List.all_eq_true.1 h x hx)]
  exact Bool.false_ne_true

/-- Actions that leave SCLK idle may follow from a radio action. -/
theorem Follows.of_isRadio {a : Act} {cfg : BusCfg} {acts : List Act} (ha : a.isRadio = true)
    (h : clockReturns cfg.cpol true acts = true) : Follows a cfg acts := by
  refine ⟨fun hno => ?_, fun hoff => ?_, h⟩
  · simp [ha] at hno
  · simp [isRadio_of_offBus hoff] at ha

/-- `t` comes of action `a` performed at `s`: the command ends, or actions that follow from `a` are put in front of the
agenda. -/
def Performs (a : Act) (s t : State) : Prop :=
  ∃ u, Beside a u s ∧ ((∃ code r, t = finish code r u) ∨ ∃ acts, t = push acts u ∧ Follows a s.busCfg acts)

section
variable {a : Act} {u s : State} {acts : List Act} {code : Code} {r : Word}

/-- The action ends the command. -/
theorem Performs.ends (hu : Beside a u s) : Performs a s (finish code r u) :=
  ⟨u, hu, .inl ⟨code, r, rfl⟩⟩

/-- The action goes on with others. -/
theorem Performs.goesOn (hu : Beside a u s) (h : Follows a s.busCfg acts) :
    Performs a s (push acts u) :=
  ⟨u, hu, .inr ⟨acts, rfl, h⟩⟩

/-- The action goes on with waits and samples of the serial line. -/
theorem Performs.waits (hu : Beside a u s) (h : acts.all Act.offBus = true) :
    Performs a s (push acts u) :=
  .goesOn hu (.of_offBus a _ h)

/-- The action is done. -/
theorem Performs.done (hu : Beside a u s) : Performs a s u := .waits hu (acts := []) rfl

/-- The end of `uart_receive`, whoever called it. -/
theorem Performs.uartReturn (hu : Beside a u s) (c : RxCaller) (code : Code) (d : Byte) :
    Performs a s (uartReturn c code d u) := by
  cases c with
  | receive => exact .ends hu
  | waitByte =>
    simp only [Machine.uartReturn]
    split
    · exact .ends hu
    · exact .waits hu rfl

end

/-- A round of `spi_bytes` sends a byte, stores the received one where there is an rx buffer, and goes on. -/
theorem performSpiBytes_performs (t r : Bool) (a b : Byte) (n : Nat) (s : State) :
    Performs (.spiBytes t r a b n) s (performSpiBytes t r a b n s) := by
  have refl := Beside.refl (.spiBytes t r a b n) s
  cases n with
  | zero => exact .done refl
  | succ k =>
    refine .goesOn refl ⟨fun _ => ?_, nofun, ?_⟩
    · cases r <;> simp [Act.isRadio]
    · cases r <;> simp [clockReturns]

/-- The load loop of RF.TX goes on with FIFO writes and polls. -/
theorem performTxLoad_performs (a : Byte) (len k : Nat) (s : State) :
    Performs (.txLoad a len k) s (performTxLoad a len k s) := by
  have refl := Beside.refl (.txLoad a len k) s
  match k with
  | 0 => exact .done refl
  | 1 =>
    refine .goesOn refl (.of_isRadio rfl ?_)
    simpa [clockReturns] using clockReturns_fifoWrite_append s a len []
  | j + 2 => exact .goesOn refl (.of_isRadio rfl (by simp [clockReturns]))

/-- Every action but `drive` ends the command or goes on with actions that follow from it. -/
theorem perform_performs (a : Act) (s : State) (hdrive : ∀ p l, a ≠ .drive p l) : Performs a s (perform a s) := by
  have refl := Beside.refl a s
  have sampled : Beside a (sample .urx s).2 s := by
    rw [sample_urx]
    exact ⟨rfl, rfl, .inl rfl, fun _ => ⟨rfl, rfl, rfl⟩⟩
  cases a <;> simp only [perform]
  case awaitTick => exact .done refl
  case drive p l => exact absurd rfl (hdrive p l)
  case waitUntil target =>
    unfold performWaitUntil
    split
    · exact .done refl
    · split
      · exact .waits refl rfl
      · exact .waits refl rfl
  case whileAtOrAbove start target =>
    unfold performWhileAtOrAbove
    split
    · exact .waits refl rfl
    · exact .waits refl rfl
  case whileBelow target =>
    unfold performWhileBelow
    split
    · exact .waits refl rfl
    · exact .done refl
  case delayUs n => exact .waits refl rfl
  case delayLoop n target =>
    unfold performDelayLoop
    split
    · exact .done refl
    · exact .waits refl rfl
  case delayMs n =>
    unfold performDelayMs
    split
    · exact .done refl
    · exact .waits refl rfl
  case clearRx => exact .done ⟨rfl, rfl, .inl rfl, fun _ => ⟨rfl, rfl, rfl⟩⟩
  case sampleRx =>
    unfold performSampleRx
    rw [sample_miso]
    exact .done ⟨rfl, rfl, .inl rfl, fun _ => ⟨rfl, rfl, rfl⟩⟩
  case spiBytes t r a b n => exact performSpiBytes_performs t r a b n s
  case storeRx b => exact .done ⟨rfl, rfl, .inl rfl, fun _ => ⟨rfl, rfl, rfl⟩⟩
  case finish code r => exact .ends refl
  case finishRx => exact .ends refl
  case uartStart c => exact .waits refl rfl
  case uartGlitch c target =>
    unfold performUartGlitch
    split
    · exact .uartReturn sampled _ _ _
    · exact .waits sampled rfl
  case uartData c i d target =>
    unfold performUartData
    refine .waits sampled ?_
    by_cases hi : i < 7
    · rw [if_pos hi]; rfl
    · rw [if_neg hi]; rfl
  case uartStop c d =>
    unfold performUartStop
    split
    · exact .uartReturn sampled _ _ _
    · split
      · exact .uartReturn sampled _ _ _
      · exact .uartReturn sampled _ _ _
  case spinWhileHigh =>
    unfold performSpinWhileHigh
    split
    · exact .waits sampled rfl
    · exact .waits sampled rfl
  case spinWhileLow =>
    unfold performSpinWhileLow
    split
    · exact .ends sampled
    · exact .waits sampled rfl
  case breakLoop budget count target =>
    unfold performBreakLoop
    split
    · exact .waits refl rfl
    · exact .ends refl
  case breakSample budget count target =>
    unfold performBreakSample
    split
    · exact .ends sampled
    · exact .waits sampled rfl
  case poll reg bit want k => exact .goesOn refl (.of_isRadio rfl (by simp [clockReturns]))
  case pollTest reg bit want k =>
    unfold performPollTest
    split
    · exact .done refl
    · split
      · exact .ends (.of_isRadio rfl rfl rfl (.inl rfl))
      · exact .goesOn refl (.of_isRadio rfl rfl)
  case setMode m => exact .done (.of_isRadio rfl rfl rfl (.inl rfl))
  case setProfile p => exact .done (.of_isRadio rfl rfl rfl (.inl rfl))
  case initCheck =>
    unfold performInitCheck
    split
    · exact .ends refl
    · exact .ends (.of_isRadio rfl rfl rfl (.inl rfl))
  case txLoad a len k => exact performTxLoad_performs a len k s
  case txCheck =>
    unfold performTxCheck
    split
    · exact .ends refl
    · exact .ends refl
  case readyCheck =>
    unfold performReadyCheck
    split
    · exact .ends refl
    · exact .ends refl
  case countedPrefix b maxlen =>
    unfold performCountedPrefix
    split
    · exact .ends (.of_isRadio rfl rfl rfl (.inr ⟨_, rfl⟩))
    · exact .goesOn (.of_isRadio rfl rfl rfl (.inl rfl)) (.of_isRadio rfl rfl)

/-! ### The radio's records (10_state.md R31 to R33, 43_radio.md R174) -/

/-- `t` has the radio's records of `s`. -/
def SameRecords (t s : State) : Prop := t.mode = s.mode ∧ t.profile = s.profile ∧ t.version = s.version

/-- What keeps the fields of `Kept` keeps the radio's records. -/
theorem Kept.sameRecords {t s : State} (h : Kept t s) : SameRecords t s := ⟨h.mode, h.profile, h.version⟩

/-- No command writes the radio's records or CURCMD at its acceptance. -/
theorem exec_sameRecords {i : Instr} {s t : State} (h : exec i s = .next t) :
    SameRecords t s ∧ t.curCmd = s.curCmd := by
  have same : SameRecords s s ∧ s.curCmd = s.curCmd := ⟨⟨rfl, rfl, rfl⟩, rfl⟩
  have ends : ∀ {code : Code} {r : Word} {u : State}, SameRecords u s ∧ u.curCmd = s.curCmd →
      SameRecords (finish code r u) s ∧ (finish code r u).curCmd = s.curCmd := by
    intro code r u ⟨⟨hmode, hprofile, hversion⟩, hcur⟩
    have hk := (finish_frame code r u).1
    exact ⟨⟨hk.mode.trans hmode, hk.profile.trans hprofile, hk.version.trans hversion⟩, hk.curCmd.trans hcur⟩
  refine exec_induction i s t (fun u => SameRecords u s ∧ u.curCmd = s.curCmd) h
    ?raises ?ends ?stores ?setsTime ?configures ?selects ?launches
  case raises => exact fun c => ⟨(raise_frame c s).1.sameRecords, (raise_frame c s).1.curCmd⟩
  case ends => exact fun code r _ => ends same
  case stores => exact fun code r m _ _ => ends (u := { s with buf := m }) same
  case setsTime => exact fun v _ => ends (u := { s with t := v }) same
  case configures =>
    intro cpol cpha cspol _
    refine ends ?_
    exact same
  case selects => exact fun l _ => ends (u := drive .cs l s) same
  case launches => exact fun _ _ => same

/-- An action that is no radio action keeps the radio's records and puts no radio action on the agenda. -/
theorem perform_notRadio {a : Act} {s : State} (ha : a.isRadio = false) :
    SameRecords (perform a s) s ∧
      ((perform a s).agenda.any Act.isRadio = true → s.agenda.any Act.isRadio = true) := by
  by_cases hdrive : ∃ p l, a = .drive p l
  · obtain ⟨p, l, rfl⟩ := hdrive
    exact ⟨⟨rfl, rfl, rfl⟩, id⟩
  · obtain ⟨u, hu, ⟨code, r, ht⟩ | ⟨acts, ht, hacts⟩⟩ := perform_performs a s fun p l h => hdrive ⟨p, l, h⟩
    · obtain ⟨hmode, hprofile, hversion⟩ := (finish_frame code r u).1.sameRecords
      obtain ⟨hmode', hprofile', hversion'⟩ := hu.records ha
      rw [ht]
      exact ⟨⟨hmode.trans hmode', hprofile.trans hprofile', hversion.trans hversion'⟩, by simp⟩
    · rw [ht]
      refine ⟨hu.records ha, fun h => ?_⟩
      rwa [push_agenda, hu.agenda, List.any_append, hacts.notRadio ha, Bool.false_or] at h

/-- The invariant of the radio records, in the form of a Boolean test of the agenda. -/
theorem radioInv_iff (s : State) :
    s.RadioInv ↔ (s.agenda.any Act.isRadio = true → ∃ w, s.curCmd = some w ∧ isRadioWord w = true) := by
  rw [List.any_eq_true]
  rfl

/-- The radio actions of a shorter agenda belong to the same command. -/
theorem State.RadioInv.of_agenda {s t : State} (h : s.RadioInv) (hcur : t.curCmd = s.curCmd)
    (hagenda : t.agenda.any Act.isRadio = true → s.agenda.any Act.isRadio = true) : t.RadioInv := by
  rw [radioInv_iff] at h ⊢
  rw [hcur]
  exact fun ht => h (hagenda ht)

/-- Nothing is asked of an empty agenda. -/
theorem radioInv_of_nil {s : State} (h : s.agenda = []) : s.RadioInv := by
  simp [radioInv_iff, h]

/-- A tick takes no action off the agenda but a waiting `await_tick()`. -/
theorem any_isRadio_release (acts : List Act) : (release acts).any Act.isRadio = acts.any Act.isRadio := by
  rcases release_cases acts with h | h
  · rw [h]
  · conv_rhs => rw [h]
    rfl

/-- An action of the sequencer keeps the invariant, and only a radio command's writes the radio's records. -/
theorem State.RadioInv.perform {s : State} (h : s.RadioInv) {a : Act} {rest : List Act}
    (hagenda : s.agenda = a :: rest) :
    (perform a { s with agenda := rest }).RadioInv ∧
      (SameRecords (perform a { s with agenda := rest }) s ∨ ∃ w, s.curCmd = some w ∧ isRadioWord w = true) := by
  obtain ⟨-, -, -, -, hcur⟩ := perform_frame a { s with agenda := rest }
  cases ha : a.isRadio with
  | true =>
    have hradio := (radioInv_iff s).1 h (by rw [hagenda, List.any_cons, ha, Bool.true_or])
    exact ⟨fun _ => hcur.symm ▸ hradio, .inr hradio⟩
  | false =>
    obtain ⟨hsame, hacts⟩ := perform_notRadio (s := { s with agenda := rest }) ha
    exact ⟨h.of_agenda hcur fun ht => by rw [hagenda, List.any_cons, hacts ht, Bool.or_true], .inl hsame⟩

/-- A command meets the invariant at its acceptance: only a radio command starts radio actions. -/
theorem radioInv_exec {i : Instr} {s t : State} {w : Word} (hok : s.status.faulted = false) (hcur : s.curCmd = some w)
    (hdecode : decode w = .ok i) (hexec : exec i s = .next t) : t.RadioInv := by
  rcases exec_endedOrStarted hok hexec with hended | hstarts
  · exact radioInv_of_nil hended
  · rw [radioInv_iff, (exec_sameRecords hexec).2]
    exact fun hradio => ⟨w, hcur, hstarts.radio hradio hdecode⟩

/-- Settles O49, by the kinds of step. -/
theorem onlyRadioWritesRadioState : Obligations.OnlyRadioWritesRadioState := by
  intro s t hinv hstep
  have settles : t.RadioInv → SameRecords t s → t.RadioInv ∧
      (t.mode ≠ s.mode ∨ t.profile ≠ s.profile ∨ t.version ≠ s.version →
        (∃ rest, s.inputs = .reset :: rest) ∨ ∃ w, s.curCmd = some w ∧ isRadioWord w = true) :=
    fun hkept ⟨hmode, hprofile, hversion⟩ => ⟨hkept, fun hchange => by simp [hmode, hprofile, hversion] at hchange⟩
  rcases step_moves hstep with ⟨rest, hreset, rfl⟩ | ⟨-, a, rest, hagenda, -, rfl⟩ | ⟨-, -, i, rest, hi, -, rfl⟩ |
    ⟨-, -, ⟨-, hok⟩, w, rest, -, ⟨i, hdecode, hexec⟩ | ⟨cause, rfl⟩⟩
  · exact ⟨radioInv_of_nil rfl, fun _ => .inl ⟨rest, hreset⟩⟩
  · obtain ⟨hkept, hsame | hradio⟩ := hinv.perform hagenda
    · exact settles hkept hsame
    · exact ⟨hkept, fun _ => .inr hradio⟩
  · by_cases htick : i = .tick
    · subst htick
      exact settles (hinv.of_agenda rfl fun h => any_isRadio_release s.agenda ▸ h) ⟨rfl, rfl, rfl⟩
    · obtain ⟨hk, hagenda⟩ := applyInput_frame i { s with inputs := rest } htick hi
      refine settles ?_ hk.sameRecords
      rcases hagenda with hsame | hnil
      · exact hinv.of_agenda hk.curCmd fun h => hsame ▸ h
      · exact radioInv_of_nil hnil
  · exact settles (radioInv_exec (s := acceptedWord w { s with inputs := rest }) hok rfl hdecode hexec)
      (exec_sameRecords hexec).1
  · exact settles (radioInv_of_nil (raise_agenda cause (s := acceptedWord w { s with inputs := rest }) hok))
      (raise_frame cause (acceptedWord w { s with inputs := rest })).1.sameRecords

/-! ### The bus invariant (10_state.md R30, R34; 41_spi.md R131) -/

/-- The pins `ps` of a bus with configuration `cfg` between bits: not driven before SPI.INIT; driven after it, with SCLK
at CPOL. -/
structure AtRest (cfg : BusCfg) (ps : Pins) : Prop where
  utx : ps.utx ≠ .z
  undriven : cfg.configured = false → ps.sclk = .z ∧ ps.mosi = .z ∧ ps.cs = .z
  idle : cfg.configured = true → ps.sclk = levelOf cfg.cpol ∧ ps.mosi ≠ .z ∧ ps.cs ≠ .z

/-- A bus at rest, with safe actions to come, meets the bus invariant. -/
theorem AtRest.busInv {s : State} (h : AtRest s.busCfg s.pins) (hsafe : SafeActs s.busCfg s.agenda) : s.BusInv := by
  obtain ⟨hoff, hclock⟩ := hsafe
  refine ⟨h.utx, fun hc => ?_, fun hc => ?_⟩
  · obtain ⟨hsclk, hmosi, hcs⟩ := h.undriven hc
    exact ⟨hsclk, hmosi, hcs, List.all_eq_true.1 (hoff hc)⟩
  · obtain ⟨hsclk, hmosi, hcs⟩ := h.idle hc
    refine ⟨hsclk ▸ levelOf_ne_z _, hmosi, hcs, ?_⟩
    rw [decide_eq_true hsclk]
    exact hclock hc

/-- With no action left, the bus is at rest. -/
theorem State.BusInv.atRest_of_nil {s : State} (h : s.BusInv) (hagenda : s.agenda = []) : AtRest s.busCfg s.pins := by
  obtain ⟨hutx, hundriven, hdriven⟩ := h
  refine ⟨hutx, fun hc => ?_, fun hc => ?_⟩
  · obtain ⟨hsclk, hmosi, hcs, -⟩ := hundriven hc
    exact ⟨hsclk, hmosi, hcs⟩
  · obtain ⟨-, hmosi, hcs, hclock⟩ := hdriven hc
    rw [hagenda] at hclock
    exact ⟨of_decide_eq_true hclock, hmosi, hcs⟩

/-- Before an action that neither drives SCLK nor samples MISO the bus is at rest, and the actions after it are safe. -/
theorem State.BusInv.atRest_of_cons {s : State} (h : s.BusInv) {a : Act} {rest : List Act}
    (hagenda : s.agenda = a :: rest) (hdrive : ∀ l, a ≠ .drive .sclk l) (hsample : a ≠ .sampleRx) :
    AtRest s.busCfg s.pins ∧ (s.busCfg.configured = false → a.offBus = true) ∧ SafeActs s.busCfg rest := by
  obtain ⟨hutx, hundriven, hdriven⟩ := h
  rw [hagenda] at hundriven hdriven
  simp only [clockReturns_cons _ _ _ hdrive hsample, Bool.and_eq_true, decide_eq_true_eq] at hdriven
  have hoff : s.busCfg.configured = false → a.offBus = true ∧ rest.all Act.offBus = true := by
    intro hc
    obtain ⟨-, -, -, hacts⟩ := hundriven hc
    exact ⟨hacts a List.mem_cons_self, List.all_eq_true.2 fun x hx => hacts x (List.mem_cons_of_mem _ hx)⟩
  refine ⟨⟨hutx, fun hc => ?_, fun hc => ?_⟩, fun hc => (hoff hc).1, fun hc => (hoff hc).2, fun hc => ?_⟩
  · obtain ⟨hsclk, hmosi, hcs, -⟩ := hundriven hc
    exact ⟨hsclk, hmosi, hcs⟩
  · obtain ⟨-, hmosi, hcs, hsclk, -⟩ := hdriven hc
    exact ⟨hsclk, hmosi, hcs⟩
  · obtain ⟨-, -, -, -, hclock⟩ := hdriven hc
    exact hclock

/-- A wait for a tick does not matter for whether an agenda is safe. -/
theorem SafeActs.cons_awaitTick {cfg : BusCfg} {acts : List Act} :
    SafeActs cfg (.awaitTick :: acts) ↔ SafeActs cfg acts := by
  unfold SafeActs
  rw [List.all_cons, clockReturns_cons (a := .awaitTick) cfg.cpol true acts nofun nofun]
  exact Iff.rfl

/-- On the host's turn the bus is at rest and the agenda is safe. -/
theorem State.BusInv.of_hostTurn {s : State} (h : s.BusInv) (hturn : HostTurn s) :
    AtRest s.busCfg s.pins ∧ SafeActs s.busCfg s.agenda := by
  rcases hturn with hnil | ⟨rest, hwaits⟩
  · exact ⟨h.atRest_of_nil hnil, hnil ▸ SafeActs.nil _⟩
  · obtain ⟨hrest, -, hsafe⟩ := h.atRest_of_cons hwaits nofun nofun
    exact ⟨hrest, hwaits ▸ SafeActs.cons_awaitTick.2 hsafe⟩

/-- Safe actions may stand before safe ones. -/
theorem SafeActs.append {cfg : BusCfg} {acts rest : List Act} (h : SafeActs cfg acts) (hrest : SafeActs cfg rest) :
    SafeActs cfg (acts ++ rest) := by
  obtain ⟨hoff, hclock⟩ := h
  obtain ⟨hoff', hclock'⟩ := hrest
  refine ⟨fun hc => ?_, fun hc => ?_⟩
  · rw [List.all_append, hoff hc, hoff' hc]
    rfl
  · rw [clockReturns_append rest (hclock hc), hclock' hc]

/-- A tick leaves a safe agenda. -/
theorem SafeActs.release {cfg : BusCfg} {acts : List Act} (h : SafeActs cfg acts) : SafeActs cfg (release acts) := by
  rcases release_cases acts with hkept | hwaits
  · exact hkept.symm ▸ h
  · rw [hwaits] at h
    exact SafeActs.cons_awaitTick.1 h

/-- Driving a pin other than SCLK keeps the bus at rest; before SPI.INIT only UTX may be driven. -/
theorem AtRest.set {cfg : BusCfg} {ps : Pins} (h : AtRest cfg ps) {p : OutPin} (l : Bool) (hp : p ≠ .sclk)
    (hutx : cfg.configured = false → p = .utx) : AtRest cfg (ps.set p (levelOf l)) := by
  obtain ⟨hu, hundriven, hidle⟩ := h
  have onlyUtx : p ≠ .utx → cfg.configured ≠ false := fun hne hc => hne (hutx hc)
  cases p with
  | sclk => exact absurd rfl hp
  | utx => exact ⟨levelOf_ne_z l, hundriven, hidle⟩
  | mosi => exact ⟨hu, fun hc => absurd hc (onlyUtx nofun), fun hc => ⟨(hidle hc).1, levelOf_ne_z l, (hidle hc).2.2⟩⟩
  | cs => exact ⟨hu, fun hc => absurd hc (onlyUtx nofun), fun hc => ⟨(hidle hc).1, (hidle hc).2.1, levelOf_ne_z l⟩⟩

/-- Driving SCLK keeps the bus invariant: the actions to come are those of the new level. -/
theorem State.BusInv.drive_sclk {s : State} (h : s.BusInv) {l : Bool} {rest : List Act}
    (hagenda : s.agenda = .drive .sclk l :: rest) : (drive .sclk l { s with agenda := rest }).BusInv := by
  obtain ⟨hutx, hundriven, hdriven⟩ := h
  rw [hagenda] at hundriven hdriven
  refine ⟨hutx, fun hc => ?_, fun hc => ?_⟩
  · obtain ⟨-, -, -, hacts⟩ := hundriven hc
    exact absurd (hacts _ List.mem_cons_self) Bool.false_ne_true
  · obtain ⟨-, hmosi, hcs, hclock⟩ := hdriven hc
    refine ⟨levelOf_ne_z l, hmosi, hcs, ?_⟩
    simp only [clockReturns] at hclock
    by_cases hl : l = s.busCfg.cpol
    · rw [if_pos hl] at hclock
      simpa [hl] using hclock
    · rw [if_neg hl, Bool.and_eq_true] at hclock
      simpa [hl] using hclock.2

/-- Driving a pin keeps the bus invariant. -/
theorem State.BusInv.drive {s : State} (h : s.BusInv) {p : OutPin} {l : Bool} {rest : List Act}
    (hagenda : s.agenda = .drive p l :: rest) : (drive p l { s with agenda := rest }).BusInv := by
  by_cases hp : p = .sclk
  · subst hp
    exact h.drive_sclk hagenda
  · obtain ⟨hrest, hoff, hsafe⟩ := h.atRest_of_cons hagenda (by rintro l' ⟨⟩; exact hp rfl) nofun
    refine AtRest.busInv (s := Machine.drive p l { s with agenda := rest }) (hrest.set l hp fun hc => ?_) hsafe
    have hdrives := hoff hc
    cases p with
    | utx => rfl
    | sclk | mosi | cs => cases hdrives

/-- A sample of MISO changes neither pins nor agenda, and may be taken with SCLK active. -/
theorem State.BusInv.sampleRx {s : State} (h : s.BusInv) {rest : List Act} (hagenda : s.agenda = .sampleRx :: rest) :
    (performSampleRx { s with agenda := rest }).BusInv := by
  unfold performSampleRx
  rw [sample_miso]
  obtain ⟨hutx, hundriven, hdriven⟩ := h
  rw [hagenda] at hundriven hdriven
  refine ⟨hutx, fun hc => ?_, hdriven⟩
  obtain ⟨-, -, -, hacts⟩ := hundriven hc
  exact absurd (hacts _ List.mem_cons_self) Bool.false_ne_true

/-- An action of the sequencer keeps the bus invariant. -/
theorem State.BusInv.perform {s : State} (h : s.BusInv) {a : Act} {rest : List Act} (hagenda : s.agenda = a :: rest) :
    (perform a { s with agenda := rest }).BusInv := by
  by_cases hdrive : ∃ p l, a = .drive p l
  · obtain ⟨p, l, rfl⟩ := hdrive
    exact h.drive hagenda
  by_cases hsample : a = .sampleRx
  · subst hsample
    exact h.sampleRx hagenda
  have hnot : ∀ p l, a ≠ .drive p l := fun p l ha => hdrive ⟨p, l, ha⟩
  obtain ⟨hrest, hoff, hsafe⟩ := h.atRest_of_cons hagenda (hnot .sclk) hsample
  obtain ⟨u, hu, hperforms⟩ := perform_performs a { s with agenda := rest } hnot
  have hatRest : AtRest u.busCfg u.pins := by
    rw [hu.busCfg]
    rcases hu.pins with hpins | ⟨hradio, l, hpins⟩ <;> rw [hpins]
    · exact hrest
    · refine hrest.set l nofun fun hc => ?_
      simp [isRadio_of_offBus (hoff hc)] at hradio
  rcases hperforms with ⟨code, r, ht⟩ | ⟨acts, ht, hacts⟩ <;> rw [ht]
  · have hk := (finish_frame code r u).1
    refine AtRest.busInv ?_ ?_
    · rw [hk.busCfg, hk.pins]
      exact hatRest
    · rw [finish_agenda]
      exact SafeActs.nil _
  · refine AtRest.busInv (s := push acts u) hatRest ?_
    rw [push_agenda, push_busCfg, hu.agenda, hu.busCfg]
    exact SafeActs.append ⟨fun hc => hacts.offBus (hoff hc), fun _ => hacts.clock⟩ hsafe

/-- A command keeps the bus invariant at its acceptance, taken at rest. -/
theorem AtRest.busInv_exec {s t : State} (h : AtRest s.busCfg s.pins) (hok : s.status.faulted = false) {i : Instr}
    (hexec : exec i s = .next t) : t.BusInv := by
  have stopped : ∀ {t u : State}, AtRest u.busCfg u.pins → Kept t u → t.agenda = [] → t.BusInv := by
    intro t u hu hk hnil
    refine AtRest.busInv ?_ (hnil ▸ SafeActs.nil _)
    rw [hk.busCfg, hk.pins]
    exact hu
  have ends : ∀ {u : State} (code : Code) (r : Word), AtRest u.busCfg u.pins → (finish code r u).BusInv :=
    fun code r hu => stopped hu (finish_frame code r _).1 (finish_agenda code r _)
  have hagenda := exec_endedOrStarted hok hexec
  revert hagenda
  refine exec_induction i s t (fun u => EndedOrStarted s i u → u.BusInv) hexec
    ?raises ?ends ?stores ?setsTime ?configures ?selects ?launches
  case raises => exact fun c _ => stopped h (raise_frame c s).1 (raise_agenda c hok)
  case ends => exact fun code r _ _ => ends code r h
  case stores => exact fun code r m _ _ _ => ends (u := { s with buf := m }) code r h
  case setsTime => exact fun v _ _ => ends (u := { s with t := v }) .ok 0 h
  case configures =>
    intro cpol cpha cspol _ _
    exact ends .ok 0 ⟨h.utx, nofun, fun _ => ⟨rfl, levelOf_ne_z false, levelOf_ne_z _⟩⟩
  case selects =>
    intro l hc _
    exact ends (u := drive .cs l s) .ok 0 (h.set (p := .cs) l nofun fun hno => by simp [hc] at hno)
  case launches =>
    intro acts hne hstarted
    exact AtRest.busInv (s := launch acts s) h (hstarted.resolve_left hne).safeActs

/-- Settles O59, by the kinds of step; with no action left, the invariant says that the bus is at rest. -/
theorem stepKeepsBusInvariant : Obligations.StepKeepsBusInvariant := by
  intro s t hinv hstep
  have settles : t.BusInv → t.BusInv ∧ (t.busCfg.configured = true → t.agenda = [] →
      t.pins.sclk = levelOf t.busCfg.cpol) := fun h => ⟨h, fun hc hnil => ((h.atRest_of_nil hnil).idle hc).1⟩
  apply settles
  rcases step_moves hstep with ⟨rest, -, rfl⟩ | ⟨-, a, rest, hagenda, -, rfl⟩ | ⟨-, hturn, i, rest, hi, -, rfl⟩ |
    ⟨-, hturn, ⟨-, hok⟩, w, rest, -, haccepted⟩
  · exact AtRest.busInv ⟨nofun, fun _ => ⟨rfl, rfl, rfl⟩, nofun⟩ (SafeActs.nil _)
  · exact hinv.perform hagenda
  · obtain ⟨hrest, hsafe⟩ := hinv.of_hostTurn hturn
    by_cases htick : i = .tick
    · subst htick
      exact AtRest.busInv (s := tick { s with inputs := rest }) hrest hsafe.release
    · obtain ⟨hk, hagenda⟩ := applyInput_frame i { s with inputs := rest } htick hi
      refine AtRest.busInv ?_ ?_
      · rw [hk.busCfg, hk.pins]
        exact hrest
      · rw [hk.busCfg]
        rcases hagenda with hsame | hnil
        · exact hsame.symm ▸ hsafe
        · exact hnil.symm ▸ SafeActs.nil _
  · obtain ⟨hrest, -⟩ := hinv.of_hostTurn hturn
    have hatRest : AtRest (acceptedWord w { s with inputs := rest }).busCfg
        (acceptedWord w { s with inputs := rest }).pins := hrest
    rcases haccepted with ⟨i, -, hexec⟩ | ⟨cause, rfl⟩
    · exact hatRest.busInv_exec hok hexec
    · have hk := (raise_frame cause (acceptedWord w { s with inputs := rest })).1
      refine AtRest.busInv ?_ ?_
      · rw [hk.busCfg, hk.pins]
        exact hatRest
      · rw [raise_agenda cause (s := acceptedWord w { s with inputs := rest }) hok]
        exact SafeActs.nil _

end Sys2Proof.Machine

/-! What the host's accesses of the window do: accesses of R203, writes of BUF and reads of BUF; with the statements
they settle. -/

namespace Sys2Proof.Machine

/-! ### What an access reaches (20_memory.md R55, R56; 60_exceptions.md R203) -/

/-- An 8-bit access of an offset below 0x100 reaches the BUF byte of that address. -/
theorem portOf_buf (a : Byte) : portOf 8 (a.setWidth 9) = .buf a := by
  have hlow : (a.setWidth 9).toNat < 0x100 := by simp; omega
  have haddress : (a.setWidth 9).setWidth 8 = a := by simp
  unfold portOf
  rw [if_pos hlow, if_pos rfl, haddress]

/-- The reads of R203 are the accesses that reach no byte and no register. -/
theorem portOf_eq_bad_iff (width : Nat) (off : BitVec 9) : portOf width off = .bad ↔ badAccess false width off := by
  unfold portOf badAccess
  by_cases hlow : off.toNat < 0x100
  · have hregister : off.toNat < 0x114 := by omega
    have hnotHigh : ¬ 0x100 ≤ off.toNat := by omega
    by_cases hwidth : width = 8 <;> simp [hlow, hwidth, hregister, hnotHigh]
  · have hhigh : 0x100 ≤ off.toNat := by omega
    by_cases hwidth : width = 32
    · simp only [hlow, hwidth, hhigh, if_false, if_true]
      split
      case h_6 hcmd hstatus hresult hfault hfcmd =>
        have hnone : off.toNat ≠ 0x100 ∧ off.toNat ≠ 0x104 ∧ off.toNat ≠ 0x108 ∧ off.toNat ≠ 0x10C ∧
            off.toNat ≠ 0x110 := ⟨hcmd, hstatus, hresult, hfault, hfcmd⟩
        simp
        omega
      all_goals simp [*]
    · simp [hlow, hwidth, hhigh]
      omega

/-- A BUF byte is reached by 8-bit accesses below 0x100 only. -/
theorem low_of_portOf_buf {width : Nat} {off : BitVec 9} {a : Byte} (h : portOf width off = .buf a) :
    width = 8 ∧ off.toNat < 0x100 := by
  unfold portOf at h
  split at h
  case isTrue hlow =>
    split at h
    case isTrue hwidth => exact ⟨hwidth, hlow⟩
    case isFalse => cases h
  case isFalse =>
    split at h
    case isTrue => split at h <;> cases h
    case isFalse => cases h

/-- A write of R203 reaches neither a BUF byte nor CMD. -/
theorem portOf_of_badWrite {width : Nat} {off : BitVec 9} (h : badAccess true width off) :
    portOf width off ≠ .cmd ∧ ∀ a, portOf width off ≠ .buf a := by
  constructor
  · intro hport
    obtain ⟨rfl, rfl⟩ := portOf_cmd hport
    simp [badAccess] at h
  · intro a hport
    obtain ⟨rfl, hlow⟩ := low_of_portOf_buf hport
    simp [badAccess] at h
    omega

/-- A write of R203 is host misuse. -/
theorem hostWrite_of_badWrite {width : Nat} {off : BitVec 9} (h : badAccess true width off) (v : Word) (s : State) :
    hostWrite width off v s = hostFault .hostAccess s := by
  obtain ⟨hcmd, hbuf⟩ := portOf_of_badWrite h
  unfold hostWrite
  split
  case h_1 a hport => exact absurd hport (hbuf a)
  case h_2 hport => exact absurd hport hcmd
  all_goals rfl

/-- A read of R203 returns a free value, and is host misuse. -/
theorem hostRead_of_badRead {width : Nat} {off : BitVec 9} (h : badAccess false width off) (s : State) :
    hostRead width off s = hostFault .hostAccess (answerFree off s) := by
  simp only [hostRead, (portOf_eq_bad_iff width off).2 h]

/-- A write on the host's turn that does not reach CMD. -/
theorem step_of_write {s : State} {width : Nat} {off : BitVec 9} {v : Word} {rest : List Input} (hturn : HostTurn s)
    (hin : s.inputs = .write width off v :: rest) (hport : portOf width off ≠ .cmd) :
    step s = .next (hostWrite width off v { s with inputs := rest }) := by
  have hmove : nextMove s = .event (.write width off v) { s with inputs := rest } := by
    rw [nextMove_hostTurn (noReset_of_cons hin nofun) hturn]
    simp only [inputMove, hin, hostWriteMove, hport, false_and, if_false]
  simp only [step, hmove]
  rfl

/-! ### Host misuse (60_exceptions.md R204, R206) -/

/-- Host misuse of a faulted core is ignored. -/
theorem hostFault_faulted (cause : Cause) {s : State} (h : s.status.faulted = true) : hostFault cause s = s :=
  if_pos h

/-- Host misuse while a command runs is latched with its command word. -/
theorem hostFault_running (cause : Cause) {s : State} (h : Running s) :
    hostFault cause s = latch cause (s.curCmd.getD 0) s := by
  simp [hostFault, h.1, h.2]

/-- Host misuse of an idle core raises its fault at once. -/
theorem hostFault_idle (cause : Cause) {s : State} (h : Idle s) : hostFault cause s = raise cause s := by
  simp [hostFault, h.1, h.2]

/-- A step that is a HOST_ACCESS misuse at `u` has R206's outcome, `u` agreeing with `s` on STATUS, PEND and CURCMD. -/
theorem hostAccessOutcome_of_step {s u : State} (hstep : step s = .next (hostFault .hostAccess u))
    (hstatus : u.status = s.status) (hpend : u.pend = s.pend) (hcur : u.curCmd = s.curCmd) :
    hostAccessOutcome s u := by
  unfold hostAccessOutcome Idle Running
  rw [hstep, ← hstatus, ← hpend, ← hcur]
  refine ⟨fun hidle => ?_, fun hrun hnone => ?_, fun hrun hsome => ?_, fun hfaulted => ?_⟩
  · rw [hostFault_idle _ hidle, raise_idle _ hidle]
    rfl
  · rw [hostFault_running _ hrun, latch_first _ _ hnone]
  · rw [hostFault_running _ hrun, latch_later _ _ hsome]
  · rw [hostFault_faulted _ hfaulted]

/-- Settles O10: a write of R203 reaches neither BUF nor CMD, a read of R203 nothing at all, and either is host
misuse. -/
theorem badHostAccess : Obligations.BadHostAccess := by
  refine ⟨fun s width off v rest hturn hin hbad => ?_, fun s width off rest hturn hin hbad => ?_⟩
  · have hstep := step_of_write hturn hin (portOf_of_badWrite hbad).1
    rw [hostWrite_of_badWrite hbad] at hstep
    exact hostAccessOutcome_of_step hstep rfl rfl rfl
  · have hstep := step_of_read hturn hin
    rw [hostRead_of_badRead hbad] at hstep
    exact ⟨_, hostAccessOutcome_of_step hstep rfl rfl rfl⟩

/-! ### Host accesses of BUF (20_memory.md R52) -/

/-- A write of BUF on a faulted core is dropped. -/
theorem hostWriteBuf_faulted (a b : Byte) {s : State} (h : s.status.faulted = true) : hostWriteBuf a b s = s :=
  if_pos h

/-- A write of BUF while a command runs is dropped, and latched as host misuse. -/
theorem hostWriteBuf_running (a b : Byte) {s : State} (h : Running s) :
    hostWriteBuf a b s = latch .bufWriteWhileBusy (s.curCmd.getD 0) s := by
  simp [hostWriteBuf, h.1, h.2]

/-- A write of BUF on an idle core is stored. -/
theorem hostWriteBuf_idle (a b : Byte) {s : State} (h : Idle s) : hostWriteBuf a b s = storeByte a b s := by
  simp [hostWriteBuf, h.1, h.2]

/-- A write of BUF on the host's turn. -/
theorem step_of_bufWrite {s : State} {a : Byte} {v : Word} {rest : List Input} (hturn : HostTurn s)
    (hin : s.inputs = .write 8 (a.setWidth 9) v :: rest) :
    step s = .next (hostWriteBuf a (v.setWidth 8) { s with inputs := rest }) := by
  rw [step_of_write hturn hin (portOf_buf a ▸ nofun)]
  simp only [hostWrite, portOf_buf]

/-- Settles O8, by the kind of core the write meets. -/
theorem hostBufWrites : Obligations.HostBufWrites := by
  intro s a v rest hturn hin
  rw [step_of_bufWrite hturn hin]
  refine ⟨fun hidle => ?_, fun hrun hnone => ?_, fun hrun hsome => ?_, fun hfaulted => ?_⟩
  · rw [hostWriteBuf_idle (s := { s with inputs := rest }) _ _ hidle]
    exact ⟨_, rfl, bufRead_bufWrite_same _ _ _, fun a' hne => bufRead_bufWrite_other _ _ _ _ hne⟩
  · rw [hostWriteBuf_running (s := { s with inputs := rest }) _ _ hrun,
      latch_first (s := { s with inputs := rest }) _ _ hnone]
  · rw [hostWriteBuf_running (s := { s with inputs := rest }) _ _ hrun,
      latch_later (s := { s with inputs := rest }) _ _ hsome]
  · rw [hostWriteBuf_faulted (s := { s with inputs := rest }) _ _ hfaulted]

/-- A read of BUF while a command runs returns a free byte. -/
theorem hostReadBuf_busy (a : Byte) (off : BitVec 9) {s : State} (h : s.status.busy = true) :
    hostReadBuf a off s = answerFreeByte off s := if_pos h

/-- A read of a written byte returns it. -/
theorem hostReadBuf_written {a b : Byte} (off : BitVec 9) {s : State} (h : s.status.busy = false)
    (hread : bufRead s.buf a = some b) : hostReadBuf a off s = answer (zext32 b) s := by
  simp [hostReadBuf, h, hread]

/-- A read of an Unwritten byte returns a free byte and raises BUF_UNWRITTEN. -/
theorem hostReadBuf_unwritten {a : Byte} (off : BitVec 9) {s : State} (h : s.status.busy = false)
    (hread : bufRead s.buf a = none) : hostReadBuf a off s = raise .bufUnwritten (answerFreeByte off s) := by
  simp [hostReadBuf, h, hread]

/-- A read of BUF on the host's turn. -/
theorem step_of_bufRead {s : State} {a : Byte} {rest : List Input} (hturn : HostTurn s)
    (hin : s.inputs = .read 8 (a.setWidth 9) :: rest) :
    step s = .next (hostReadBuf a (a.setWidth 9) { s with inputs := rest }) := by
  rw [step_of_read hturn hin]
  simp only [hostRead, portOf_buf]

/-- Settles O9: the byte's written mark and BUSY decide what is read, FAULTED what `raise` does. -/
theorem hostBufReads : Obligations.HostBufReads := by
  intro s a rest hturn hin
  rw [step_of_bufRead hturn hin]
  refine ⟨fun b hbusy hread => ?_, fun hidle hread => ?_, fun hfaulted hbusy hread => ?_, fun hbusy => ?_⟩
  · rw [hostReadBuf_written (s := { s with inputs := rest }) _ hbusy hread]
    rfl
  · rw [hostReadBuf_unwritten (s := { s with inputs := rest }) _ hidle.1 hread,
      raise_idle (s := answerFreeByte _ { s with inputs := rest }) _ hidle]
    exact ⟨_, rfl⟩
  · rw [hostReadBuf_unwritten (s := { s with inputs := rest }) _ hbusy hread,
      raise_faulted (s := answerFreeByte _ { s with inputs := rest }) _ hfaulted]
    exact ⟨_, rfl⟩
  · rw [hostReadBuf_busy (s := { s with inputs := rest }) _ _ hbusy]
    exact ⟨_, rfl⟩

end Sys2Proof.Machine

/-! Encoding: the fields of a command word, one rule per format for what decoding reads and what it turns away, and the
opcode map; with the statements they settle. -/

namespace Sys2Proof

/-! ### The fields of a word (30_encoding.md R70) -/

@[simp] theorem fieldA_wordOf (op a b c : Byte) : fieldA (wordOf op a b c) = a := by
  unfold fieldA wordOf
  rw [BitVec.extractLsb'_append_eq_of_le (by omega), BitVec.extractLsb'_append_eq_of_le (by omega),
    BitVec.extractLsb'_append_eq_right]

@[simp] theorem fieldB_wordOf (op a b c : Byte) : fieldB (wordOf op a b c) = b := by
  unfold fieldB wordOf
  rw [BitVec.extractLsb'_append_eq_of_le (by omega), BitVec.extractLsb'_append_eq_right]

@[simp] theorem fieldC_wordOf (op a b c : Byte) : fieldC (wordOf op a b c) = c :=
  BitVec.extractLsb'_append_eq_right

/-- I16 is {B, C}. -/
@[simp] theorem fieldI16_wordOf (op a b c : Byte) : fieldI16 (wordOf op a b c) = b ++ c := by
  unfold fieldI16 wordOf
  rw [BitVec.append_assoc, BitVec.extractLsb'_cast]
  exact BitVec.extractLsb'_append_eq_right

/-- I24 is {A, B, C}, the whole word below OP. -/
@[simp] theorem fieldI24_wordOf (op a b c : Byte) : fieldI24 (wordOf op a b c) = a ++ b ++ c := by
  unfold fieldI24 wordOf
  rw [BitVec.append_assoc, BitVec.append_assoc, BitVec.append_assoc (x₁ := a)]
  simp only [BitVec.extractLsb'_cast]
  exact BitVec.extractLsb'_append_eq_right

/-- The word of a 16-bit operand: A is 0, B and C are the operand's bytes. -/
theorem imm16_eq_wordOf (op b c : Byte) : op ++ 0#8 ++ (b ++ c) = wordOf op 0 b c := by
  unfold wordOf
  exact BitVec.append_assoc'

/-- The word of a 24-bit operand: A, B and C are the operand's bytes. -/
theorem imm24_eq_wordOf (op a b c : Byte) : op ++ (a ++ b ++ c) = wordOf op a b c := by
  unfold wordOf
  rw [BitVec.append_assoc', BitVec.append_assoc']
  rfl

/-- Every word is the word of its four bytes. -/
theorem wordOf_fields (w : Word) : wordOf (fieldOp w) (fieldA w) (fieldB w) (fieldC w) = w := by
  have high : fieldOp w ++ fieldA w = w.extractLsb' 16 16 :=
    BitVec.extractLsb'_append_extractLsb'_eq_extractLsb' rfl
  have upper : w.extractLsb' 16 16 ++ fieldB w = w.extractLsb' 8 24 :=
    BitVec.extractLsb'_append_extractLsb'_eq_extractLsb' rfl
  have whole : w.extractLsb' 8 24 ++ fieldC w = w := BitVec.extractLsb'_append_extractLsb'
  unfold wordOf
  rw [high, upper, whole]

/-- The opcode number of a word is its OP field. -/
theorem toNat_fieldOp (w : Word) : (fieldOp w).toNat = w.toNat / 2 ^ 24 := by
  simp only [fieldOp, BitVec.extractLsb'_toNat, Nat.shiftRight_eq_div_pow]
  omega

/-- A mask acts on the four bytes of a word one by one. -/
theorem wordOf_and (op a b c op' a' b' c' : Byte) :
    wordOf op a b c &&& wordOf op' a' b' c' = wordOf (op &&& op') (a &&& a') (b &&& b') (c &&& c') := by
  unfold wordOf
  rw [← BitVec.and_append, ← BitVec.and_append, ← BitVec.and_append]

theorem wordOf_eq_zero_iff (op a b c : Byte) : wordOf op a b c = 0 ↔ op = 0 ∧ a = 0 ∧ b = 0 ∧ c = 0 := by
  refine ⟨fun h => ⟨?_, ?_, ?_, ?_⟩, fun ⟨hop, ha, hb, hc⟩ => by subst hop ha hb hc; rfl⟩
  · rw [← Laws.fieldOp_wordOf op a b c, h]; rfl
  · rw [← fieldA_wordOf op a b c, h]; rfl
  · rw [← fieldB_wordOf op a b c, h]; rfl
  · rw [← fieldC_wordOf op a b c, h]; rfl

/-- A mask on A, B and C leaves nothing of a word exactly when it leaves nothing of these bytes. -/
theorem wordOf_and_eq_zero_iff (op a b c ma mb mc : Byte) :
    wordOf op a b c &&& wordOf 0 ma mb mc = 0 ↔ a &&& ma = 0 ∧ b &&& mb = 0 ∧ c &&& mc = 0 := by
  rw [wordOf_and, wordOf_eq_zero_iff]
  exact and_iff_right BitVec.and_zero

/-- The whole byte as a mask. -/
theorem and_byteMask (a : Byte) : a &&& 0xFF#8 = a := BitVec.and_allOnes

/-- Format CFG reserves the upper five bits of C. -/
theorem and_cfgMask_eq_zero_iff : ∀ c : Byte, c &&& 0xF8#8 = 0#8 ↔ c.extractLsb' 3 5 = 0#5 := by decide

/-- With its upper five bits 0, C is put together from its three flags. -/
theorem cfgByte_eq : ∀ c : Byte, c.extractLsb' 3 5 = 0 →
    0#5 ++ BitVec.ofBool (c.getLsbD 2) ++ BitVec.ofBool (c.getLsbD 1) ++ BitVec.ofBool (c.getLsbD 0) = c := by decide

/-- The flags of a byte put together from three flags. -/
theorem cfgByte_fields (cpol cpha cspol : Bool) :
    let c : Byte := 0#5 ++ BitVec.ofBool cspol ++ BitVec.ofBool cpha ++ BitVec.ofBool cpol
    c.extractLsb' 3 5 = 0 ∧ c.getLsbD 0 = cpol ∧ c.getLsbD 1 = cpha ∧ c.getLsbD 2 = cspol := by
  revert cpol cpha cspol
  decide

/-! ### Decoding an encoded command (30_encoding.md R71, R74) -/

theorem fieldOp_encode (i : Instr) : fieldOp (encode i) = opcode i := by
  cases i with
  | tbDlyUs n | tbDlyMs n => exact Laws.fieldOp_imm16 _ _
  | uartBrk budget => exact Laws.fieldOp_imm24 _ _
  | _ => exact Laws.fieldOp_wordOf _ _ _ _

theorem decodeN_wordOf (op : Byte) (i : Instr) : decodeN (wordOf op 0 0 0) i = .ok i := by
  simp [decodeN, ifReserved]

theorem decodeC8_wordOf (op c : Byte) (f : Byte → Instr) : decodeC8 (wordOf op 0 0 c) f = .ok (f c) := by
  simp [decodeC8, ifReserved]

theorem decodeBC_wordOf (op b c : Byte) (f : Byte → Byte → Instr) : decodeBC (wordOf op 0 b c) f = .ok (f b c) := by
  simp [decodeBC, ifReserved]

theorem decodeABC_wordOf (op a b c : Byte) (f : Byte → Byte → Byte → Instr) :
    decodeABC (wordOf op a b c) f = .ok (f a b c) := by
  simp [decodeABC]

theorem decodeI16_imm16 (op : Byte) (n : BitVec 16) (f : BitVec 16 → Instr) :
    decodeI16 (op ++ 0#8 ++ n) f = .ok (f n) := by
  have ha : fieldA (op ++ 0#8 ++ n) = 0 := by
    unfold fieldA
    rw [BitVec.extractLsb'_append_eq_of_le (by omega), BitVec.extractLsb'_append_eq_right]
    rfl
  have hn : fieldI16 (op ++ 0#8 ++ n) = n := BitVec.extractLsb'_append_eq_right
  simp [decodeI16, ifReserved, ha, hn]

theorem decodeI24_imm24 (op : Byte) (n : BitVec 24) (f : BitVec 24 → Instr) : decodeI24 (op ++ n) f = .ok (f n) :=
  congrArg (fun m => Except.ok (f m)) BitVec.extractLsb'_append_eq_right

theorem decodeCFG_wordOf (op : Byte) (cpol cpha cspol : Bool) (f : Bool → Bool → Bool → Instr) :
    decodeCFG (wordOf op 0 0 (0#5 ++ BitVec.ofBool cspol ++ BitVec.ofBool cpha ++ BitVec.ofBool cpol)) f =
      .ok (f cpol cpha cspol) := by
  obtain ⟨hzero, hcpol, hcpha, hcspol⟩ := cfgByte_fields cpol cpha cspol
  simp only [decodeCFG, ifReserved, fieldA_wordOf, fieldB_wordOf, fieldC_wordOf, hzero, hcpol, hcpha, hcspol]
  rfl

theorem decodeX_wordOf {t r : Bool} {a b : Byte} (op c : Byte) (f : Bool → Bool → Byte → Byte → Byte → Instr)
    (h : absentIsZero t r a b = true) : decodeX (wordOf op a b c) t r f = .ok (f t r a b c) := by
  simp [decodeX, ifReserved, h]

/-- Settles O1: OP of the encoded word selects the command's own row, and that row's format reads the operands back. -/
theorem decodeOfEncode : Obligations.DecodeOfEncode := by
  intro i hwf
  unfold decode
  rw [fieldOp_encode]
  cases i with
  | tbRead | spiSel | spiDesel | uartRx | uartWaitB | uartNoBrk | rfInit | rfRdy => exact decodeN_wordOf _ _
  | tbWrite c | tbWait c | spiXfer c | uartTx c | rfMode c | rfConfig c => exact decodeC8_wordOf _ _ _
  | tbDiff b c | rfRxF b c | rfRxC b c | mcValid b c | mcDecode b c => exact decodeBC_wordOf _ _ _ _
  | rfTx a b c | mcEncode a b c => exact decodeABC_wordOf _ _ _ _ _
  | tbDlyUs n | tbDlyMs n => exact decodeI16_imm16 _ _ _
  | uartBrk n => exact decodeI24_imm24 _ _ _
  | spiInit cpol cpha cspol => exact decodeCFG_wordOf _ _ _ _ _
  | spiXferB t r a b c | spiFrame t r a b c => cases t <;> cases r <;> exact decodeX_wordOf _ _ _ hwf

/-! ### What decoding a word answers (30_encoding.md R71, R72, R76) -/

theorem ifReserved_eq_ok_iff {zero : Bool} {i j : Instr} : ifReserved zero i = .ok j ↔ zero = true ∧ i = j := by
  cases zero <;> simp [ifReserved]

theorem ifReserved_eq_reservedNonzero_iff {zero : Bool} {i : Instr} :
    ifReserved zero i = .error .reservedNonzero ↔ ¬ zero = true := by
  cases zero <;> simp [ifReserved]

theorem ifReserved_ne_illegalOpcode {zero : Bool} {i : Instr} : ifReserved zero i ≠ .error .illegalOpcode := by
  cases zero <;> simp [ifReserved]

/-- `d` reads the word `w` under a format that reserves the bits of `mask`: it turns `w` away with RESERVED_NONZERO when
one of them is set, and otherwise reads the one command that `w` encodes. -/
def ReadsWord (w mask : Word) (d : Except DecodeError Instr) : Prop :=
  ∃ i, d = ifReserved (w &&& mask == 0) i ∧ (w &&& mask = 0 → i.wellFormed = true ∧ encode i = w)

/-- A format's check of its reserved fields is a check of the word against the format's mask. -/
theorem readsWord_of_bytes {op a b c ma mb mc : Byte} {zero : Bool} {i : Instr}
    (hzero : zero = true ↔ a &&& ma = 0 ∧ b &&& mb = 0 ∧ c &&& mc = 0)
    (hi : zero = true → i.wellFormed = true ∧ encode i = wordOf op a b c) :
    ReadsWord (wordOf op a b c) (wordOf 0 ma mb mc) (ifReserved zero i) := by
  have hmask := hzero.trans (wordOf_and_eq_zero_iff op a b c ma mb mc).symm
  refine ⟨i, congrArg (ifReserved · i) ?_, fun h => hi (hmask.2 h)⟩
  rw [Bool.eq_iff_iff, hmask, beq_iff_eq]

/-- Format X's mask of an address: the whole byte is reserved when its buffer is absent (R76). -/
def addressMask (present : Bool) : Byte := if present then 0 else 0xFF

theorem absentIsZero_iff (t r : Bool) (a b : Byte) :
    absentIsZero t r a b = true ↔ a &&& addressMask t = 0 ∧ b &&& addressMask r = 0 := by
  cases t <;> cases r <;> simp [absentIsZero, addressMask, and_byteMask]

/-! One rule per format: the bits it reserves, and that a row whose command has this format's encoding reads the
word. -/

section Formats

variable {op : Byte} (a b c : Byte)

theorem decodeN_reads {i : Instr} (hi : i.wellFormed = true ∧ encode i = wordOf op 0 0 0) :
    ReadsWord (wordOf op a b c) (wordOf 0 0xFF 0xFF 0xFF) (decodeN (wordOf op a b c) i) := by
  simp only [decodeN, fieldA_wordOf, fieldB_wordOf, fieldC_wordOf]
  refine readsWord_of_bytes (by simp [and_byteMask, and_assoc]) fun h => ?_
  simp only [Bool.and_eq_true, beq_iff_eq] at h
  obtain ⟨⟨ha, hb⟩, hc⟩ := h
  rw [ha, hb, hc]
  exact hi

theorem decodeC8_reads {f : Byte → Instr} (hf : ∀ c, (f c).wellFormed = true ∧ encode (f c) = wordOf op 0 0 c) :
    ReadsWord (wordOf op a b c) (wordOf 0 0xFF 0xFF 0) (decodeC8 (wordOf op a b c) f) := by
  simp only [decodeC8, fieldA_wordOf, fieldB_wordOf, fieldC_wordOf]
  refine readsWord_of_bytes (by simp [and_byteMask]) fun h => ?_
  simp only [Bool.and_eq_true, beq_iff_eq] at h
  obtain ⟨ha, hb⟩ := h
  rw [ha, hb]
  exact hf c

theorem decodeBC_reads {f : Byte → Byte → Instr}
    (hf : ∀ b c, (f b c).wellFormed = true ∧ encode (f b c) = wordOf op 0 b c) :
    ReadsWord (wordOf op a b c) (wordOf 0 0xFF 0 0) (decodeBC (wordOf op a b c) f) := by
  simp only [decodeBC, fieldA_wordOf, fieldB_wordOf, fieldC_wordOf]
  refine readsWord_of_bytes (by simp [and_byteMask]) fun h => ?_
  rw [beq_iff_eq.1 h]
  exact hf b c

theorem decodeABC_reads {f : Byte → Byte → Byte → Instr}
    (hf : ∀ a b c, (f a b c).wellFormed = true ∧ encode (f a b c) = wordOf op a b c) :
    ReadsWord (wordOf op a b c) (wordOf 0 0 0 0) (decodeABC (wordOf op a b c) f) := by
  simp only [decodeABC, fieldA_wordOf, fieldB_wordOf, fieldC_wordOf]
  exact readsWord_of_bytes (zero := true) (by simp) fun _ => hf a b c

theorem decodeI16_reads {f : BitVec 16 → Instr}
    (hf : ∀ n, (f n).wellFormed = true ∧ encode (f n) = op ++ 0#8 ++ n) :
    ReadsWord (wordOf op a b c) (wordOf 0 0xFF 0 0) (decodeI16 (wordOf op a b c) f) := by
  simp only [decodeI16, fieldA_wordOf, fieldI16_wordOf]
  refine readsWord_of_bytes (by simp [and_byteMask]) fun h => ?_
  rw [beq_iff_eq.1 h, ← imm16_eq_wordOf]
  exact hf (b ++ c)

theorem decodeI24_reads {f : BitVec 24 → Instr} (hf : ∀ n, (f n).wellFormed = true ∧ encode (f n) = op ++ n) :
    ReadsWord (wordOf op a b c) (wordOf 0 0 0 0) (decodeI24 (wordOf op a b c) f) := by
  simp only [decodeI24, fieldI24_wordOf]
  refine readsWord_of_bytes (zero := true) (by simp) fun _ => ?_
  rw [← imm24_eq_wordOf]
  exact hf (a ++ b ++ c)

theorem decodeCFG_reads {f : Bool → Bool → Bool → Instr}
    (hf : ∀ cpol cpha cspol, (f cpol cpha cspol).wellFormed = true ∧ encode (f cpol cpha cspol) =
      wordOf op 0 0 (0#5 ++ BitVec.ofBool cspol ++ BitVec.ofBool cpha ++ BitVec.ofBool cpol)) :
    ReadsWord (wordOf op a b c) (wordOf 0 0xFF 0xFF 0xF8) (decodeCFG (wordOf op a b c) f) := by
  simp only [decodeCFG, fieldA_wordOf, fieldB_wordOf, fieldC_wordOf]
  refine readsWord_of_bytes (by simp [and_byteMask, and_cfgMask_eq_zero_iff, and_assoc]) fun h => ?_
  simp only [Bool.and_eq_true, beq_iff_eq] at h
  obtain ⟨⟨ha, hb⟩, hc⟩ := h
  obtain ⟨hwf, hencode⟩ := hf (c.getLsbD 0) (c.getLsbD 1) (c.getLsbD 2)
  rw [cfgByte_eq c hc] at hencode
  rw [ha, hb]
  exact ⟨hwf, hencode⟩

theorem decodeX_reads (t r : Bool) {f : Bool → Bool → Byte → Byte → Byte → Instr}
    (hf : ∀ a b c, (f t r a b c).wellFormed = absentIsZero t r a b ∧ encode (f t r a b c) = wordOf op a b c) :
    ReadsWord (wordOf op a b c) (wordOf 0 (addressMask t) (addressMask r) 0) (decodeX (wordOf op a b c) t r f) := by
  simp only [decodeX, fieldA_wordOf, fieldB_wordOf, fieldC_wordOf]
  refine readsWord_of_bytes (by simp [absentIsZero_iff]) fun h => ?_
  obtain ⟨hwf, hencode⟩ := hf a b c
  exact ⟨hwf.trans h, hencode⟩

end Formats

/-! ### The opcode map (30_encoding.md R73, R75) -/

theorem opcode_eq_of_toNat {op : Byte} {n : Nat} (h : op.toNat = n) : op = BitVec.ofNat 8 n := by
  rw [← h, BitVec.ofNat_toNat, BitVec.setWidth_eq]

/-- An opcode R75 lists is turned away. -/
theorem decode_of_illegal {w : Word} (h : illegalOpcodeNumber (w.toNat / 2 ^ 24)) :
    decode w = .error .illegalOpcode := by
  rw [← toNat_fieldOp] at h
  simp only [illegalOpcodeNumber] at h
  unfold decode
  split
  case h_34 => rfl
  all_goals omega

/-- Every other opcode stands in the opcode map, and its row's format reads the word. -/
theorem decode_reads_wordOf (op a b c : Byte) (h : ¬ illegalOpcodeNumber op.toNat) :
    ReadsWord (wordOf op a b c) (reservedBits op.toNat) (decode (wordOf op a b c)) := by
  unfold decode
  rw [Laws.fieldOp_wordOf]
  split
  case h_34 =>
    unfold illegalOpcodeNumber at h
    grind
  all_goals
    rename_i hop
    obtain rfl := opcode_eq_of_toNat hop
  -- The opcode map's rows in the order of `decode`, by the format of the row (R73).
  case h_1 | h_8 | h_9 | h_20 | h_21 | h_23 | h_24 | h_28 => exact decodeN_reads a b c ⟨rfl, rfl⟩
  case h_2 | h_4 | h_10 | h_19 | h_25 | h_26 => exact decodeC8_reads a b c fun _ => ⟨rfl, rfl⟩
  case h_3 | h_29 | h_30 | h_31 | h_32 => exact decodeBC_reads a b c fun _ _ => ⟨rfl, rfl⟩
  case h_27 | h_33 => exact decodeABC_reads a b c fun _ _ _ => ⟨rfl, rfl⟩
  case h_5 | h_6 => exact decodeI16_reads a b c fun _ => ⟨rfl, rfl⟩
  case h_22 => exact decodeI24_reads a b c fun _ => ⟨rfl, rfl⟩
  case h_7 => exact decodeCFG_reads a b c fun _ _ _ => ⟨rfl, rfl⟩
  case h_11 | h_12 | h_13 | h_14 | h_15 | h_16 | h_17 | h_18 =>
    exact decodeX_reads a b c _ _ fun _ _ _ => ⟨rfl, rfl⟩

/-- What decode answers to any word (R72): R75's opcodes are illegal, and a word with any other is read by its row. -/
theorem decode_cases (w : Word) :
    (illegalOpcodeNumber (w.toNat / 2 ^ 24) ∧ decode w = .error .illegalOpcode) ∨
    (¬ illegalOpcodeNumber (w.toNat / 2 ^ 24) ∧ ReadsWord w (reservedBits (w.toNat / 2 ^ 24)) (decode w)) := by
  by_cases h : illegalOpcodeNumber (w.toNat / 2 ^ 24)
  · exact .inl ⟨h, decode_of_illegal h⟩
  · refine .inr ⟨h, ?_⟩
    rw [← toNat_fieldOp] at h ⊢
    have hreads := decode_reads_wordOf (fieldOp w) (fieldA w) (fieldB w) (fieldC w) h
    rwa [wordOf_fields] at hreads

theorem ReadsWord.illegalOpcode_ne {w mask : Word} {d : Except DecodeError Instr} (h : ReadsWord w mask d) :
    d ≠ .error .illegalOpcode := by
  obtain ⟨i, rfl, -⟩ := h
  exact ifReserved_ne_illegalOpcode

theorem ReadsWord.reservedNonzero_iff {w mask : Word} {d : Except DecodeError Instr} (h : ReadsWord w mask d) :
    d = .error .reservedNonzero ↔ w &&& mask ≠ 0 := by
  obtain ⟨i, rfl, -⟩ := h
  rw [ifReserved_eq_reservedNonzero_iff, beq_iff_eq]

theorem ReadsWord.encode_eq {w mask : Word} {i : Instr} (h : ReadsWord w mask (.ok i)) :
    i.wellFormed = true ∧ encode i = w := by
  obtain ⟨j, hread, hj⟩ := h
  obtain ⟨hmask, rfl⟩ := ifReserved_eq_ok_iff.1 hread.symm
  exact hj (beq_iff_eq.1 hmask)

/-- Settles O2: the row that reads the word encodes what it reads as that word. -/
theorem encodeOfDecode : Obligations.EncodeOfDecode := by
  intro w i hdecode
  rcases decode_cases w with ⟨-, hillegal⟩ | ⟨-, hreads⟩
  · rw [hillegal] at hdecode
    nomatch hdecode
  · rw [hdecode] at hreads
    exact hreads.encode_eq

/-- Settles O3: the words of R80 are fixed. -/
theorem workedEncodings : Obligations.WorkedEncodings := by
  unfold Obligations.WorkedEncodings
  decide

/-- The illegal opcodes are R75's. -/
theorem decode_eq_illegalOpcode_iff (w : Word) :
    decode w = .error .illegalOpcode ↔ illegalOpcodeNumber (w.toNat / 2 ^ 24) := by
  rcases decode_cases w with ⟨hop, hillegal⟩ | ⟨hop, hreads⟩
  · exact iff_of_true hillegal hop
  · exact iff_of_false hreads.illegalOpcode_ne hop

/-- With a legal opcode, RESERVED_NONZERO says exactly that a reserved bit is set (R76). -/
theorem decode_eq_reservedNonzero_iff {w : Word} (hlegal : ¬ illegalOpcodeNumber (w.toNat / 2 ^ 24)) :
    decode w = .error .reservedNonzero ↔ w &&& reservedBits (w.toNat / 2 ^ 24) ≠ 0 := by
  rcases decode_cases w with ⟨hop, -⟩ | ⟨-, hreads⟩
  · exact absurd hop hlegal
  · exact hreads.reservedNonzero_iff

end Sys2Proof

namespace Sys2Proof.Machine

/-! ### Words that do not decode (30_encoding.md R75, R76; 60_exceptions.md R204) -/

/-- A word that does not decode is accepted and faults at once. -/
theorem step_of_decodeError {s : State} {w : Word} {rest : List Input} {e : DecodeError} (hidle : Idle s)
    (hturn : HostTurn s) (hin : s.inputs = .write 32 0x100 w :: rest) (hdecode : decode w = .error e) :
    step s = .next (faultedWith (decodeFault e) (acceptedWord w { s with inputs := rest })) := by
  simp only [step, nextMove_of_idle hidle hturn hin, hdecode, accept_eq]
  rw [raise_running (s := acceptedWord w { s with inputs := rest }) _ ⟨rfl, hidle.2⟩]

/-- Settles O4: R75's opcodes are those outside the opcode map, and a word with one faults at its acceptance. -/
theorem illegalOpcodesFault : Obligations.IllegalOpcodesFault :=
  ⟨decode_eq_illegalOpcode_iff, fun _ w _ hidle hturn hin hop =>
    step_of_decodeError hidle hturn hin ((decode_eq_illegalOpcode_iff w).2 hop)⟩

/-- Settles O5: the reserved fields a row checks are the bits of its mask. -/
theorem reservedFieldsFault : Obligations.ReservedFieldsFault :=
  ⟨fun _ => decode_eq_reservedNonzero_iff, fun _ _ _ hidle hturn hin hlegal hbits =>
    step_of_decodeError hidle hturn hin ((decode_eq_reservedNonzero_iff hlegal).2 hbits)⟩

end Sys2Proof.Machine

/-! TimeBase: the modular distance, the loops that wait for T, and the delays built from them, each as a run with any
actions to follow; with the statements they settle. -/

namespace Sys2Proof.Machine

/-! ### Modular distance (40_timebase.md R102, R110) -/

/-- Both branches of R102 are the difference modulo 256. -/
theorem tickDiff_eq_sub (a b : Byte) : tickDiff a b = b - a := by
  unfold tickDiff
  split
  · rfl
  · bv_omega

/-- A distance and the one back make a whole turn of the tick counter. -/
theorem toNat_sub_add_toNat_sub {a b : Byte} (h : a ≠ b) : (b - a).toNat + (a - b).toNat = 256 := by
  bv_omega

/-- Settles O21: the distance is subtraction modulo 256. -/
theorem tickDiffLaws : Obligations.TickDiffLaws := by
  intro a b
  rw [tickDiff_eq_sub a a, tickDiff_eq_sub a b, tickDiff_eq_sub b a]
  refine ⟨BitVec.sub_self a, ?_, rfl, ?_⟩
  · rw [BitVec.add_comm, BitVec.sub_add_cancel]
  · split
    · next h => simp [h]
    · next h => exact toNat_sub_add_toNat_sub h

/-- The distance as a natural number, by R102's two branches. -/
theorem toNat_tickDiff (earlier later : Byte) :
    (tickDiff earlier later).toNat =
      if earlier.toNat ≤ later.toNat then later.toNat - earlier.toNat else 255 - earlier.toNat + 1 + later.toNat := by
  rw [tickDiff_eq_sub]
  split <;> bv_omega

/-- Settles O20: each of the three commands completes at its acceptance. -/
theorem tickReadWriteDiff : Obligations.TickReadWriteDiff := by
  intro v earlier later s hquiet
  have completes : ∀ (r : Word) (u : State), u.pend = none →
      (.next (finish .ok r u) : Host.Outcome State Fault Refusal) = .next (completedWith .ok r u) :=
    fun r u hu => by rw [finish_quiet .ok r hu]
  exact ⟨completes _ s hquiet, completes 0 { s with t := v } hquiet, tickDiff earlier later, completes _ s hquiet,
    toNat_tickDiff earlier later⟩

/-! ### Passing time -/

/-- No time passes in zero ticks. -/
@[simp] theorem later_zero (s : State) : later 0 s = s := by
  simp [later]

/-- Ticks add up. -/
theorem later_later (m n : Nat) (s : State) : later n (later m s) = later (m + n) s := by
  simp [later, BitVec.ofNat_add, BitVec.add_assoc, Nat.add_assoc]

@[simp] theorem later_t (n : Nat) (s : State) : (later n s).t = s.t + BitVec.ofNat 8 n := rfl
@[simp] theorem later_inputs (n : Nat) (s : State) : (later n s).inputs = s.inputs := rfl
@[simp] theorem later_pend (n : Nat) (s : State) : (later n s).pend = s.pend := rfl

/-! ### Runs from an agenda -/

/-- With no input waiting, a run performs the first action of a launched agenda. -/
theorem reaches_launch_act {s u : State} {a : Act} {next : List Act} (hin : s.inputs = []) (hne : a ≠ .awaitTick)
    (h : Reaches (perform a (launch next s)) u) : Reaches (launch (a :: next) s) u :=
  reaches_act (s := launch (a :: next) s) hin rfl hne h

/-- With no input waiting, `await_tick()` takes one tick. -/
theorem reaches_launch_awaitTick {s u : State} {next : List Act} (hin : s.inputs = [])
    (h : Reaches (launch next (later 1 s)) u) : Reaches (launch (.awaitTick :: next) s) u :=
  reaches_tick (s := launch (.awaitTick :: next) s) hin (.inr ⟨next, rfl⟩) h

/-- The action `loop` is `while p(T): await_tick()`, with the actions `after` to follow. -/
structure AwaitsWhile (loop : Act) (p : Byte → Prop) (after : List Act) : Prop where
  ne_awaitTick : loop ≠ .awaitTick
  awaits (s : State) : p s.t → perform loop s = push [.awaitTick, loop] s
  ends (s : State) : ¬ p s.t → perform loop s = push after s

/-- Phase 1 of `wait_until` (R104). -/
theorem awaitsWhile_whileAtOrAbove (start target : Byte) :
    AwaitsWhile (.whileAtOrAbove start target) (start ≤ ·) [.whileBelow target] :=
  ⟨nofun, fun _ h => if_pos h, fun _ h => if_neg h⟩

/-- Phase 2 of `wait_until` (R104). -/
theorem awaitsWhile_whileBelow (target : Byte) : AwaitsWhile (.whileBelow target) (· < target) [] :=
  ⟨nofun, fun _ h => if_pos h, fun _ h => if_neg h⟩

/-- A waiting loop takes as many ticks as its test holds of the readings of T in turn. -/
theorem AwaitsWhile.reaches {loop : Act} {p : Byte → Prop} {after : List Act} (hloop : AwaitsWhile loop p after)
    (next : List Act) (n : Nat) (s : State) (hin : s.inputs = []) (hwait : ∀ k, k < n → p (s.t + BitVec.ofNat 8 k))
    (hend : ¬ p (s.t + BitVec.ofNat 8 n)) :
    Reaches (launch (loop :: next) s) (launch (after ++ next) (later n s)) := by
  induction n generalizing s with
  | zero =>
    have hstop : ¬ p s.t := by simpa using hend
    refine reaches_launch_act hin hloop.ne_awaitTick ?_
    rw [hloop.ends (launch next s) hstop, later_zero]
    exact reaches_refl _
  | succ n ih =>
    have hgo : p s.t := by simpa using hwait 0 n.succ_pos
    refine reaches_launch_act hin hloop.ne_awaitTick ?_
    rw [hloop.awaits (launch next s) hgo]
    refine reaches_launch_awaitTick hin ?_
    rw [Nat.add_comm n 1, ← later_later]
    refine ih (later 1 s) hin (fun k hk => ?_) ?_
    · exact address_succ s.t k ▸ hwait (k + 1) (Nat.succ_lt_succ hk)
    · exact address_succ s.t n ▸ hend

/-! ### `wait_until` and the delays (40_timebase.md R104 to R108) -/

/-- `wait_until` does nothing at its target. -/
theorem performWaitUntil_here (s : State) : performWaitUntil s.t s = s := if_pos rfl

/-- `wait_until` needs both phases for a target behind T. -/
theorem performWaitUntil_behind {target : Byte} {s : State} (h : target < s.t) :
    performWaitUntil target s = push [.whileAtOrAbove s.t target] s := by
  have hne : target ≠ s.t := by bv_omega
  rw [performWaitUntil, if_neg hne, if_pos h]

/-- `wait_until` needs only phase 2 for a target ahead of T. -/
theorem performWaitUntil_ahead {target : Byte} {s : State} (h : s.t < target) :
    performWaitUntil target s = push [.whileBelow target] s := by
  have hne : target ≠ s.t := by bv_omega
  have hnot : ¬ target < s.t := by bv_omega
  rw [performWaitUntil, if_neg hne, if_neg hnot]

/-- Phase 2 ends when T has come up to the target, without a wrap. -/
theorem reaches_whileBelow (next : List Act) (target : Byte) (n : Nat) (s : State) (hin : s.inputs = [])
    (hn : s.t.toNat + n = target.toNat) :
    Reaches (launch (.whileBelow target :: next) s) (launch next (later n s)) := by
  refine (awaitsWhile_whileBelow target).reaches next n s hin (fun k hk => ?_) ?_ <;> bv_omega

/-- Phase 1 ends when T wraps to 0, which is below every start but 0. -/
theorem reaches_whileAtOrAbove (next : List Act) (target : Byte) (n : Nat) (s : State) (hin : s.inputs = [])
    (hstart : s.t ≠ 0) (hn : s.t.toNat + n = 256) :
    Reaches (launch (.whileAtOrAbove s.t target :: next) s) (launch (.whileBelow target :: next) (later n s)) := by
  refine (awaitsWhile_whileAtOrAbove s.t target).reaches next n s hin (fun k hk => ?_) ?_ <;> bv_omega

/-- `wait_until` for a target fewer than 256 ticks away takes exactly that many (R107). -/
theorem reaches_waitUntil (next : List Act) (n : Nat) (hn : n < 256) (s : State) (hin : s.inputs = []) :
    Reaches (launch (.waitUntil (s.t + BitVec.ofNat 8 n) :: next) s) (launch next (later n s)) := by
  refine reaches_launch_act hin nofun ?_
  show Reaches (performWaitUntil _ (launch next s)) _
  by_cases hzero : n = 0
  · subst hzero
    rw [BitVec.add_zero, later_zero, ← launch_t s next, performWaitUntil_here]
    exact reaches_refl _
  by_cases hwrap : s.t.toNat + n < 256
  · have hahead : s.t < s.t + BitVec.ofNat 8 n := by bv_omega
    rw [performWaitUntil_ahead (s := launch next s) hahead]
    exact reaches_whileBelow next _ n s hin (by bv_omega)
  · have hbehind : s.t + BitVec.ofNat 8 n < s.t := by bv_omega
    obtain ⟨m, hm⟩ : ∃ m, s.t.toNat + m = 256 := ⟨256 - s.t.toNat, by omega⟩
    obtain ⟨k, rfl⟩ : ∃ k, n = m + k := ⟨n - m, by omega⟩
    rw [performWaitUntil_behind (s := launch next s) hbehind, ← later_later]
    exact reaches_trans (reaches_whileAtOrAbove next _ m s hin (by bv_omega) hm)
      (reaches_whileBelow next _ k (later m s) hin (by rw [later_t]; bv_omega))

/-- The loop of `delay_us` with its target at T takes exactly `n` ticks, in waits of at most 255 (R105, R108). -/
theorem reaches_delayLoop (next : List Act) (n : Nat) (s : State) (hin : s.inputs = []) :
    Reaches (launch (.delayLoop n s.t :: next) s) (launch next (later n s)) := by
  induction n using Nat.strongRecOn generalizing s with
  | ind n ih =>
    refine reaches_launch_act hin nofun ?_
    show Reaches (performDelayLoop n s.t (launch next s)) _
    unfold performDelayLoop
    split
    · next hzero =>
      rw [hzero, later_zero]
      exact reaches_refl _
    · next hpos =>
      have hparts : min n 255 + (n - min n 255) = n := by omega
      refine reaches_trans (reaches_waitUntil _ (min n 255) (by omega) s hin) ?_
      have hrest := ih (n - min n 255) (by omega) (later (min n 255) s) hin
      rwa [later_later, hparts] at hrest

/-- `delay_us(n)` takes exactly `n` ticks (R108). -/
theorem reaches_delayUs (next : List Act) (n : Nat) (s : State) (hin : s.inputs = []) :
    Reaches (launch (.delayUs n :: next) s) (launch next (later n s)) :=
  reaches_launch_act hin nofun (reaches_delayLoop next n s hin)

/-- `delay_ms(n)` takes exactly `1000 n` ticks (R108). -/
theorem reaches_delayMs (next : List Act) (n : Nat) (s : State) (hin : s.inputs = []) :
    Reaches (launch (.delayMs n :: next) s) (launch next (later (1000 * n) s)) := by
  induction n generalizing s with
  | zero =>
    rw [Nat.mul_zero, later_zero]
    exact reaches_launch_act hin nofun (reaches_refl _)
  | succ n ih =>
    have hrest := ih (later 1000 s) hin
    rw [later_later, Nat.add_comm, ← Nat.mul_succ] at hrest
    exact reaches_launch_act hin nofun (reaches_trans (reaches_delayUs (.delayMs n :: next) 1000 s hin) hrest)

/-- At the end of the distance to it, T is at the target (R107). -/
theorem later_tickDiff (target : Byte) (s : State) :
    later (tickDiff s.t target).toNat s = { s with t := target, now := s.now + (tickDiff s.t target).toNat } := by
  have htarget : s.t + BitVec.ofNat 8 (tickDiff s.t target).toNat = target := by
    rw [BitVec.ofNat_toNat, BitVec.setWidth_eq]
    exact (tickDiffLaws s.t target).2.1
  rw [later, htarget]

/-- `wait_until` takes the distance from T to its target (R107). -/
theorem reaches_waitUntil_target (next : List Act) (target : Byte) (s : State) (hin : s.inputs = []) :
    Reaches (launch (.waitUntil target :: next) s)
      (launch next { s with t := target, now := s.now + (tickDiff s.t target).toNat }) := by
  have h := reaches_waitUntil next _ (tickDiff s.t target).isLt s hin
  rwa [← later_t, later_tickDiff] at h

/-- Settles O22, by the runs of the two phases and of the two delay loops. -/
theorem elapsedTimeLaws : Obligations.ElapsedTimeLaws := by
  intro target n next s ⟨hin, _⟩
  exact ⟨Nat.le_of_lt_succ (tickDiff s.t target).isLt, reaches_waitUntil_target next target s hin,
    reaches_delayUs next n s hin, reaches_delayMs next n s hin⟩

/-! ### Completion after a delay -/

/-- An agenda whose run comes down to its last action `finish` completes the command, where no host fault is
latched. -/
theorem reaches_completedWith {s u : State} {acts : List Act} {code : Code} {r : Word}
    (h : Reaches (launch acts s) (launch [.finish code r] u)) (hin : u.inputs = []) (hpend : u.pend = none) :
    Reaches (launch acts s) (completedWith code r u) := by
  refine reaches_trans h (reaches_launch_act hin nofun ?_)
  show Reaches (finish code r (launch [] u)) _
  rw [finish_quiet code r (s := launch [] u) hpend]
  exact reaches_refl _

/-- Settles O23: each command is one wait or delay with `finish` to follow. -/
theorem waitsAndDelaysComplete : Obligations.WaitsAndDelaysComplete := by
  intro target n s ⟨hin, hpend⟩
  exact ⟨⟨_, rfl, reaches_completedWith (reaches_waitUntil_target _ target s hin) hin hpend⟩,
    ⟨_, rfl, reaches_completedWith (reaches_delayUs _ n.toNat s hin) hin hpend⟩,
    ⟨_, rfl, reaches_completedWith (reaches_delayMs _ n.toNat s hin) hin hpend⟩⟩

end Sys2Proof.Machine

/-! SoftSpiBus: the checks of a transfer, one bit, one byte and a multi-byte exchange as runs with any actions to
follow; with the statements they settle. -/

namespace Sys2Proof.Machine

/-! ### Checks before the first effect (60_exceptions.md R204, R207) -/

/-- The first failing check of two lists is that of the first list, where it has one. -/
theorem firstFault_append (l l' : List (Option Cause)) :
    firstFault (l ++ l') = (firstFault l).or (firstFault l') := by
  induction l with
  | nil => rfl
  | cons c rest ih =>
    cases c with
    | none => exact ih
    | some c => rfl

/-- A failing check of a running command raises its fault. -/
theorem checked_of_fault {checks : List (Option Cause)} {c : Cause} {s : State} (body : State → State)
    (hrun : Running s) (h : firstFault checks = some c) : checked checks body s = faultedWith c s := by
  rw [← raise_running c hrun]
  simp only [checked, h]

/-- A command whose checks pass runs its body. -/
theorem checked_of_pass {checks : List (Option Cause)} {s : State} (body : State → State)
    (h : firstFault checks = none) : checked checks body s = body s := by
  simp only [checked, h]

/-- An unconfigured bus fails the first check (41_spi.md R121 to R123). -/
theorem requireConfigured_of_unconfigured {s : State} (h : s.busCfg.configured = false) :
    requireConfigured s = some .spiUnconfigured := by
  simp [requireConfigured, h]

/-- A configured bus passes it. -/
theorem requireConfigured_of_configured {s : State} (h : s.busCfg.configured = true) : requireConfigured s = none := by
  simp [requireConfigured, h]

/-- A transfer's first check is that the bus is configured (41_spi.md R123). -/
theorem firstFault_xferChecks_unconfigured {s : State} (h : s.busCfg.configured = false) :
    firstFault (xferChecks s) = some .spiUnconfigured := by
  rw [xferChecks, requireConfigured_of_unconfigured h, firstFault_some]

/-- A transfer's second check is clock phase 0 (41_spi.md R123). -/
theorem firstFault_xferChecks_phase1 {s : State} (h : s.busCfg.configured = true) (hcpha : s.busCfg.cpha = true) :
    firstFault (xferChecks s) = some .cphaUnimplemented := by
  simp [xferChecks, requireConfigured_of_configured h, requirePhase0, hcpha]

/-- A bus that can carry a transfer passes both (41_spi.md R123). -/
theorem firstFault_xferChecks_ready {s : State} (h : BusReady s) : firstFault (xferChecks s) = none := by
  simp [xferChecks, requireConfigured_of_configured h.1, requirePhase0, h.2]

/-! ### SPI.INIT, SPI.SEL and SPI.DESEL (41_spi.md R120 to R122) -/

/-- Settles O24: the one check of SPI.INIT passes exactly on an unconfigured bus. -/
theorem spiInitOnce : Obligations.SpiInitOnce := by
  intro cpol cpha cspol s
  refine ⟨fun hnew hquiet => ?_, fun hconf hrun => ?_⟩
  · have hpass : firstFault [require (!s.busCfg.configured) .spiReinit] = none := by simp [hnew]
    rw [exec, execSpiInit, checked_of_pass _ hpass, spiInitBody]
    exact congrArg Host.Outcome.next (finish_quiet .ok 0 hquiet)
  · have hfault : firstFault [require (!s.busCfg.configured) .spiReinit] = some .spiReinit := by simp [hconf]
    rw [exec, execSpiInit, checked_of_fault _ hrun hfault]

/-- Settles O25: the one check of both commands is that the bus is configured. -/
theorem spiSelectAndDeselect : Obligations.SpiSelectAndDeselect := by
  intro s
  refine ⟨fun hconf hquiet => ?_, fun hnew hrun => ?_⟩
  · have hpass : firstFault [requireConfigured s] = none := by simp [requireConfigured_of_configured hconf]
    have completes : ∀ l, finish .ok 0 (drive .cs l s) = completedWith .ok 0 (drive .cs l s) := fun l =>
      finish_quiet .ok 0 hquiet
    simp only [exec, execSpiSel, execSpiDesel, checked_of_pass _ hpass, completes]
    exact ⟨rfl, rfl⟩
  · have hfault : firstFault [requireConfigured s] = some .spiUnconfigured := by
      simp [requireConfigured_of_unconfigured hnew]
    simp only [exec, execSpiSel, execSpiDesel, checked_of_fault _ hrun hfault, and_self]

/-! ### The preconditions of a transfer (41_spi.md R123, 43_radio.md R160) -/

/-- The transfer checks come before whatever a command checks after them. -/
theorem checked_of_xferFault {s : State} {c : Cause} (rest : List (Option Cause)) (body : State → State)
    (hrun : Running s) (h : firstFault (xferChecks s) = some c) :
    checked (xferChecks s ++ rest) body s = faultedWith c s :=
  checked_of_fault body hrun (by rw [firstFault_append, h, Option.some_or])

/-- An operand of RF.MODE up to 2 names a mode (43_radio.md R164). -/
theorem modeOperand_of_le {mode : Byte} (h : mode.toNat ≤ 2) : ∃ m, modeOperand mode = some m := by
  have hvalues : mode.toNat = 0 ∨ mode.toNat = 1 ∨ mode.toNat = 2 := by omega
  rcases hvalues with hv | hv | hv <;> simp [modeOperand, hv]

/-- A command that transfers raises the fault of the transfer checks. -/
theorem exec_of_xferFault {i : Instr} {s : State} {c : Cause} (htransfers : transfers s i) (hrun : Running s)
    (h : firstFault (xferChecks s) = some c) : exec i s = .next (faultedWith c s) := by
  have alone : ∀ body, checked (xferChecks s) body s = faultedWith c s := fun body => checked_of_fault body hrun h
  have first : ∀ rest body, checked (xferChecks s ++ rest) body s = faultedWith c s := fun rest body =>
    checked_of_xferFault rest body hrun h
  cases i
  case spiXfer tx => simp only [exec, execSpiXfer, alone]
  case spiXferB t r a b count => simp only [exec, execSpiXferB, first]
  case spiFrame t r a b count => simp only [exec, execSpiFrame, first]
  case rfInit => simp only [exec, execRfInit, alone]
  case rfMode mode =>
    have hmode : mode.toNat ≤ 2 := htransfers
    obtain ⟨m, hm⟩ := modeOperand_of_le hmode
    simp only [exec, execRfMode, hm, alone]
  case rfConfig p =>
    have ⟨(hknown : p.toNat < s.par.profiles.length), (hmiss : s.profile ≠ some p)⟩ := htransfers
    obtain ⟨pairs, hpairs⟩ : ∃ pairs, s.par.profiles[p.toNat]? = some pairs :=
      ⟨_, List.getElem?_eq_getElem hknown⟩
    simp only [exec, execRfConfig, hpairs, if_neg hmiss, alone]
  case rfTx a len rep =>
    have ⟨(hpos : len ≠ 0), (hfits : len.toNat ≤ s.par.fifoCapacity)⟩ := htransfers
    simp only [exec, execRfTx, if_neg hpos, if_neg (Nat.not_lt.2 hfits), first]
  case rfRdy => simp only [exec, execRfRdy, first]
  case rfRxF b maxlen =>
    have hfits : maxlen.toNat ≤ s.par.fifoCapacity := htransfers
    simp only [exec, execRfRxF, if_neg (Nat.not_lt.2 hfits), first]
  case rfRxC b maxlen => simp only [exec, execRfRxC, first]
  all_goals exact False.elim htransfers

/-- Settles O26: the transfer checks are the first of every transferring command. -/
theorem transferPreconditions : Obligations.TransferPreconditions := fun _ _ htransfers hrun =>
  ⟨fun hnew => exec_of_xferFault htransfers hrun (firstFault_xferChecks_unconfigured hnew),
    fun hconf hcpha => exec_of_xferFault htransfers hrun (firstFault_xferChecks_phase1 hconf hcpha)⟩

/-! ### The operands of format X (20_memory.md R51, R53; 41_spi.md R126) -/

theorem regionLegal_iff (a : Byte) (n : Nat) : regionLegal a n = true ↔ a.toNat + n ≤ 256 := decide_eq_true_iff

theorem requireRange_of_legal {a : Byte} {n : Nat} (h : a.toNat + n ≤ 256) : requireRange a n = none := by
  rw [requireRange, (regionLegal_iff a n).2 h, require_true]

theorem requireRange_of_illegal {a : Byte} {n : Nat} (h : 256 < a.toNat + n) : requireRange a n = some .bufRange := by
  have hno : regionLegal a n = false := by simpa [regionLegal] using h
  rw [requireRange, hno, require_false]

theorem regionWritten_iff (m : Memory) (a : Byte) (n : Nat) :
    regionWritten m a n = true ↔ ∀ i, i < n → (bufRead m (a + BitVec.ofNat 8 i)).isSome = true := by
  simp [regionWritten]

theorem requireWritten_of_written {a : Byte} {n : Nat} {s : State}
    (h : ∀ i, i < n → (bufRead s.buf (a + BitVec.ofNat 8 i)).isSome = true) : requireWritten a n s = none := by
  rw [requireWritten, (regionWritten_iff s.buf a n).2 h, require_true]

theorem requireWritten_of_unwritten {a : Byte} {n : Nat} {s : State}
    (h : ∃ i, i < n ∧ bufRead s.buf (a + BitVec.ofNat 8 i) = none) : requireWritten a n s = some .bufUnwritten := by
  obtain ⟨i, hi, hnone⟩ := h
  have hno : regionWritten s.buf a n = false := by
    rw [Bool.eq_false_iff, Ne, regionWritten_iff]
    intro hall
    simpa [hnone] using hall i hi
  rw [requireWritten, hno, require_false]

/-- Operands that are ready pass the checks of format X. -/
theorem firstFault_xRegionChecks_ready {t r : Bool} {a b : Byte} {n : Nat} {s : State}
    (h : XOperandsReady t r a b n s) : firstFault (xRegionChecks t r a b n s) = none := by
  obtain ⟨htx, hrx⟩ := h
  have hrxRange : (if r then requireRange b n else none) = none := by
    cases r with
    | false => rfl
    | true => exact requireRange_of_legal (hrx rfl)
  cases t with
  | false => simp [xRegionChecks, hrxRange]
  | true =>
    obtain ⟨hrange, hwritten⟩ := htx rfl
    simp [xRegionChecks, hrxRange, requireRange_of_legal hrange, requireWritten_of_written hwritten]

/-- An illegal region of a present buffer comes before an Unwritten byte. -/
theorem firstFault_xRegionChecks_range {t r : Bool} {a b : Byte} {n : Nat} (s : State)
    (h : (t = true ∧ 256 < a.toNat + n) ∨ (r = true ∧ 256 < b.toNat + n)) :
    firstFault (xRegionChecks t r a b n s) = some .bufRange := by
  rcases h with ⟨rfl, htx⟩ | ⟨rfl, hrx⟩
  · simp [xRegionChecks, requireRange_of_illegal htx]
  · cases t with
    | false => simp [xRegionChecks, requireRange_of_illegal hrx]
    | true =>
      by_cases htx : a.toNat + n ≤ 256
      · simp [xRegionChecks, requireRange_of_legal htx, requireRange_of_illegal hrx]
      · simp [xRegionChecks, requireRange_of_illegal (Nat.not_le.1 htx)]

/-- With legal regions, an Unwritten tx byte fails the last check. -/
theorem firstFault_xRegionChecks_unwritten {r : Bool} {a b : Byte} {n : Nat} {s : State} (htx : a.toNat + n ≤ 256)
    (hrx : r = true → b.toNat + n ≤ 256) (h : ∃ i, i < n ∧ bufRead s.buf (a + BitVec.ofNat 8 i) = none) :
    firstFault (xRegionChecks true r a b n s) = some .bufUnwritten := by
  cases r with
  | false => simp [xRegionChecks, requireRange_of_legal htx, requireWritten_of_unwritten h]
  | true =>
    simp [xRegionChecks, requireRange_of_legal htx, requireRange_of_legal (hrx rfl), requireWritten_of_unwritten h]

/-- On a bus that can transfer, the checks of a format X command are those of its operands. -/
theorem firstFault_formatX {s : State} (h : BusReady s) (t r : Bool) (a b : Byte) (n : Nat) :
    firstFault (xferChecks s ++ xRegionChecks t r a b n s) = firstFault (xRegionChecks t r a b n s) := by
  rw [firstFault_append, firstFault_xferChecks_ready h, Option.none_or]

/-- Settles O31: both commands make the same checks. -/
theorem formatXBufferFaults : Obligations.FormatXBufferFaults := by
  intro t r a b count s hbus hrun
  have faults : ∀ c, firstFault (xRegionChecks t r a b count.toNat s) = some c →
      exec (.spiXferB t r a b count) s = .next (faultedWith c s) ∧
      exec (.spiFrame t r a b count) s = .next (faultedWith c s) := by
    intro c hc
    rw [← firstFault_formatX hbus] at hc
    simp only [exec, execSpiXferB, execSpiFrame, checked_of_fault _ hrun hc, and_self]
  refine ⟨fun hrange => faults _ (firstFault_xRegionChecks_range s hrange), fun ht htx hrx hunwritten => ?_⟩
  subst ht
  exact faults _ (firstFault_xRegionChecks_unwritten htx hrx hunwritten)

/-! ### Answers of MISO (10_state.md R36) -/

/-- No answers agree with any decided ones. -/
theorem agrees_nil (decided : List Bool) : Agrees decided [] := by simp [Agrees]

/-- The first answer takes the first decided one, and the later answers the rest. -/
theorem agrees_cons {decided : List Bool} {x : Bool} {xs : List Bool} (h : Agrees decided [x])
    (hrest : Agrees (decided.drop 1) xs) : Agrees decided (x :: xs) := by
  cases decided with
  | nil => simp [Agrees]
  | cons d rest => simp_all [Agrees]

/-- Answers to one part of an exchange, and answers to the part after it. -/
theorem agrees_append {decided xs ys : List Bool} (h : Agrees decided xs)
    (hrest : Agrees (decided.drop xs.length) ys) : Agrees decided (xs ++ ys) := by
  induction xs generalizing decided with
  | nil => exact hrest
  | cons x xs ih =>
    cases decided with
    | nil => simp [Agrees]
    | cons d rest =>
      simp only [Agrees, List.length_cons, List.take_succ_cons, List.cons.injEq] at h
      exact agrees_cons (by simp [Agrees, h.1]) (ih h.2 (by simpa using hrest))

/-- The answer to a sample of MISO is the decided one, where there is one. -/
theorem agrees_sample_miso (s : State) : Agrees s.misoIn [(sample .miso s).1] := by
  cases h : s.misoIn with
  | nil => simp [Agrees]
  | cons d rest => simp [Agrees, sample_miso_decided h]

/-! ### One bit of `spi_byte` (41_spi.md R124) -/

/-- The state after a sample of MISO that answered `x` was shifted into `rx`. -/
def afterSampleRx (x : Bool) (s : State) : State :=
  { s with
    hist := .sample s.now .miso x :: s.hist
    rx := shiftIn s.rx x
    misoIn := s.misoIn.drop 1
    draws := s.draws + (1 - s.misoIn.length) }

@[simp] theorem afterSampleRx_inputs (x : Bool) (s : State) : (afterSampleRx x s).inputs = s.inputs := rfl
@[simp] theorem afterSampleRx_par (x : Bool) (s : State) : (afterSampleRx x s).par = s.par := rfl
@[simp] theorem afterSampleRx_busCfg (x : Bool) (s : State) : (afterSampleRx x s).busCfg = s.busCfg := rfl
@[simp] theorem afterSampleRx_misoIn (x : Bool) (s : State) : (afterSampleRx x s).misoIn = s.misoIn.drop 1 := rfl
@[simp] theorem later_par (n : Nat) (s : State) : (later n s).par = s.par := rfl
@[simp] theorem later_busCfg (n : Nat) (s : State) : (later n s).busCfg = s.busCfg := rfl
@[simp] theorem later_misoIn (n : Nat) (s : State) : (later n s).misoIn = s.misoIn := rfl

/-- The state after bit `b` was sent and `x` received. -/
def afterBit (b x : Bool) (s : State) : State :=
  drive .sclk s.busCfg.cpol
    (afterSampleRx x (drive .sclk (!s.busCfg.cpol) (later s.par.spiSettleUs (drive .mosi b s))))

@[simp] theorem afterBit_inputs (b x : Bool) (s : State) : (afterBit b x s).inputs = s.inputs := by
  simp only [afterBit, drive_inputs, afterSampleRx_inputs, later_inputs]

@[simp] theorem afterBit_misoIn (b x : Bool) (s : State) : (afterBit b x s).misoIn = s.misoIn.drop 1 := by
  simp only [afterBit, drive_misoIn, afterSampleRx_misoIn, later_misoIn]

/-- A bit leaves alone what the actions of the next one depend on. -/
theorem spiBit_afterBit (b x : Bool) (s : State) : spiBit (afterBit b x s) = spiBit s := by
  funext b'
  simp only [spiBit, afterBit, drive_par, drive_busCfg, afterSampleRx_par, afterSampleRx_busCfg, later_par,
    later_busCfg]

/-- A run drives a pin. -/
theorem reaches_drive (p : OutPin) (l : Bool) {s u : State} {next : List Act} (hin : s.inputs = [])
    (h : Reaches (launch next (drive p l s)) u) : Reaches (launch (.drive p l :: next) s) u :=
  reaches_launch_act hin nofun h

/-- A run samples MISO into `rx`. -/
theorem reaches_sampleRx (next : List Act) (s : State) (hin : s.inputs = []) :
    ∃ x, Agrees s.misoIn [x] ∧ Reaches (launch (.sampleRx :: next) s) (launch next (afterSampleRx x s)) := by
  refine ⟨_, agrees_sample_miso (launch next s), reaches_launch_act hin nofun ?_⟩
  simp only [perform, performSampleRx, sample_miso]
  exact reaches_refl _

/-- One bit of `spi_byte`. -/
theorem reaches_spiBit (b : Bool) (next : List Act) (s : State) (hin : s.inputs = []) :
    ∃ x, Agrees s.misoIn [x] ∧ Reaches (launch (spiBit s b ++ next) s) (launch next (afterBit b x s)) := by
  obtain ⟨x, hx, hsample⟩ := reaches_sampleRx (.drive .sclk s.busCfg.cpol :: next)
    (drive .sclk (!s.busCfg.cpol) (later s.par.spiSettleUs (drive .mosi b s))) hin
  refine ⟨x, hx, reaches_drive .mosi b hin ?_⟩
  refine reaches_trans (reaches_delayUs _ s.par.spiSettleUs (drive .mosi b s) hin) ?_
  exact reaches_drive .sclk _ hin (reaches_trans hsample (reaches_drive .sclk _ hin (reaches_refl _)))

/-! ### The eight bits of a byte (41_spi.md R124) -/

/-- The state after the bits `bs` were sent and `xs` received. -/
def afterBits (bs xs : List Bool) (s : State) : State :=
  match bs, xs with
  | b :: bs, x :: xs => afterBits bs xs (afterBit b x s)
  | _, _ => s

/-- The bits of `spi_byte`, in order. -/
theorem reaches_spiBits (bs : List Bool) (next : List Act) (s : State) (hin : s.inputs = []) :
    ∃ xs, xs.length = bs.length ∧ Agrees s.misoIn xs ∧
      Reaches (launch (bs.flatMap (spiBit s) ++ next) s) (launch next (afterBits bs xs s)) := by
  induction bs generalizing s with
  | nil => exact ⟨[], rfl, agrees_nil _, reaches_refl _⟩
  | cons b bs ih =>
    obtain ⟨x, hx, hbit⟩ := reaches_spiBit b (bs.flatMap (spiBit s) ++ next) s hin
    obtain ⟨xs, hlen, hxs, hbits⟩ := ih (afterBit b x s) (by rw [afterBit_inputs, hin])
    rw [afterBit_misoIn] at hxs
    rw [spiBit_afterBit] at hbits
    refine ⟨x :: xs, congrArg (· + 1) hlen, agrees_cons hx hxs, ?_⟩
    rw [List.flatMap_cons, List.append_assoc]
    exact reaches_trans hbit hbits

/-- A bit shifted in becomes bit 0, and moves the others up. -/
theorem getElem_shiftIn (rx : Byte) (x : Bool) (i : Nat) (hi : i < 8) :
    (shiftIn rx x)[i] = if i = 0 then x else rx[i - 1] := by
  cases i with
  | zero => simp [shiftIn]
  | succ i => simp [shiftIn]

/-- Eight answers are the answers of the byte they are shifted into. -/
theorem answersOf_shiftIn {xs : List Bool} (h : xs.length = 8) : answersOf (xs.foldl shiftIn 0) = xs := by
  match xs, h with
  | [_, _, _, _, _, _, _, _], _ => simp [answersOf, getElem_shiftIn]

/-- The answers of a byte are shifted into it. -/
theorem foldl_shiftIn_answersOf : ∀ rx : Byte, (answersOf rx).foldl shiftIn 0 = rx := by decide

/-- The eight bits of a byte, with `rx` cleared before them, are its exchange. -/
theorem afterBits_answersOf (tx rx : Byte) (s : State) :
    afterBits (answersOf tx) (answersOf rx) { s with rx := 0 } = afterByte tx rx s := by
  have hrx := foldl_shiftIn_answersOf rx
  simp only [answersOf, List.map_cons, List.map_nil, List.foldl_cons, List.foldl_nil] at hrx
  simp only [answersOf, List.map_cons, List.map_nil, afterBits, afterBit, afterSampleRx, drive, logEvent, later,
    afterByte, State.mk.injEq, true_and, and_true]
  refine ⟨?ticks, ?now, rfl, ?events, hrx, ?answers, ?draws⟩
  case ticks => bv_omega
  case now => omega
  case events =>
    have hrange : List.range 8 = [0, 1, 2, 3, 4, 5, 6, 7] := rfl
    simp only [byteEvents, bitEvents, hrange, List.flatMap_cons, List.flatMap_nil, List.append_nil, List.cons_append,
      List.nil_append, List.reverse_cons, List.reverse_nil, List.cons.injEq, Event.drive.injEq, Event.sample.injEq,
      Nat.reduceSub, and_true]
    omega
  case answers => simp only [List.drop_drop, Nat.reduceAdd]
  case draws =>
    simp only [List.length_drop]
    omega

/-- `spi_byte` sends the bits of its byte, most significant first. -/
theorem spiByte_eq (s : State) (tx : Byte) : spiByte s tx = .clearRx :: (answersOf tx).flatMap (spiBit s) := by
  rw [spiByte, answersOf, List.flatMap_map]

/-- `spi_byte` exchanges one byte, with what MISO answers. -/
theorem reaches_spiByte (tx : Byte) (next : List Act) (s : State) (hin : s.inputs = []) :
    ∃ rx, Agrees s.misoIn (answersOf rx) ∧
      Reaches (launch (spiByte s tx ++ next) s) (launch next (afterByte tx rx s)) := by
  obtain ⟨xs, hlen, hxs, hbits⟩ := reaches_spiBits (answersOf tx) next { s with rx := 0 } hin
  have hrx : answersOf (xs.foldl shiftIn 0) = xs := answersOf_shiftIn hlen
  refine ⟨xs.foldl shiftIn 0, hrx.symm ▸ hxs, ?_⟩
  rw [spiByte_eq, ← afterBits_answersOf, hrx]
  exact reaches_launch_act hin nofun hbits

/-- A run that ends with SPI.XFER's `finish` completes with the byte received last. -/
theorem reaches_finishRx {s : State} (hin : s.inputs = []) (hpend : s.pend = none) :
    Reaches (launch [.finishRx] s) (completedWith .ok (s.rx.setWidth 32) s) := by
  refine reaches_launch_act hin nofun ?_
  show Reaches (finish .ok (zext32 s.rx) (launch [] s)) _
  rw [finish_quiet .ok _ (s := launch [] s) hpend]
  exact reaches_refl _

/-- Settles O27: SPI.XFER is one `spi_byte` with `finish` to follow. -/
theorem spiByteExchange : Obligations.SpiByteExchange := by
  intro tx next s ⟨hin, hpend⟩
  refine ⟨reaches_spiByte tx next s hin, fun hbus => ?_⟩
  obtain ⟨rx, hrx, hrun⟩ := reaches_spiByte tx [.finishRx] s hin
  have hexec : exec (.spiXfer tx) s = .next (launch (spiByte s tx ++ [.finishRx]) s) := by
    rw [exec, execSpiXfer, checked_of_pass _ (firstFault_xferChecks_ready hbus)]
  exact ⟨rx, hrx, _, hexec, reaches_trans hrun (reaches_finishRx (s := afterByte tx rx s) hin hpend)⟩

/-! ### Exchanges of many bytes (41_spi.md R126 to R128) -/

/-- One round of `spi_bytes`: a byte is sent, and the byte received is stored where there is an rx buffer. -/
def afterRound (t r : Bool) (a b rx : Byte) (s : State) : State :=
  if r then storeByte b rx (afterByte (if t then bufGet s.buf a else 0) rx s)
  else afterByte (if t then bufGet s.buf a else 0) rx s

/-- An exchange is its rounds, at successive addresses. -/
theorem afterExchange_cons (t r : Bool) (a b rx : Byte) (rxs : List Byte) (s : State) :
    afterExchange t r a b (rx :: rxs) s = afterExchange t r (a + 1) (b + 1) rxs (afterRound t r a b rx s) := rfl

@[simp] theorem afterRound_misoIn (t r : Bool) (a b rx : Byte) (s : State) :
    (afterRound t r a b rx s).misoIn = s.misoIn.drop 8 := by
  cases r <;> rfl

@[simp] theorem afterRound_inputs (t r : Bool) (a b rx : Byte) (s : State) :
    (afterRound t r a b rx s).inputs = s.inputs := by
  cases r <;> rfl

@[simp] theorem afterRound_pend (t r : Bool) (a b rx : Byte) (s : State) :
    (afterRound t r a b rx s).pend = s.pend := by
  cases r <;> rfl

/-- An exchange leaves the inputs and PEND alone. -/
theorem afterExchange_frame (t r : Bool) (a b : Byte) (rxs : List Byte) (s : State) :
    (afterExchange t r a b rxs s).inputs = s.inputs ∧ (afterExchange t r a b rxs s).pend = s.pend := by
  induction rxs generalizing a b s with
  | nil => exact ⟨rfl, rfl⟩
  | cons rx rest ih => simpa [afterExchange_cons] using ih (a + 1) (b + 1) (afterRound t r a b rx s)

/-- One round of `spi_bytes`, with the later rounds to follow. -/
theorem reaches_spiRound (t r : Bool) (a b : Byte) (n : Nat) (next : List Act) (s : State) (hin : s.inputs = []) :
    ∃ rx, Agrees s.misoIn (answersOf rx) ∧
      Reaches (launch (.spiBytes t r a b (n + 1) :: next) s)
        (launch (.spiBytes t r (a + 1) (b + 1) n :: next) (afterRound t r a b rx s)) := by
  obtain ⟨rx, hrx, hbyte⟩ := reaches_spiByte (if t then bufGet s.buf a else 0)
    ((if r then [.storeRx b] else []) ++ .spiBytes t r (a + 1) (b + 1) n :: next) s hin
  refine ⟨rx, hrx, reaches_launch_act hin nofun ?_⟩
  have hpush : perform (.spiBytes t r a b (n + 1)) (launch next s) =
      launch (spiByte s (if t then bufGet s.buf a else 0) ++
        ((if r then [.storeRx b] else []) ++ .spiBytes t r (a + 1) (b + 1) n :: next)) s := by
    simp only [perform, performSpiBytes, push, List.append_assoc]
    rfl
  rw [hpush]
  refine reaches_trans hbyte ?_
  cases r with
  | false => exact reaches_refl _
  | true => exact reaches_launch_act hin nofun (reaches_refl _)

/-- The answers to a whole byte are eight. -/
theorem length_answersOf (rx : Byte) : (answersOf rx).length = 8 := rfl

/-- `spi_bytes` exchanges its bytes in address order. -/
theorem reaches_spiBytes (t r : Bool) (a b : Byte) (n : Nat) (next : List Act) (s : State) (hin : s.inputs = []) :
    ∃ rxs : List Byte, rxs.length = n ∧ Agrees s.misoIn (answersOfAll rxs) ∧
      Reaches (launch (.spiBytes t r a b n :: next) s) (launch next (afterExchange t r a b rxs s)) := by
  induction n generalizing a b s with
  | zero => exact ⟨[], rfl, agrees_nil _, reaches_launch_act hin nofun (reaches_refl _)⟩
  | succ n ih =>
    obtain ⟨rx, hrx, hround⟩ := reaches_spiRound t r a b n next s hin
    have hin' : (afterRound t r a b rx s).inputs = [] := by rw [afterRound_inputs, hin]
    obtain ⟨rxs, hlen, hrxs, hrest⟩ := ih (a + 1) (b + 1) (afterRound t r a b rx s) hin'
    rw [afterRound_misoIn, ← length_answersOf rx] at hrxs
    exact ⟨rx :: rxs, congrArg (· + 1) hlen, agrees_append hrx hrxs, reaches_trans hround hrest⟩

/-- Where the bus and the operands are ready, the checks of a format X command pass. -/
theorem firstFault_formatX_ready {t r : Bool} {a b : Byte} {n : Nat} {s : State} (hbus : BusReady s)
    (hready : XOperandsReady t r a b n s) : firstFault (xferChecks s ++ xRegionChecks t r a b n s) = none := by
  rw [firstFault_formatX hbus, firstFault_xRegionChecks_ready hready]

/-- Settles O29: SPI.XFERB is one exchange with `finish` to follow. -/
theorem spiXferBytesCompletes : Obligations.SpiXferBytesCompletes := by
  intro t r a b count s ⟨hin, hpend⟩ hbus hready
  obtain ⟨rxs, hlen, hrxs, hrun⟩ := reaches_spiBytes t r a b count.toNat [.finish .ok 0] s hin
  obtain ⟨hin', hpend'⟩ := afterExchange_frame t r a b rxs s
  have hexec : exec (.spiXferB t r a b count) s =
      .next (launch [.spiBytes t r a b count.toNat, .finish .ok 0] s) := by
    rw [exec, execSpiXferB, checked_of_pass _ (firstFault_formatX_ready hbus hready)]
  exact ⟨rxs, hlen, hrxs, _, hexec, reaches_completedWith hrun (hin'.trans hin) (hpend'.trans hpend)⟩

/-- Settles O30: SPI.FRAME is one exchange between two drives of CS. -/
theorem spiFrameCompletes : Obligations.SpiFrameCompletes := by
  intro t r a b count s ⟨hin, hpend⟩ hbus hready
  obtain ⟨rxs, hlen, hrxs, hrun⟩ := reaches_spiBytes t r a b count.toNat [deselectAct s, .finish .ok 0]
    (drive .cs s.busCfg.cspol s) hin
  obtain ⟨hin', hpend'⟩ := afterExchange_frame t r a b rxs (drive .cs s.busCfg.cspol s)
  have hexec : exec (.spiFrame t r a b count) s =
      .next (launch [selectAct s, .spiBytes t r a b count.toNat, deselectAct s, .finish .ok 0] s) := by
    rw [exec, execSpiFrame, checked_of_pass _ (firstFault_formatX_ready hbus hready)]
  have hframe : Reaches (launch [selectAct s, .spiBytes t r a b count.toNat, deselectAct s, .finish .ok 0] s)
      (launch [.finish .ok 0] (drive .cs (!s.busCfg.cspol) (afterExchange t r a b rxs (drive .cs s.busCfg.cspol s)))) :=
    reaches_drive .cs _ hin (reaches_trans hrun (reaches_drive .cs _ (hin'.trans hin) (reaches_refl _)))
  exact ⟨rxs, hlen, hrxs, _, hexec, reaches_completedWith hframe (hin'.trans hin) (hpend'.trans hpend)⟩

end Sys2Proof.Machine

/-! SoftSerialLine: a character sent, a character received, the two spins and the break loop as runs, with what URX
answers; with the statements they settle. -/

namespace Sys2Proof.Machine

/-! ### UART.TX (42_uart.md R140) -/

/-- The state after UTX was driven to `b` and held there for one bit period. -/
def afterPeriod (b : Bool) (s : State) : State := later s.par.uartBit (drive .utx b s)

/-- The state after UTX was driven to the levels `bs`, one bit period each. -/
def afterPeriods (bs : List Bool) (s : State) : State :=
  match bs with
  | [] => s
  | b :: rest => afterPeriods rest (afterPeriod b s)

/-- The actions that send the levels `bs`, where `k` bit periods have passed since T was read as `t0`. -/
def periodActs (par : Params) (t0 : Byte) (k : Nat) (bs : List Bool) : List Act :=
  match bs with
  | [] => []
  | b :: rest =>
    .drive .utx b :: .waitUntil (t0 + BitVec.ofNat 8 ((k + 1) * par.uartBit)) :: periodActs par t0 (k + 1) rest

/-- UART.TX sends a good frame of its byte, and waits one more bit period. -/
theorem uartTxActs_eq (par : Params) (t0 byte : Byte) :
    uartTxActs par t0 byte = periodActs par t0 0 (frameBits byte true) ++
      [.waitUntil (t0 + BitVec.ofNat 8 ((10 + 1) * par.uartBit)), .finish .ok 0] := rfl

/-- The target of the next wait is one bit period on. -/
theorem add_ofNat_succ_mul (t0 : Byte) (k bit : Nat) :
    t0 + BitVec.ofNat 8 ((k + 1) * bit) = t0 + BitVec.ofNat 8 (k * bit) + BitVec.ofNat 8 bit := by
  rw [Nat.succ_mul, BitVec.ofNat_add, BitVec.add_assoc]

/-- A wait for the target one bit period on takes one bit period. -/
theorem reaches_waitBit (next : List Act) (s : State) (hin : s.inputs = []) :
    Reaches (launch (.waitUntil (s.t + BitVec.ofNat 8 s.par.uartBit) :: next) s)
      (launch next (later s.par.uartBit s)) :=
  reaches_waitUntil next _ (Nat.lt_succ_of_le s.par.uartBit_range.2) s hin

/-- A wait for the next multiple of the bit period takes one bit period. -/
theorem reaches_waitPeriod {t0 : Byte} {k : Nat} (next : List Act) (s : State) (hin : s.inputs = [])
    (ht : s.t = t0 + BitVec.ofNat 8 (k * s.par.uartBit)) :
    Reaches (launch (.waitUntil (t0 + BitVec.ofNat 8 ((k + 1) * s.par.uartBit)) :: next) s)
      (launch next (later s.par.uartBit s)) := by
  rw [add_ofNat_succ_mul, ← ht]
  exact reaches_waitBit next s hin

/-- The levels `bs` are sent one bit period each, and the waits keep to the multiples of the bit period. -/
theorem reaches_periods (bs : List Bool) {t0 : Byte} {k : Nat} (next : List Act) (s : State) (hin : s.inputs = [])
    (ht : s.t = t0 + BitVec.ofNat 8 (k * s.par.uartBit)) :
    Reaches (launch (periodActs s.par t0 k bs ++ next) s) (launch next (afterPeriods bs s)) ∧
      (afterPeriods bs s).t = t0 + BitVec.ofNat 8 ((k + bs.length) * s.par.uartBit) := by
  induction bs generalizing k s with
  | nil => exact ⟨reaches_refl _, ht⟩
  | cons b rest ih =>
    have ht' : (afterPeriod b s).t = t0 + BitVec.ofNat 8 ((k + 1) * s.par.uartBit) := by
      rw [add_ofNat_succ_mul, ← ht]
      rfl
    obtain ⟨hrun, hend⟩ := ih (afterPeriod b s) hin ht'
    refine ⟨reaches_drive .utx b hin (reaches_trans (reaches_waitPeriod _ (drive .utx b s) hin ht) hrun), ?_⟩
    rw [List.length_cons, Nat.add_comm rest.length, ← Nat.add_assoc]
    exact hend

/-- Sending takes its time and leaves the inputs, PEND and the parameters alone. -/
theorem afterPeriods_frame (bs : List Bool) (s : State) :
    (afterPeriods bs s).inputs = s.inputs ∧ (afterPeriods bs s).pend = s.pend ∧
      (afterPeriods bs s).par = s.par := by
  induction bs generalizing s with
  | nil => exact ⟨rfl, rfl, rfl⟩
  | cons b rest ih => exact ih (afterPeriod b s)

/-- The ten periods of a character and the second stop-bit period are R140's waveform. -/
theorem later_afterPeriods_frameBits (byte : Byte) (s : State) :
    later s.par.uartBit (afterPeriods (frameBits byte true) s) = { later (11 * s.par.uartBit) s with
      pins := { s.pins with utx := .high }
      hist := (txEvents s.now s.par.uartBit byte).reverse ++ s.hist } := by
  have hrange : List.range 8 = [0, 1, 2, 3, 4, 5, 6, 7] := rfl
  simp only [frameBits, hrange, List.map_cons, List.map_nil, List.cons_append, List.nil_append, afterPeriods,
    afterPeriod, drive, logEvent, later, Pins.set, levelOf, State.mk.injEq, true_and, and_true]
  refine ⟨?ticks, ?now, rfl, ?events⟩
  case ticks => bv_omega
  case now => omega
  case events =>
    simp only [txEvents, hrange, List.map_cons, List.map_nil, List.cons_append, List.nil_append, List.reverse_cons,
      List.reverse_nil, List.cons.injEq, Event.drive.injEq, and_true]
    omega

/-- Settles O32: UART.TX sends the levels of a good frame, waits one bit period more, and finishes. -/
theorem uartTxCompletes : Obligations.UartTxCompletes := by
  intro byte s ⟨hin, hpend⟩
  have hstart : s.t = s.t + BitVec.ofNat 8 (0 * s.par.uartBit) := by simp
  obtain ⟨hin', hpend', hpar⟩ := afterPeriods_frame (frameBits byte true) s
  obtain ⟨hsend, hten⟩ := reaches_periods (frameBits byte true)
    [.waitUntil (s.t + BitVec.ofNat 8 ((10 + 1) * s.par.uartBit)), .finish .ok 0] s hin hstart
  have hwait := reaches_waitPeriod (t0 := s.t) (k := 10) [.finish .ok 0] (afterPeriods (frameBits byte true) s)
    (hin'.trans hin) (by rw [hten, hpar]; rfl)
  rw [hpar, later_afterPeriods_frameBits] at hwait
  refine ⟨_, rfl, ?_⟩
  rw [uartTxActs_eq]
  exact reaches_completedWith (reaches_trans hsend hwait) hin hpend

/-! ### Answers of URX (10_state.md R36) -/

/-- The answer to a sample of URX is the decided one, where there is one. -/
theorem agrees_sample_urx (s : State) : Agrees s.urxIn [(sample .urx s).1] := by
  cases h : s.urxIn with
  | nil => exact rfl
  | cons b rest => simp [Agrees, sample_urx_decided h]

/-- A sample of URX takes some answer, with any actions to follow. -/
theorem exists_sample_urx_launch (next : List Act) (s : State) :
    ∃ b, Agrees s.urxIn [b] ∧ sample .urx (launch next s) = (b, launch next (afterSample b s)) :=
  ⟨_, agrees_sample_urx (launch next s), Prod.ext rfl (sample_urx (launch next s))⟩

/-- A decided answer is the one a sample of URX takes. -/
theorem sample_urx_launch_decided {s : State} {b : Bool} {rest : List Bool} (next : List Act)
    (h : s.urxIn = b :: rest) : sample .urx (launch next s) = (b, launch next (afterSample b s)) := by
  have hb : (sample .urx (launch next s)).1 = b := sample_urx_decided (s := launch next s) h
  refine Prod.ext hb ?_
  rw [sample_urx, hb]
  rfl

/-- Answers that agree with as many decided ones are those. -/
theorem eq_of_agrees_append {bits rest xs : List Bool} (h : Agrees (bits ++ rest) xs)
    (hlen : xs.length = bits.length) : xs = bits := by
  simpa [Agrees, hlen, List.take_of_length_le] using h

/-! ### One character received: `uart_receive` (42_uart.md R141, R146) -/

/-- The state after samples of URX that answered `bs`, each with one bit period after it. -/
def afterBitSamples (bs : List Bool) (s : State) : State :=
  match bs with
  | [] => s
  | b :: rest => afterBitSamples rest (later s.par.uartBit (afterSample b s))

/-- `d` with the bits from `i` on set to `bs`. -/
def setBits (d : Byte) (i : Nat) (bs : List Bool) : Byte :=
  match bs with
  | [] => d
  | b :: rest => setBits (setBit d i b) (i + 1) rest

/-- Samples leave the inputs alone, and take one answer each. -/
theorem afterBitSamples_frame (bs : List Bool) (s : State) :
    (afterBitSamples bs s).inputs = s.inputs ∧ (afterBitSamples bs s).urxIn = s.urxIn.drop bs.length := by
  induction bs generalizing s with
  | nil => exact ⟨rfl, rfl⟩
  | cons b rest ih =>
    obtain ⟨hin, hurx⟩ := ih (later s.par.uartBit (afterSample b s))
    refine ⟨hin, hurx.trans ?_⟩
    show (s.urxIn.drop 1).drop rest.length = _
    rw [List.drop_drop, List.length_cons, Nat.add_comm]

/-- Data bit `i` and the `m` after it are sampled, a bit period apart (R141). -/
theorem reaches_uartData (c : RxCaller) (next : List Act) (m i : Nat) (hm : i + m = 7) (d : Byte) (s : State)
    (hin : s.inputs = []) :
    ∃ bs, bs.length = m + 1 ∧ Agrees s.urxIn bs ∧
      Reaches (launch (.uartData c i d s.t :: next) s)
        (launch (.uartStop c (setBits d i bs) :: next) (afterBitSamples bs s)) := by
  induction m generalizing i d s with
  | zero =>
    obtain ⟨b, hb, hsample⟩ := exists_sample_urx_launch next s
    refine ⟨[b], rfl, hb, reaches_launch_act hin nofun ?_⟩
    have hlast : ¬ i < 7 := by omega
    simp only [perform, performUartData, hsample, if_neg hlast]
    exact reaches_waitBit _ (afterSample b s) hin
  | succ m ih =>
    obtain ⟨b, hb, hsample⟩ := exists_sample_urx_launch next s
    obtain ⟨bs, hlen, hbs, hrest⟩ := ih (i + 1) (by omega) (setBit d i b)
      (later s.par.uartBit (afterSample b s)) hin
    refine ⟨b :: bs, congrArg (· + 1) hlen, agrees_cons hb hbs, reaches_launch_act hin nofun ?_⟩
    have hmore : i < 7 := by omega
    simp only [perform, performUartData, hsample, if_pos hmore]
    exact reaches_trans (reaches_waitBit _ (afterSample b s) hin) hrest

/-- Bit `i` is set, and the others are kept. -/
theorem getElem_setBit (d : Byte) (i : Nat) (b : Bool) (j : Nat) (hj : j < 8) :
    (setBit d i b)[j] = if j = i then b else d[j] := by
  by_cases h : j = i
  · subst h
    cases b <;> simp [setBit]
  · have hmask : (1#8 <<< i)[j] = false := by simp; omega
    cases b <;> simp [setBit, h, hmask]

/-- Eight data samples are the data bits of the byte they are set in. -/
theorem frameBits_setBits {bs : List Bool} (h : bs.length = 8) (stop : Bool) :
    frameBits (setBits 0 0 bs) stop = false :: (bs ++ [stop]) := by
  match bs, h with
  | [_, _, _, _, _, _, _, _], _ => simp [frameBits, setBits, List.range_succ, getElem_setBit]

/-- One more sample draws a free value where the answers have run out. -/
theorem add_draws (draws k n : Nat) : draws + (k - n) + (1 - (n - k)) = draws + (k + 1 - n) := by
  omega

/-- A frame's start sample and data, its waits and its stop sample are `afterReceive` (R146). -/
theorem afterSample_afterBitSamples (d : Byte) (stop : Bool) (s : State) :
    afterSample stop (afterBitSamples (false :: (List.range 8).map fun i => d.getLsbD i) (later s.par.uartHalf s)) =
      afterReceive d stop s := by
  have hrange : List.range 8 = [0, 1, 2, 3, 4, 5, 6, 7] := rfl
  simp only [hrange, List.map_cons, List.map_nil, afterBitSamples, afterSample, afterReceive, later, State.mk.injEq,
    true_and, and_true]
  refine ⟨?ticks, ?now, ?events, ?answers, ?draws⟩
  case ticks => bv_omega
  case now => omega
  case events =>
    simp only [frameEvents, hrange, List.map_cons, List.map_nil, List.cons_append, List.nil_append, List.reverse_cons,
      List.reverse_nil, List.cons.injEq, Event.sample.injEq, and_true]
    omega
  case answers => simp only [List.drop_drop, Nat.reduceAdd]
  case draws => simp only [List.drop_drop, List.length_drop, Nat.reduceAdd, add_draws]

/-- The stop sample decides the outcome (R141). -/
theorem performUartStop_eq {c : RxCaller} {d : Byte} {s u : State} {stop : Bool} (h : sample .urx s = (stop, u)) :
    performUartStop c d s = uartReturn c (receiveCode d stop) d u := by
  cases stop with
  | true => simp [performUartStop, h, receiveCode]
  | false => by_cases hd : d = 0#8 <;> simp [performUartStop, h, receiveCode, hd]

/-- After a low start sample, the data and the stop bit are received. -/
theorem reaches_uartFrame (c : RxCaller) (next : List Act) (s : State) (hin : s.inputs = []) :
    ∃ bs stop, bs.length = 8 ∧ Agrees s.urxIn (bs ++ [stop]) ∧
      Reaches (launch (.uartData c 0 0 s.t :: next) s)
        (uartReturn c (receiveCode (setBits 0 0 bs) stop) (setBits 0 0 bs)
          (launch next (afterSample stop (afterBitSamples bs s)))) := by
  obtain ⟨bs, hlen, hbs, hdata⟩ := reaches_uartData c next 7 0 rfl 0 s hin
  obtain ⟨hin', hurx⟩ := afterBitSamples_frame bs s
  obtain ⟨stop, hstop, hsample⟩ := exists_sample_urx_launch next (afterBitSamples bs s)
  refine ⟨bs, stop, hlen, agrees_append hbs (hurx ▸ hstop), ?_⟩
  refine reaches_trans hdata (reaches_launch_act (hin'.trans hin) nofun ?_)
  rw [perform, performUartStop_eq hsample]
  exact reaches_refl _

/-- `uart_receive` returns NOISE after a high start sample, and else the outcome of the frame it receives (R141). -/
theorem reaches_uartReceive (c : RxCaller) (next : List Act) (s : State) (hin : s.inputs = []) :
    (Agrees s.urxIn [true] ∧
      Reaches (launch (.uartStart c :: next) s) (uartReturn c .noise 0 (launch next (afterGlitch s)))) ∨
    ∃ d stop, Agrees s.urxIn (frameBits d stop) ∧
      Reaches (launch (.uartStart c :: next) s)
        (uartReturn c (receiveCode d stop) d (launch next (afterReceive d stop s))) := by
  have hstart : Reaches (launch (.uartStart c :: next) s)
      (launch (.uartGlitch c (later s.par.uartHalf s).t :: next) (later s.par.uartHalf s)) :=
    reaches_launch_act hin nofun (reaches_waitUntil _ _ (Nat.lt_succ_of_le s.par.uartHalf_le) s hin)
  obtain ⟨b, hb, hsample⟩ := exists_sample_urx_launch next (later s.par.uartHalf s)
  cases b with
  | true =>
    refine .inl ⟨hb, reaches_trans hstart (reaches_launch_act hin nofun ?_)⟩
    simp only [perform, performUartGlitch, hsample]
    exact reaches_refl _
  | false =>
    obtain ⟨bs, stop, hlen, hbs, hframe⟩ := reaches_uartFrame c next
      (later s.par.uartBit (afterSample false (later s.par.uartHalf s))) hin
    have hbits : frameBits (setBits 0 0 bs) stop = false :: (bs ++ [stop]) := frameBits_setBits hlen stop
    have hdata : (List.range 8).map (fun i => (setBits 0 0 bs).getLsbD i) = bs := by
      simpa [frameBits] using hbits
    refine .inr ⟨setBits 0 0 bs, stop, hbits ▸ agrees_cons hb hbs, ?_⟩
    rw [← afterSample_afterBitSamples, hdata]
    refine reaches_trans hstart (reaches_launch_act hin nofun ?_)
    simp only [perform, performUartGlitch, hsample]
    exact reaches_trans (reaches_waitBit _ (afterSample false (later s.par.uartHalf s)) hin) hframe

/-- Settles O33: UART.RX is one `uart_receive` that ends the command. -/
theorem uartRxOutcomes : Obligations.UartRxOutcomes := by
  intro s ⟨hin, hpend⟩
  have ends : ∀ (code : Code) (d : Byte) (u : State), u.pend = none →
      uartReturn .receive code d (launch [] u) = completedWith code (d.setWidth 32) u :=
    fun code d u hu => finish_quiet code (zext32 d) (s := launch [] u) hu
  refine (reaches_uartReceive .receive [] s hin).imp ?_ ?_
  · intro ⟨hnoise, hrun⟩
    rw [ends .noise 0 (afterGlitch s) hpend] at hrun
    exact ⟨hnoise, _, rfl, hrun⟩
  · intro ⟨d, stop, hbits, hrun⟩
    rw [ends _ d (afterReceive d stop s) hpend] at hrun
    exact ⟨d, stop, hbits, _, rfl, hrun⟩

/-- A frame determines its byte and its stop bit. -/
theorem frameBits_injective {d d' : Byte} {stop stop' : Bool} (h : frameBits d stop = frameBits d' stop') :
    d = d' ∧ stop = stop' := by
  simp only [frameBits, List.cons.injEq, true_and] at h
  obtain ⟨hbits, hstop⟩ := List.append_inj h (by simp)
  refine ⟨BitVec.eq_of_getLsbD_eq fun i hi => ?_, by simpa using hstop⟩
  exact List.map_inj_left.1 hbits i (List.mem_range.2 hi)

/-- A decided frame is the one received. -/
theorem reaches_uartReceive_frame (c : RxCaller) {d : Byte} {stop : Bool} {rest : List Bool} {s : State}
    (hin : s.inputs = []) (hurx : s.urxIn = frameBits d stop ++ rest) (next : List Act) :
    Reaches (launch (.uartStart c :: next) s)
      (uartReturn c (receiveCode d stop) d (launch next (afterReceive d stop s))) := by
  obtain ⟨hnoise, -⟩ | ⟨d', stop', hbits, hrun⟩ := reaches_uartReceive c next s hin
  · simp [hurx, Agrees, frameBits] at hnoise
  · rw [hurx] at hbits
    obtain ⟨rfl, rfl⟩ := frameBits_injective (eq_of_agrees_append hbits (by simp [frameBits]))
    exact hrun

/-- A decided high start sample is a glitch. -/
theorem reaches_uartReceive_glitch (c : RxCaller) {rest : List Bool} {s : State} (hin : s.inputs = [])
    (hurx : s.urxIn = true :: rest) (next : List Act) :
    Reaches (launch (.uartStart c :: next) s) (uartReturn c .noise 0 (launch next (afterGlitch s))) := by
  obtain ⟨-, hrun⟩ | ⟨d, stop, hbits, -⟩ := reaches_uartReceive c next s hin
  · exact hrun
  · simp [hurx, Agrees, frameBits] at hbits

/-! ### The spins of UART.WAITB and UART.NOBRK (42_uart.md R142, R144, R145, R244) -/

/-- The action `spin` samples URX, and after an answer `b` once more a tick later. -/
structure SpinsWhile (spin : Act) (b : Bool) : Prop where
  ne_awaitTick : spin ≠ .awaitTick
  spins (s u : State) : sample .urx s = (b, u) → perform spin s = push [.awaitTick, spin] u

/-- The spin of UART.WAITB (R142). -/
theorem spinsWhile_high : SpinsWhile .spinWhileHigh true :=
  ⟨nofun, fun s u h => by simp only [perform, performSpinWhileHigh, h, if_true]⟩

/-- The spin of UART.NOBRK (R144). -/
theorem spinsWhile_low : SpinsWhile .spinWhileLow false :=
  ⟨nofun, fun s u h => by simp [perform, performSpinWhileLow, h]⟩

/-- While the line holds, a spin samples it once a tick and goes on. -/
theorem SpinsWhile.reaches {spin : Act} {b : Bool} (hspin : SpinsWhile spin b) (next : List Act) (n : Nat)
    {rest : List Bool} (s : State) (hin : s.inputs = []) (hurx : s.urxIn = List.replicate n b ++ rest) :
    Reaches (launch (spin :: next) s) (launch (spin :: next) (afterSpin b n s)) := by
  induction n generalizing s with
  | zero => exact reaches_refl _
  | succ n ih =>
    refine reaches_launch_act hin hspin.ne_awaitTick ?_
    rw [hspin.spins _ _ (sample_urx_launch_decided next hurx)]
    have hrest : (later 1 (afterSample b s)).urxIn = List.replicate n b ++ rest := congrArg (List.drop 1) hurx
    exact reaches_launch_awaitTick hin (ih (later 1 (afterSample b s)) hin hrest)

/-- A spin leaves the inputs and PEND alone, and takes one answer a sample. -/
theorem afterSpin_frame (b : Bool) (n : Nat) {rest : List Bool} (s : State)
    (hurx : s.urxIn = List.replicate n b ++ rest) :
    (afterSpin b n s).inputs = s.inputs ∧ (afterSpin b n s).pend = s.pend ∧ (afterSpin b n s).urxIn = rest := by
  induction n generalizing s with
  | zero => exact ⟨rfl, rfl, hurx⟩
  | succ n ih => exact ih (later 1 (afterSample b s)) (congrArg (List.drop 1) hurx)

/-- Settles O36: a high sample ends the spin and the command. -/
theorem uartNoBreakCompletes : Obligations.UartNoBreakCompletes := by
  intro s n rest ⟨hin, hpend⟩ hurx
  obtain ⟨hin', hpend', hrest⟩ := afterSpin_frame false n s hurx
  refine ⟨_, rfl, reaches_trans (spinsWhile_low.reaches [] n s hin hurx) ?_⟩
  refine reaches_launch_act (hin'.trans hin) nofun ?_
  have hhigh := sample_urx_launch_decided [] hrest
  simp only [perform, performSpinWhileLow, hhigh, if_true]
  rw [finish_quiet .ok 0 (s := launch [] (afterSample true (afterSpin false n s))) (hpend'.trans hpend)]
  exact reaches_refl _

/-- Settles O37: each command is its spin. -/
theorem spinsWithoutTimeout : Obligations.SpinsWithoutTimeout := by
  intro s n rest ⟨hin, _⟩
  exact ⟨fun hurx => ⟨_, rfl, _, rfl, spinsWhile_low.reaches [] n s hin hurx⟩,
    fun hurx => ⟨_, rfl, _, rfl, spinsWhile_high.reaches [] n s hin hurx⟩⟩

/-- The state of UART.WAITB after `n` high samples and the low one that ends its spin (R142). -/
def afterFallingEdge (n : Nat) (s : State) : State := afterSample false (afterSpin true n s)

/-- The spin of UART.WAITB leaves the inputs and PEND alone, and takes the answers up to the low one. -/
theorem afterFallingEdge_frame (n : Nat) {rest : List Bool} (s : State)
    (hurx : s.urxIn = List.replicate n true ++ false :: rest) :
    (afterFallingEdge n s).inputs = s.inputs ∧ (afterFallingEdge n s).pend = s.pend ∧
      (afterFallingEdge n s).urxIn = rest := by
  obtain ⟨hin, hpend, hrest⟩ := afterSpin_frame true n s hurx
  exact ⟨hin, hpend, congrArg (List.drop 1) hrest⟩

/-- A low sample ends the spin of UART.WAITB, and `uart_receive` starts (R142). -/
theorem reaches_fallingEdge (n : Nat) {rest : List Bool} {s : State} (hin : s.inputs = [])
    (hurx : s.urxIn = List.replicate n true ++ false :: rest) :
    Reaches (launch [.spinWhileHigh] s) (launch [.uartStart .waitByte] (afterFallingEdge n s)) := by
  obtain ⟨hin', -, hrest⟩ := afterSpin_frame true n s hurx
  refine reaches_trans (spinsWhile_high.reaches [] n s hin hurx) (reaches_launch_act (hin'.trans hin) nofun ?_)
  have hlow := sample_urx_launch_decided [] hrest
  simp only [perform, performSpinWhileHigh, hlow]
  exact reaches_refl _

/-- UART.WAITB ends on DECODED (R142). -/
theorem uartReturn_waitByte_decoded (d : Byte) {u : State} (hpend : u.pend = none) :
    uartReturn .waitByte .decoded d (launch [] u) = completedWith .decoded (d.setWidth 32) u :=
  finish_quiet .decoded (zext32 d) (s := launch [] u) hpend

/-- UART.WAITB spins again after any other outcome (R142). -/
theorem uartReturn_waitByte_other {code : Code} (hcode : code ≠ .decoded) (d : Byte) (u : State) :
    uartReturn .waitByte code d (launch [] u) = launch [.spinWhileHigh] u :=
  if_neg hcode

/-- A low stop sample never gives DECODED (R141). -/
theorem receiveCode_low_ne_decoded (d : Byte) : receiveCode d false ≠ .decoded := by
  unfold receiveCode
  split
  · contradiction
  · split <;> nofun

/-- Settles O34: the spin, then one `uart_receive`, which ends the command or comes back to the spin. -/
theorem uartWaitByteCompletes : Obligations.UartWaitByteCompletes := by
  intro s n d rest ⟨hin, hpend⟩
  refine ⟨fun hurx => ?good, fun hurx => ?bad, fun hurx => ?glitch⟩
  case good =>
    obtain ⟨hin', hpend', hrest⟩ := afterFallingEdge_frame n s hurx
    have hframe := reaches_uartReceive_frame .waitByte (hin'.trans hin) hrest []
    have hends := uartReturn_waitByte_decoded d (u := afterReceive d true (afterFallingEdge n s)) (hpend'.trans hpend)
    exact ⟨_, rfl, reaches_trans (reaches_fallingEdge n hin hurx) (hends ▸ hframe)⟩
  case bad =>
    obtain ⟨hin', -, hrest⟩ := afterFallingEdge_frame n s hurx
    have hframe := reaches_uartReceive_frame .waitByte (hin'.trans hin) hrest []
    rw [uartReturn_waitByte_other (receiveCode_low_ne_decoded d)] at hframe
    exact ⟨_, rfl, _, rfl, reaches_trans (reaches_fallingEdge n hin hurx) hframe⟩
  case glitch =>
    obtain ⟨hin', -, hrest⟩ := afterFallingEdge_frame n s hurx
    have hglitch := reaches_uartReceive_glitch .waitByte (hin'.trans hin) hrest []
    have hnoise : Code.noise ≠ .decoded := nofun
    rw [uartReturn_waitByte_other hnoise] at hglitch
    exact ⟨_, rfl, _, rfl, reaches_trans (reaches_fallingEdge n hin hurx) hglitch⟩

/-! ### The loop of UART.BRK (42_uart.md R143) -/

/-- With the budget of a sample left, the loop of UART.BRK waits a sample period and samples. -/
theorem performBreakLoop_sample {budget : Nat} (count : Nat) (target : Byte) {s : State}
    (h : s.par.brkSample ≤ budget) :
    performBreakLoop budget count target s =
      push [.waitUntil (target + BitVec.ofNat 8 s.par.brkSample),
        .breakSample (budget - s.par.brkSample) count (target + BitVec.ofNat 8 s.par.brkSample)] s :=
  if_pos h

/-- With less left, UART.BRK ends with result 0. -/
theorem performBreakLoop_spent {budget : Nat} (count : Nat) (target : Byte) {s : State}
    (h : budget < s.par.brkSample) : performBreakLoop budget count target s = finish .ok 0 s :=
  if_neg (Nat.not_le_of_lt h)

/-- The sample that completes a break ends UART.BRK with result 1. -/
theorem performBreakSample_break (budget : Nat) {count : Nat} (target : Byte) {b : Bool} {s u : State}
    (hsample : sample .urx s = (b, u)) (h : s.par.brkSamples ≤ breakCount b count) :
    performBreakSample budget count target s = finish .ok 1 u := by
  rw [performBreakSample, hsample, if_pos h]

/-- After any other sample UART.BRK goes on with the new count. -/
theorem performBreakSample_more (budget : Nat) {count : Nat} (target : Byte) {b : Bool} {s u : State}
    (hsample : sample .urx s = (b, u)) (h : ¬ s.par.brkSamples ≤ breakCount b count) :
    performBreakSample budget count target s = push [.breakLoop budget (breakCount b count) target] u := by
  rw [performBreakSample, hsample, if_neg h]

/-- A budget of less than a sample gives result 0. -/
theorem breakResult_spent {par : Params} {budget : Nat} (count : Nat) (h : budget < par.brkSample) :
    breakResult par budget count [] = some 0 :=
  if_pos h

/-- The sample that completes a break is the last, and gives result 1. -/
theorem breakResult_break {par : Params} {budget count : Nat} {b : Bool} (hbudget : par.brkSample ≤ budget)
    (h : par.brkSamples ≤ breakCount b count) : breakResult par budget count [b] = some 1 := by
  rw [breakResult, if_neg (Nat.not_lt_of_le hbudget)]
  exact if_pos h

/-- Any other sample leaves the result to the samples after it. -/
theorem breakResult_more {par : Params} {budget count : Nat} {b : Bool} (rest : List Bool)
    (hbudget : par.brkSample ≤ budget) (h : ¬ par.brkSamples ≤ breakCount b count) :
    breakResult par budget count (b :: rest) =
      breakResult par (budget - par.brkSample) (breakCount b count) rest := by
  rw [breakResult, if_neg (Nat.not_lt_of_le hbudget)]
  exact if_neg h

/-- The loop of UART.BRK comes to its sample a sample period on. -/
theorem reaches_breakSample {budget : Nat} (count : Nat) (s : State) (hin : s.inputs = [])
    (hbudget : s.par.brkSample ≤ budget) :
    Reaches (launch [.breakLoop budget count s.t] s)
      (launch [.breakSample (budget - s.par.brkSample) count (later s.par.brkSample s).t]
        (later s.par.brkSample s)) := by
  refine reaches_launch_act hin nofun ?_
  rw [perform, performBreakLoop_sample count s.t (s := launch [] s) hbudget]
  exact reaches_waitUntil _ _ (Nat.lt_succ_of_le s.par.brkSample_range.2) s hin

/-- The loop of UART.BRK ends within its budget, with the result of the samples it takes. -/
theorem reaches_breakLoop (budget count : Nat) (s : State) (hin : s.inputs = []) (hpend : s.pend = none) :
    ∃ (bits : List Bool) (result : Word), breakResult s.par budget count bits = some result ∧
      Agrees s.urxIn bits ∧ bits.length * s.par.brkSample ≤ budget ∧
      Reaches (launch [.breakLoop budget count s.t] s) (completedWith .ok result (afterBreakSamples bits s)) := by
  induction budget using Nat.strongRecOn generalizing count s with
  | ind budget ih =>
    by_cases hspent : budget < s.par.brkSample
    · refine ⟨[], 0, breakResult_spent count hspent, agrees_nil _, by simp, reaches_launch_act hin nofun ?_⟩
      rw [perform, performBreakLoop_spent count s.t (s := launch [] s) hspent,
        finish_quiet .ok 0 (s := launch [] s) hpend]
      exact reaches_refl _
    have hbudget : s.par.brkSample ≤ budget := Nat.le_of_not_lt hspent
    have hpos : 1 ≤ s.par.brkSample := s.par.brkSample_range.1
    obtain ⟨b, hb, hsample⟩ := exists_sample_urx_launch [] (later s.par.brkSample s)
    have hrun := reaches_breakSample count s hin hbudget
    by_cases hbreak : s.par.brkSamples ≤ breakCount b count
    · refine ⟨[b], 1, breakResult_break hbudget hbreak, hb, by simpa using hbudget,
        reaches_trans hrun (reaches_launch_act hin nofun ?_)⟩
      rw [perform, performBreakSample_break _ _ hsample hbreak,
        finish_quiet .ok 1 (s := launch [] (afterSample b (later _ s))) hpend]
      exact reaches_refl _
    · obtain ⟨bits, result, hresult, hbits, hlen, hrest⟩ := ih (budget - s.par.brkSample) (by omega)
        (breakCount b count) (afterSample b (later s.par.brkSample s)) hin hpend
      have htime : bits.length * s.par.brkSample ≤ budget - s.par.brkSample := hlen
      refine ⟨b :: bits, result, (breakResult_more bits hbudget hbreak).trans hresult, agrees_cons hb hbits, ?_,
        reaches_trans hrun (reaches_launch_act hin nofun ?_)⟩
      · rw [List.length_cons, Nat.succ_mul]
        omega
      · rw [perform, performBreakSample_more _ _ hsample hbreak]
        exact hrest

/-- Settles O35: UART.BRK is its loop, from a count of 0. -/
theorem uartBreakCompletes : Obligations.UartBreakCompletes := by
  intro budget s ⟨hin, hpend⟩
  obtain ⟨bits, result, hresult, hbits, hlen, hrun⟩ := reaches_breakLoop budget.toNat 0 s hin hpend
  exact ⟨bits, result, hresult, hbits, hlen, _, rfl, hrun⟩

end Sys2Proof.Machine

/-! RadioDriver: what bus traffic leaves alone, frames and polls as runs with any actions to follow, and the runs of
the radio commands; with the statements they settle. -/

namespace Sys2Proof.Machine

/-! ### Checks before the first effect (43_radio.md R160, 60_exceptions.md R207) -/

/-- On a bus that can transfer, the first failing check is among those after the transfer checks. -/
theorem firstFault_xferChecks_append {s : State} (h : BusReady s) (rest : List (Option Cause)) :
    firstFault (xferChecks s ++ rest) = firstFault rest := by
  rw [firstFault_append, firstFault_xferChecks_ready h, Option.none_or]

theorem requireMode_of_undefined {s : State} (h : s.mode = .undefined) : requireMode s = some .modeUndefined := by
  simp only [requireMode, h]

theorem requireMode_of_known {s : State} (h : s.mode ≠ .undefined) : requireMode s = none := by
  cases hm : s.mode with
  | undefined => exact absurd hm h
  | known m => simp only [requireMode, hm]

/-- RF.TX past its size errors is a checked command (R166). -/
theorem exec_rfTx_of_fits {len : Byte} {s : State} (a rep : Byte) (hpos : len ≠ 0)
    (hfits : len.toNat ≤ s.par.fifoCapacity) :
    exec (.rfTx a len rep) s = .next
      (checked (xferChecks s ++ [requireMode s, requireRange a len.toNat, requireWritten a len.toNat s])
        (fun s => launch (txActs s a len.toNat (repeatCount s.par rep)) s) s) := by
  rw [exec, execRfTx, if_neg hpos, if_neg (Nat.not_lt.2 hfits)]

/-- RF.RXF past its size error is a checked command (R168). -/
theorem exec_rfRxF_of_fits {maxlen : Byte} {s : State} (b : Byte) (hfits : maxlen.toNat ≤ s.par.fifoCapacity) :
    exec (.rfRxF b maxlen) s = .next
      (checked (xferChecks s ++ [requireMode s, requireRange b maxlen.toNat])
        (fun s => launch (fifoRead s b maxlen.toNat ++ [Act.finish .ok (zext32 maxlen)]) s) s) := by
  rw [exec, execRfRxF, if_neg (Nat.not_lt.2 hfits)]

/-- Settles O44: the size tests come before every check. -/
theorem radioSizeErrors : Obligations.RadioSizeErrors := by
  intro a len rep s hpend
  refine ⟨fun hzero => ?_, fun hlong => ⟨?_, ?_⟩⟩
  · rw [exec, execRfTx, if_pos hzero, finish_quiet _ _ hpend]
  · have hpos : len ≠ 0 := by
      rintro rfl
      exact absurd hlong (Nat.not_lt_zero _)
    rw [exec, execRfTx, if_neg hpos, if_pos hlong, finish_quiet _ _ hpend]
  · rw [exec, execRfRxF, if_pos hlong, finish_quiet _ _ hpend]

/-- Settles O45: the checks of the four data commands, in R207's order. -/
theorem radioDataFaults : Obligations.RadioDataFaults := by
  intro a n rep s hbus hrun
  have faults : ∀ (checks : List (Option Cause)) (body : State → State) (c : Cause), firstFault checks = some c →
      checked (xferChecks s ++ checks) body s = faultedWith c s := fun checks body c h =>
    checked_of_fault body hrun ((firstFault_xferChecks_append hbus checks).trans h)
  refine ⟨fun hmode => ?undefined, fun hmode => ?known⟩
  case undefined =>
    have first : ∀ (rest : List (Option Cause)) (body : State → State),
        checked (xferChecks s ++ requireMode s :: rest) body s = faultedWith .modeUndefined s := fun rest body =>
      faults _ body _ (by rw [requireMode_of_undefined hmode, firstFault_some])
    refine ⟨?_, ?_, fun hfits => ?_, fun hfits hpos => ?_⟩
    · rw [exec, execRfRdy, first]
    · rw [exec, execRfRxC, first]
    · rw [exec_rfRxF_of_fits a hfits, first]
    · rw [exec_rfTx_of_fits a rep hpos hfits, first]
  case known =>
    have pass : requireMode s = none := requireMode_of_known hmode
    have range : ∀ (m : Nat) (rest : List (Option Cause)) (body : State → State), 256 < a.toNat + m →
        checked (xferChecks s ++ requireMode s :: requireRange a m :: rest) body s = faultedWith .bufRange s :=
      fun m rest body hm => faults _ body _ (by
        rw [pass, requireRange_of_illegal hm, firstFault_none, firstFault_some])
    refine ⟨fun hlong => ?_, fun hfits hlong => ⟨?_, ?_⟩, fun hfits hlegal hunwritten => ?_⟩
    · rw [exec, execRfRxC, range _ _ _ hlong]
    · rw [exec_rfRxF_of_fits a hfits, range _ _ _ hlong]
    · have hpos : n ≠ 0 := by bv_omega
      rw [exec_rfTx_of_fits a rep hpos hfits, range _ _ _ hlong]
    · have hpos : n ≠ 0 := by
        rintro rfl
        obtain ⟨i, hi, -⟩ := hunwritten
        exact absurd hi (Nat.not_lt_zero i)
      rw [exec_rfTx_of_fits a rep hpos hfits]
      refine congrArg _ (faults _ _ _ ?_)
      rw [pass, requireRange_of_legal hlegal, requireWritten_of_unwritten hunwritten, firstFault_none, firstFault_none,
        firstFault_some]

/-! ### What bus traffic leaves alone -/

/-- `view` reads nothing that bus traffic writes. -/
structure BusBlind {α : Type} (view : State → α) : Prop where
  byte (tx rx : Byte) (s : State) : view (afterByte tx rx s) = view s
  drive (p : OutPin) (l : Bool) (s : State) : view (drive p l s) = view s

section
variable {α : Type} {view : State → α} (h : BusBlind view)
include h

theorem BusBlind.afterBytes (txs rxs : List Byte) (s : State) : view (afterBytes txs rxs s) = view s := by
  induction txs generalizing rxs s with
  | nil => rfl
  | cons tx txs ih =>
    cases rxs with
    | nil => rfl
    | cons rx rxs => exact (ih rxs _).trans (h.byte tx rx s)

theorem BusBlind.afterFrame (txs rxs : List Byte) (s : State) : view (afterFrame txs rxs s) = view s :=
  (h.drive _ _ _).trans ((h.afterBytes txs rxs _).trans (h.drive _ _ _))

theorem BusBlind.afterFrames (frames : List (List Byte × List Byte)) (s : State) :
    view (afterFrames frames s) = view s := by
  induction frames generalizing s with
  | nil => rfl
  | cons frame rest ih => exact (ih _).trans (h.afterFrame frame.1 frame.2 s)

theorem BusBlind.afterRadio (frames : List RadioFrame) (rxs : List (List Byte)) (s : State) :
    view (afterRadio frames rxs s) = view s :=
  h.afterFrames _ s

end

theorem busBlind_par : BusBlind State.par := ⟨fun _ _ _ => rfl, fun _ _ _ => rfl⟩
theorem busBlind_busCfg : BusBlind State.busCfg := ⟨fun _ _ _ => rfl, fun _ _ _ => rfl⟩
theorem busBlind_mode : BusBlind State.mode := ⟨fun _ _ _ => rfl, fun _ _ _ => rfl⟩
theorem busBlind_buf : BusBlind State.buf := ⟨fun _ _ _ => rfl, fun _ _ _ => rfl⟩
theorem busBlind_inputs : BusBlind State.inputs := ⟨fun _ _ _ => rfl, fun _ _ _ => rfl⟩
theorem busBlind_pend : BusBlind State.pend := ⟨fun _ _ _ => rfl, fun _ _ _ => rfl⟩

section
variable {s : State} (h : Quiet s)
include h

theorem Quiet.afterBytes (txs rxs : List Byte) : Quiet (afterBytes txs rxs s) :=
  ⟨(busBlind_inputs.afterBytes txs rxs s).trans h.1, (busBlind_pend.afterBytes txs rxs s).trans h.2⟩

theorem Quiet.afterFrame (txs rxs : List Byte) : Quiet (afterFrame txs rxs s) :=
  ⟨(busBlind_inputs.afterFrame txs rxs s).trans h.1, (busBlind_pend.afterFrame txs rxs s).trans h.2⟩

theorem Quiet.afterFrames (frames : List (List Byte × List Byte)) : Quiet (afterFrames frames s) :=
  ⟨(busBlind_inputs.afterFrames frames s).trans h.1, (busBlind_pend.afterFrames frames s).trans h.2⟩

theorem Quiet.afterRadio (frames : List RadioFrame) (rxs : List (List Byte)) : Quiet (afterRadio frames rxs s) :=
  h.afterFrames _

end

/-- `update` writes nothing that bus traffic reads or writes, so it may come before or after. -/
structure BesideBus (update : State → State) : Prop where
  byte (tx rx : Byte) (s : State) : afterByte tx rx (update s) = update (afterByte tx rx s)
  drive (p : OutPin) (l : Bool) (s : State) : drive p l (update s) = update (drive p l s)
  busCfg (s : State) : (update s).busCfg = s.busCfg

theorem besideBus_mode (m : Mode) : BesideBus fun s => { s with mode := m } :=
  ⟨fun _ _ _ => rfl, fun _ _ _ => rfl, fun _ => rfl⟩

/-- The state with `m` for BUF. -/
def withBuf (m : Memory) (s : State) : State := { s with buf := m }

@[simp] theorem withBuf_inputs (m : Memory) (s : State) : (withBuf m s).inputs = s.inputs := rfl

theorem besideBus_buf (m : Memory) : BesideBus (withBuf m) :=
  ⟨fun _ _ _ => rfl, fun _ _ _ => rfl, fun _ => rfl⟩

section
variable {update : State → State} (h : BesideBus update)
include h

theorem BesideBus.afterBytes (txs rxs : List Byte) (s : State) :
    afterBytes txs rxs (update s) = update (afterBytes txs rxs s) := by
  induction txs generalizing rxs s with
  | nil => rfl
  | cons tx txs ih =>
    cases rxs with
    | nil => rfl
    | cons rx rxs => simp only [Machine.afterBytes, h.byte, ih]

theorem BesideBus.afterFrame (txs rxs : List Byte) (s : State) :
    afterFrame txs rxs (update s) = update (afterFrame txs rxs s) := by
  simp only [Machine.afterFrame, h.busCfg, h.drive, h.afterBytes]

theorem BesideBus.afterFrames (frames : List (List Byte × List Byte)) (s : State) :
    afterFrames frames (update s) = update (afterFrames frames s) := by
  induction frames generalizing s with
  | nil => rfl
  | cons frame rest ih => simp only [Machine.afterFrames, h.afterFrame, ih]

end

/-! ### The answers to bytes and frames -/

theorem length_answersOfAll (rxs : List Byte) : (answersOfAll rxs).length = 8 * rxs.length := by
  induction rxs with
  | nil => rfl
  | cons rx rxs ih =>
    rw [answersOfAll, List.flatMap_cons, List.length_append, length_answersOf]
    rw [answersOfAll] at ih
    rw [ih, List.length_cons, Nat.mul_succ, Nat.add_comm]

theorem answersOfAll_append (xs ys : List Byte) : answersOfAll (xs ++ ys) = answersOfAll xs ++ answersOfAll ys :=
  List.flatMap_append

/-- Answers tell the bytes they make up. -/
theorem answersOfAll_injective {xs ys : List Byte} (hlen : xs.length = ys.length)
    (h : answersOfAll xs = answersOfAll ys) : xs = ys := by
  induction xs generalizing ys with
  | nil => exact (List.eq_nil_of_length_eq_zero hlen.symm).symm
  | cons x xs ih =>
    cases ys with
    | nil => cases hlen
    | cons y ys =>
      obtain ⟨hfirst, hrest⟩ := List.append_inj (s₁ := answersOf x) (s₂ := answersOf y) h rfl
      have hxy : x = y := by rw [← foldl_shiftIn_answersOf x, hfirst, foldl_shiftIn_answersOf]
      rw [hxy, ih (Nat.succ.inj hlen) hrest]

/-- Each byte of an exchange takes its answers. -/
theorem afterBytes_misoIn {txs rxs : List Byte} (hlen : rxs.length = txs.length) (s : State) :
    (afterBytes txs rxs s).misoIn = s.misoIn.drop (answersOfAll rxs).length := by
  induction txs generalizing rxs s with
  | nil =>
    obtain rfl := List.eq_nil_of_length_eq_zero hlen
    rfl
  | cons tx txs ih =>
    cases rxs with
    | nil => cases hlen
    | cons rx rxs =>
      rw [afterBytes, ih (Nat.succ.inj hlen)]
      show (s.misoIn.drop 8).drop _ = _
      rw [List.drop_drop, length_answersOfAll, length_answersOfAll, List.length_cons, Nat.mul_succ, Nat.add_comm]

/-- An exchange leaves the byte received last in `rx`. -/
theorem afterBytes_rx {txs rxs : List Byte} (hlen : rxs.length = txs.length) (s : State) :
    (afterBytes txs rxs s).rx = rxs.getLastD s.rx := by
  induction txs generalizing rxs s with
  | nil =>
    obtain rfl := List.eq_nil_of_length_eq_zero hlen
    rfl
  | cons tx txs ih =>
    cases rxs with
    | nil => cases hlen
    | cons rx rxs =>
      rw [afterBytes, ih (Nat.succ.inj hlen), List.getLastD_cons]
      rfl

/-- A frame takes the answers to its bytes. -/
theorem afterFrame_misoIn {txs rxs : List Byte} (hlen : rxs.length = txs.length) (s : State) :
    (afterFrame txs rxs s).misoIn = s.misoIn.drop (answersOfAll rxs).length :=
  afterBytes_misoIn hlen _

theorem afterFrame_misoIn_decided {txs rxs : List Byte} {rest : List Bool} {s : State}
    (hlen : rxs.length = txs.length) (h : s.misoIn = answersOfAll rxs ++ rest) :
    (afterFrame txs rxs s).misoIn = rest := by
  rw [afterFrame_misoIn hlen, h, List.drop_left]

/-- A frame leaves the byte received last in `rx`. -/
theorem afterFrame_rx {txs rxs : List Byte} (hlen : rxs.length = txs.length) (hne : rxs ≠ []) (s : State) :
    (afterFrame txs rxs s).rx = rxs.getLastD 0 := by
  have hlast : ∀ d, rxs.getLastD d = rxs.getLast hne := fun d => List.getLastD_eq_getLast? ▸ by
    rw [List.getLast?_eq_some_getLast hne, Option.getD_some]
  rw [hlast, ← hlast s.rx]
  exact afterBytes_rx hlen _

/-! ### Multi-byte exchanges by the bytes they send (41_spi.md R127) -/

/-- `MemRead` of one byte more starts with the byte at its address. -/
theorem bufReadAll_succ (m : Memory) (a : Byte) (n : Nat) :
    bufReadAll m a (n + 1) = bufGet m a :: bufReadAll m (a + 1) n := by
  simp only [bufReadAll, List.range_succ_eq_map, List.map_cons, List.map_map]
  rw [BitVec.add_zero]
  exact congrArg _ (List.map_congr_left fun i _ => congrArg (bufGet m) (address_succ a i))

/-- An exchange from a tx buffer alone sends the bytes of its region. -/
theorem afterExchange_tx (a b : Byte) (rxs : List Byte) (s : State) :
    afterExchange true false a b rxs s = afterBytes (bufReadAll s.buf a rxs.length) rxs s := by
  induction rxs generalizing a b s with
  | nil => rfl
  | cons rx rxs ih =>
    rw [afterExchange_cons, ih, List.length_cons, bufReadAll_succ]
    rfl

/-- An exchange into an rx buffer alone sends zeros and stores what it receives. -/
theorem afterExchange_rx (a b : Byte) (rxs : List Byte) (s : State) :
    afterExchange false true a b rxs s =
      withBuf (bufWriteAll s.buf b rxs) (afterBytes (List.replicate rxs.length 0) rxs s) := by
  induction rxs generalizing a b s with
  | nil => rfl
  | cons rx rxs ih =>
    have hround : afterRound false true a b rx s = withBuf (bufWrite s.buf b rx) (afterByte 0 rx s) := rfl
    rw [afterExchange_cons, ih, hround, (besideBus_buf _).afterBytes]
    rfl

/-! ### Frames as runs (43_radio.md R161) -/

/-- The actions `body` exchange the bytes `txs`, whatever comes after them. -/
def Exchanges (body : List Act) (txs : List Byte) (s : State) : Prop :=
  ∀ next, ∃ rxs : List Byte, rxs.length = txs.length ∧ Agrees s.misoIn (answersOfAll rxs) ∧
    Reaches (launch (body ++ next) s) (launch next (afterBytes txs rxs s))

/-- The actions `acts` send the frame `txs`, whatever comes after them. -/
def Sends (acts : List Act) (txs : List Byte) (s : State) : Prop :=
  ∀ next, ∃ rxs : List Byte, rxs.length = txs.length ∧ Agrees s.misoIn (answersOfAll rxs) ∧
    Reaches (launch (acts ++ next) s) (launch next (afterFrame txs rxs s))

theorem exchanges_nil (s : State) : Exchanges [] [] s := fun _ => ⟨[], rfl, agrees_nil _, reaches_refl _⟩

/-- `spi_byte` puts one byte in front of an exchange. -/
theorem exchanges_spiByte_append {tx : Byte} {body : List Act} {txs : List Byte} {s : State} (hin : s.inputs = [])
    (h : ∀ rx, Exchanges body txs (afterByte tx rx s)) : Exchanges (spiByte s tx ++ body) (tx :: txs) s := by
  intro next
  obtain ⟨rx, hrx, hbyte⟩ := reaches_spiByte tx (body ++ next) s hin
  obtain ⟨rxs, hlen, hrxs, hrest⟩ := h rx next
  refine ⟨rx :: rxs, congrArg (· + 1) hlen, agrees_append hrx hrxs, ?_⟩
  rw [List.append_assoc]
  exact reaches_trans hbyte hrest

/-- `spi_byte` twice. -/
theorem exchanges_twoBytes (tx tx' : Byte) {s : State} (hin : s.inputs = []) :
    Exchanges (spiByte s tx ++ spiByte s tx') [tx, tx'] s :=
  exchanges_spiByte_append hin fun rx => by
    have h := exchanges_spiByte_append (tx := tx') (s := afterByte tx rx s) hin fun rx' => exchanges_nil _
    rwa [List.append_nil] at h

/-- `spi_bytes` from a tx buffer alone. -/
theorem exchanges_spiBytes (p b : Byte) (n : Nat) {s : State} (hin : s.inputs = []) :
    Exchanges [.spiBytes true false p b n] (bufReadAll s.buf p n) s := by
  intro next
  obtain ⟨rxs, hlen, hrxs, hrun⟩ := reaches_spiBytes true false p b n next s hin
  rw [afterExchange_tx, hlen] at hrun
  have hsent : (bufReadAll s.buf p n).length = n := by simp [bufReadAll]
  exact ⟨rxs, hlen.trans hsent.symm, hrxs, hrun⟩

/-- An exchange between select and deselect is a frame. -/
theorem Exchanges.sends {body : List Act} {txs : List Byte} {s : State}
    (h : Exchanges body txs (drive .cs s.busCfg.cspol s)) (hin : s.inputs = []) :
    Sends (selectAct s :: body ++ [deselectAct s]) txs s := by
  intro next
  obtain ⟨rxs, hlen, hrxs, hrun⟩ := h (deselectAct s :: next)
  refine ⟨rxs, hlen, hrxs, ?_⟩
  rw [List.append_assoc]
  refine reaches_drive .cs _ hin (reaches_trans hrun (reaches_drive .cs _ ?_ (reaches_refl _)))
  exact (busBlind_inputs.afterBytes txs rxs _).trans hin

theorem sends_regRead (reg : BitVec 7) {s : State} (hin : s.inputs = []) :
    Sends (regRead s reg) [readAddress s.par reg, 0] s :=
  (exchanges_twoBytes (readAddress s.par reg) 0 (s := drive .cs s.busCfg.cspol s) hin).sends hin

theorem sends_regWrite (reg : BitVec 7) (v : Byte) {s : State} (hin : s.inputs = []) :
    Sends (regWrite s reg v) [writeAddress s.par reg, v] s :=
  (exchanges_twoBytes (writeAddress s.par reg) v (s := drive .cs s.busCfg.cspol s) hin).sends hin

theorem sends_fifoWrite (p : Byte) (n : Nat) {s : State} (hin : s.inputs = []) :
    Sends (fifoWrite s p n) (writeAddress s.par s.par.regFifo :: bufReadAll s.buf p n) s :=
  have hbytes : Exchanges (spiByte s (writeAddress s.par s.par.regFifo) ++ [Act.spiBytes true false p 0 n])
      (writeAddress s.par s.par.regFifo :: bufReadAll s.buf p n) (drive .cs s.busCfg.cspol s) :=
    exchanges_spiByte_append (s := drive .cs s.busCfg.cspol s) hin fun rx =>
      exchanges_spiBytes p 0 n (s := afterByte _ rx (drive .cs s.busCfg.cspol s)) hin
  hbytes.sends hin

/-- Where the answers to a frame are decided, it receives those. -/
theorem Sends.reaches {acts : List Act} {txs rxs : List Byte} {rest : List Bool} {s : State} (h : Sends acts txs s)
    (next : List Act) (hlen : rxs.length = txs.length) (hmiso : s.misoIn = answersOfAll rxs ++ rest) :
    Reaches (launch (acts ++ next) s) (launch next (afterFrame txs rxs s)) := by
  obtain ⟨rxs', hlen', hagree, hrun⟩ := h next
  have hsame : rxs'.length = rxs.length := hlen'.trans hlen.symm
  rw [hmiso] at hagree
  have hanswers := eq_of_agrees_append hagree (by rw [length_answersOfAll, length_answersOfAll, hsame])
  rwa [answersOfAll_injective hsame hanswers] at hrun

/-- A register read answers two bytes, the second of them left in `rx`. -/
theorem reaches_regRead (reg : BitVec 7) (next : List Act) {s : State} (hin : s.inputs = []) :
    ∃ x v : Byte, Agrees s.misoIn (answersOfAll [x, v]) ∧
      Reaches (launch (regRead s reg ++ next) s) (launch next (afterFrame [readAddress s.par reg, 0] [x, v] s)) := by
  obtain ⟨rxs, hlen, hrxs, hrun⟩ := sends_regRead reg hin next
  match rxs, hlen with
  | [x, v], _ => exact ⟨x, v, hrxs, hrun⟩

/-- A register read leaves the byte received last in `rx`. -/
theorem afterRead_rx {r : List Byte} (address : Byte) (hlen : r.length = 2) (s : State) :
    (afterFrame [address, 0] r s).rx = r.getLastD 0 :=
  afterFrame_rx hlen (by rintro rfl; cases hlen) s

/-- A run whose one action is left ends in what it does. -/
theorem reaches_last {a : Act} {s u : State} (hin : s.inputs = []) (hne : a ≠ .awaitTick)
    (h : perform a (launch [] s) = u) : Reaches (launch [a] s) u :=
  reaches_launch_act hin hne (h ▸ reaches_refl _)

/-! ### RF.INIT and RF.RDY: one register read and a test (43_radio.md R163, R167) -/

/-- RF.INIT ends by the version read: NO_RESPONSE on a sentinel, else it is recorded and the memo reset (R163). -/
theorem performInitCheck_eq {par : Params} {v : Byte} {s : State} (hpar : s.par = par) (hpend : s.pend = none)
    (hrx : s.rx = v) :
    performInitCheck (launch [] s) =
      if v = par.notWiredA ∨ v = par.notWiredB then completedWith .noResponse (v.setWidth 32) s
      else completedWith .ok (v.setWidth 32) { s with version := some v, profile := none } := by
  subst hpar hrx
  by_cases hsentinel : s.rx = s.par.notWiredA ∨ s.rx = s.par.notWiredB
  · rw [if_pos hsentinel]
    exact (if_pos hsentinel).trans (finish_quiet _ _ (s := launch [] s) hpend)
  · rw [if_neg hsentinel]
    exact (if_neg hsentinel).trans
      (finish_quiet _ _ (s := { launch [] s with version := some s.rx, profile := none }) hpend)

/-- Settles O38: RF.INIT is one register read with the version check to follow. -/
theorem radioInitCompletes : Obligations.RadioInitCompletes := by
  intro s hquiet hbus
  obtain ⟨x, v, hagree, hrun⟩ := reaches_regRead s.par.regVersion [.initCheck] hquiet.1
  have hexec : exec .rfInit s = .next (launch (regRead s s.par.regVersion ++ [Act.initCheck]) s) := by
    rw [exec, execRfInit, checked_of_pass _ (firstFault_xferChecks_ready hbus)]
  obtain ⟨hin, hpend⟩ := hquiet.afterFrame [readAddress s.par s.par.regVersion, 0] [x, v]
  have hrx : (afterFrame [readAddress s.par s.par.regVersion, 0] [x, v] s).rx = v := afterRead_rx _ rfl s
  have hcheck := performInitCheck_eq (busBlind_par.afterFrame _ _ s) hpend hrx
  exact ⟨x, v, hagree, _, hexec, reaches_trans hrun (reaches_last hin nofun hcheck)⟩

/-- RF.RDY ends by the payload-ready flag (R167). -/
theorem performReadyCheck_eq {par : Params} {f : Byte} {s : State} (hpar : s.par = par) (hpend : s.pend = none)
    (hrx : s.rx = f) :
    performReadyCheck (launch [] s) =
      if flagSet f par.bitPayloadReady = true then completedWith .ready 1 s else completedWith .notReady 0 s := by
  subst hpar hrx
  rw [performReadyCheck, finish_quiet _ _ (s := launch [] s) hpend, finish_quiet _ _ (s := launch [] s) hpend]
  rfl

/-- Settles O46: RF.RDY is one register read with the test of the flag to follow. -/
theorem radioReadyCompletes : Obligations.RadioReadyCompletes := by
  intro s hquiet hbus hmode
  obtain ⟨x, f, hagree, hrun⟩ := reaches_regRead s.par.regIrqFlags2 [.readyCheck] hquiet.1
  have hpass : firstFault (xferChecks s ++ [requireMode s]) = none := by
    rw [firstFault_xferChecks_append hbus, requireMode_of_known hmode, firstFault_none, firstFault_nil]
  have hexec : exec .rfRdy s = .next (launch (regRead s s.par.regIrqFlags2 ++ [Act.readyCheck]) s) := by
    rw [exec, execRfRdy, checked_of_pass _ hpass]
  obtain ⟨hin, hpend⟩ := hquiet.afterFrame [readAddress s.par s.par.regIrqFlags2, 0] [x, f]
  have hrx : (afterFrame [readAddress s.par s.par.regIrqFlags2, 0] [x, f] s).rx = f := afterRead_rx _ rfl s
  have hcheck := performReadyCheck_eq (busBlind_par.afterFrame _ _ s) hpend hrx
  exact ⟨x, f, hagree, _, hexec, reaches_trans hrun (reaches_last hin nofun hcheck)⟩

/-! ### RF.RXF and RF.RXC: a FIFO read into BUF (43_radio.md R168, R169) -/

/-- The checks of a receive command pass in a known mode with a legal region. -/
theorem firstFault_receive_ready {b : Byte} {n : Nat} {s : State} (hbus : BusReady s) (hmode : s.mode ≠ .undefined)
    (hlegal : b.toNat + n ≤ 256) : firstFault (xferChecks s ++ [requireMode s, requireRange b n]) = none := by
  rw [firstFault_xferChecks_append hbus, requireMode_of_known hmode, requireRange_of_legal hlegal, firstFault_none,
    firstFault_none, firstFault_nil]

/-- Bytes received from the FIFO are stored from `b` on; then deselect and `finish` end the command. -/
theorem reaches_fifoBytes (b : Byte) (n : Nat) (r : Word) {s : State} (hquiet : Quiet s) :
    ∃ xs : List Byte, xs.length = n ∧ Agrees s.misoIn (answersOfAll xs) ∧
      Reaches (launch [.spiBytes false true 0 b n, deselectAct s, .finish .ok r] s)
        (completedWith .ok r (drive .cs (!s.busCfg.cspol)
          (withBuf (bufWriteAll s.buf b xs) (afterBytes (List.replicate n 0) xs s)))) := by
  obtain ⟨xs, hlen, hxs, hrun⟩ := reaches_spiBytes false true 0 b n [deselectAct s, .finish .ok r] s hquiet.1
  rw [afterExchange_rx, hlen] at hrun
  obtain ⟨hin, hpend⟩ := hquiet.afterBytes (List.replicate n 0) xs
  have hend := reaches_drive .cs (!s.busCfg.cspol) (next := [.finish .ok r])
    ((withBuf_inputs (bufWriteAll s.buf b xs) _).trans hin) (reaches_refl _)
  exact ⟨xs, hlen, hxs, reaches_completedWith (reaches_trans hrun hend) hin hpend⟩

/-- Settles O47: RF.RXF is the address byte and the FIFO bytes in one frame. -/
theorem radioReceiveFixedCompletes : Obligations.RadioReceiveFixedCompletes := by
  intro b maxlen s hquiet hbus hmode hfits hlegal
  have hexec := exec_rfRxF_of_fits b hfits
  rw [checked_of_pass _ (firstFault_receive_ready hbus hmode hlegal)] at hexec
  let selected := drive .cs s.busCfg.cspol s
  obtain ⟨x, hx, haddress⟩ := reaches_spiByte (readAddress s.par s.par.regFifo)
    [.spiBytes false true 0 b maxlen.toNat, deselectAct s, .finish .ok (zext32 maxlen)] selected hquiet.1
  obtain ⟨xs, hlen, hxs, hbytes⟩ := reaches_fifoBytes b maxlen.toNat (zext32 maxlen)
    (s := afterByte (readAddress s.par s.par.regFifo) x selected) hquiet
  have hacts : fifoRead s b maxlen.toNat ++ [Act.finish .ok (zext32 maxlen)] =
      selectAct s :: (spiByte s (readAddress s.par s.par.regFifo) ++
        [Act.spiBytes false true 0 b maxlen.toNat, deselectAct s, .finish .ok (zext32 maxlen)]) := by
    simp [fifoRead]
  rw [hacts] at hexec
  exact ⟨x, xs, hlen, agrees_append hx hxs, _, hexec,
    reaches_drive .cs _ hquiet.1 (reaches_trans haddress hbytes)⟩

/-- A length byte above `maxlen` is stored; then deselect and BUFFER_TOO_SMALL (R169). -/
theorem reaches_countedPrefix_tooLarge {n : Byte} (b : Byte) {maxlen : Byte} {s : State} (hquiet : Quiet s)
    (hrx : s.rx = n) (h : maxlen < n) :
    Reaches (launch [.countedPrefix b maxlen] s) (completedWith .bufferTooSmall (n.setWidth 32)
      (drive .cs (!s.busCfg.cspol) (withBuf (bufWrite s.buf b n) s))) := by
  subst hrx
  refine reaches_last hquiet.1 nofun ((if_pos h).trans ?_)
  exact finish_quiet _ _ (s := drive .cs (!s.busCfg.cspol) (storeByte b s.rx (launch [] s))) hquiet.2

/-- Any other length byte is stored, and that many bytes are read and stored after it (R169). -/
theorem reaches_countedPrefix_fits {n : Byte} (b : Byte) {maxlen : Byte} {s : State} (hquiet : Quiet s)
    (hrx : s.rx = n) (h : ¬ maxlen < n) :
    ∃ xs : List Byte, xs.length = n.toNat ∧ Agrees s.misoIn (answersOfAll xs) ∧
      Reaches (launch [.countedPrefix b maxlen] s) (completedWith .ok (n.setWidth 32)
        (drive .cs (!s.busCfg.cspol)
          (withBuf (bufWriteAll s.buf b (n :: xs)) (afterBytes (List.replicate n.toNat 0) xs s)))) := by
  subst hrx
  obtain ⟨xs, hlen, hxs, hrun⟩ := reaches_fifoBytes (b + 1) s.rx.toNat (zext32 s.rx) (s := storeByte b s.rx s) hquiet
  have hperform : perform (.countedPrefix b maxlen) (launch [] s) =
      launch [.spiBytes false true 0 (b + 1) s.rx.toNat, deselectAct s, .finish .ok (zext32 s.rx)]
        (storeByte b s.rx s) := if_neg h
  have hstored : afterBytes (List.replicate s.rx.toNat 0) xs (storeByte b s.rx s) =
      withBuf (bufWrite s.buf b s.rx) (afterBytes (List.replicate s.rx.toNat 0) xs s) :=
    (besideBus_buf _).afterBytes _ xs s
  rw [hstored] at hrun
  exact ⟨xs, hlen, hxs, reaches_launch_act hquiet.1 nofun (hperform ▸ hrun)⟩

/-- Settles O48: RF.RXC is the address byte and the length byte, and the bytes it counts in the same frame. -/
theorem radioReceiveCountedCompletes : Obligations.RadioReceiveCountedCompletes := by
  intro b maxlen s hquiet hbus hmode hlegal
  let address := readAddress s.par s.par.regFifo
  let selected := drive .cs s.busCfg.cspol s
  have hexec : exec (.rfRxC b maxlen) s = .next (launch (selectAct s ::
      ((spiByte s address ++ spiByte s 0) ++ [Act.countedPrefix b maxlen])) s) := by
    rw [exec, execRfRxC, checked_of_pass _ (firstFault_receive_ready hbus hmode hlegal)]
    rfl
  obtain ⟨rxs, hlen, hprefix, hrun⟩ :=
    exchanges_twoBytes address 0 (s := selected) hquiet.1 [.countedPrefix b maxlen]
  match rxs, hlen with
  | [x, n], hlen =>
    have hstart : ∀ u, Reaches (launch [.countedPrefix b maxlen] (afterBytes [address, 0] [x, n] selected)) u →
        RunsTo (.rfRxC b maxlen) s u := fun u hu =>
      ⟨_, hexec, reaches_drive .cs _ hquiet.1 (reaches_trans hrun hu)⟩
    have hquiet' : Quiet (afterBytes [address, 0] [x, n] selected) :=
      Quiet.afterBytes (s := selected) hquiet _ _
    have hrx : (afterBytes [address, 0] [x, n] selected).rx = n := afterBytes_rx hlen selected
    by_cases hlarge : maxlen.toNat < n.toNat
    · have hend := reaches_countedPrefix_tooLarge b hquiet' hrx hlarge
      rw [busBlind_buf.afterBytes, busBlind_busCfg.afterBytes] at hend
      refine ⟨x, n, [], hprefix, ?_⟩
      rw [if_pos hlarge]
      exact ⟨rfl, hstart _ hend⟩
    · obtain ⟨xs, hxsLen, hxs, hend⟩ := reaches_countedPrefix_fits b hquiet' hrx hlarge
      rw [busBlind_buf.afterBytes, busBlind_busCfg.afterBytes] at hend
      rw [afterBytes_misoIn hlen] at hxs
      have hanswers : Agrees s.misoIn (answersOfAll ([x, n] ++ xs)) := by
        rw [answersOfAll_append]
        exact agrees_append hprefix hxs
      refine ⟨x, n, xs, hanswers, ?_⟩
      rw [if_neg hlarge]
      exact ⟨hxsLen, hstart _ hend⟩

/-! ### `poll` (43_radio.md R162) -/

theorem pollLimitReached_eq_false {par : Params} {k : Nat} (h : ∀ limit, par.pollLimit = some limit → k < limit) :
    pollLimitReached par k = false := by
  unfold pollLimitReached
  split
  · rfl
  · next limit hlimit => exact decide_eq_false (Nat.not_le.2 (h limit hlimit))

theorem pollLimitReached_at {par : Params} {k : Nat} (h : par.pollLimit = some k) : pollLimitReached par k = true := by
  simp [pollLimitReached, h]

/-- `poll` returns when the flag is as wanted. -/
theorem performPollTest_satisfied (reg : BitVec 7) {bit : Fin 8} {want : Bool} (k : Nat) {s : State}
    (next : List Act) (h : flagSet s.rx bit = want) :
    performPollTest reg bit want k (launch next s) = launch next s := if_pos h

/-- `poll` reads again below its limit. -/
theorem performPollTest_again (reg : BitVec 7) {bit : Fin 8} {want : Bool} {k : Nat} {s : State} (next : List Act)
    (h : flagSet s.rx bit ≠ want) (hlimit : pollLimitReached s.par k = false) :
    performPollTest reg bit want k (launch next s) = launch (.poll reg bit want k :: next) s := by
  rw [performPollTest, launch_rx, if_neg h, launch_par, hlimit, if_neg Bool.false_ne_true]
  rfl

/-- `poll` ends the command at its limit. -/
theorem performPollTest_timeout (reg : BitVec 7) {bit : Fin 8} {want : Bool} {k : Nat} {s : State} (next : List Act)
    (hpend : s.pend = none) (h : flagSet s.rx bit ≠ want) (hlimit : pollLimitReached s.par k = true) :
    performPollTest reg bit want k (launch next s) =
      completedWith .timeout (reg.setWidth 32) { s with mode := .undefined } := by
  rw [performPollTest, launch_rx, if_neg h, launch_par, if_pos hlimit]
  exact finish_quiet _ _ (s := { launch next s with mode := .undefined }) hpend

/-- One read of `poll`, with its test to follow. -/
theorem reaches_pollRead (reg : BitVec 7) (bit : Fin 8) (want : Bool) (k : Nat) (next : List Act) {r : List Byte}
    {rest : List Bool} {s : State} (hin : s.inputs = []) (hlen : r.length = 2)
    (hmiso : s.misoIn = answersOfAll r ++ rest) :
    Reaches (launch (.poll reg bit want k :: next) s)
      (perform (.pollTest reg bit want (k + 1)) (launch next (afterFrame [readAddress s.par reg, 0] r s))) := by
  refine reaches_launch_act hin nofun ?_
  have hpush : perform (.poll reg bit want k) (launch next s) =
      launch (regRead s reg ++ .pollTest reg bit want (k + 1) :: next) s := by
    simp only [perform, performPoll, push, List.append_assoc]
    rfl
  rw [hpush]
  refine reaches_trans ((sends_regRead reg hin).reaches _ hlen hmiso) ?_
  exact reaches_launch_act ((busBlind_inputs.afterFrame _ r s).trans hin) nofun (reaches_refl _)

/-- `poll` whose next read finds the flag as wanted. -/
theorem reaches_poll_satisfied (reg : BitVec 7) {bit : Fin 8} {want : Bool} (k : Nat) (next : List Act) {r : List Byte}
    {rest : List Bool} {s : State} (hin : s.inputs = []) (hlen : r.length = 2)
    (hmiso : s.misoIn = answersOfAll r ++ rest) (hflag : flagSet (r.getLastD 0) bit = want) :
    Reaches (launch (.poll reg bit want k :: next) s)
      (launch next (afterFrame [readAddress s.par reg, 0] r s)) := by
  have hread := reaches_pollRead reg bit want k next hin hlen hmiso
  have hrx : flagSet (afterFrame [readAddress s.par reg, 0] r s).rx bit = want := by
    rw [afterRead_rx _ hlen, hflag]
  rwa [perform, performPollTest_satisfied reg _ next hrx] at hread

/-- `poll` reads again after each failing read below its limit. -/
theorem reaches_poll_fails (reg : BitVec 7) {bit : Fin 8} {want : Bool} (next : List Act) (fails : List (List Byte))
    (k : Nat) {rest : List Bool} (s : State) (hin : s.inputs = [])
    (hfails : ∀ f ∈ fails, f.length = 2 ∧ flagSet (f.getLastD 0) bit ≠ want)
    (hmiso : s.misoIn = answersOfAll fails.flatten ++ rest)
    (hlimit : ∀ limit, s.par.pollLimit = some limit → k + fails.length < limit) :
    let u := afterFrames (fails.map fun f => ([readAddress s.par reg, 0], f)) s
    u.misoIn = rest ∧ Reaches (launch (.poll reg bit want k :: next) s)
      (launch (.poll reg bit want (k + fails.length) :: next) u) := by
  induction fails generalizing k s with
  | nil => exact ⟨hmiso, reaches_refl _⟩
  | cons f fails ih =>
    obtain ⟨⟨hlen, hflag⟩, hfails⟩ := List.forall_mem_cons.1 hfails
    rw [List.flatten_cons, answersOfAll_append, List.append_assoc] at hmiso
    have hread := reaches_pollRead reg bit want k next hin hlen hmiso
    let u := afterFrame [readAddress s.par reg, 0] f s
    have hpar : u.par = s.par := busBlind_par.afterFrame _ f s
    have hcount : k + (f :: fails).length = k + 1 + fails.length := by
      rw [List.length_cons]
      omega
    rw [hcount] at hlimit ⊢
    have hrx : flagSet u.rx bit ≠ want := by rwa [afterRead_rx _ hlen]
    have hgoes : pollLimitReached u.par (k + 1) = false := pollLimitReached_eq_false fun limit h =>
      Nat.lt_of_le_of_lt (Nat.le_add_right _ _) (hlimit limit (hpar ▸ h))
    rw [perform, performPollTest_again reg next hrx hgoes] at hread
    obtain ⟨hrest, hagain⟩ := ih (k + 1) u ((busBlind_inputs.afterFrame _ f s).trans hin) hfails
      (afterFrame_misoIn_decided (txs := [_, _]) hlen hmiso) (hpar ▸ hlimit)
    rw [hpar] at hrest hagain
    exact ⟨hrest, reaches_trans hread hagain⟩

theorem afterFrames_append (frames frames' : List (List Byte × List Byte)) (s : State) :
    afterFrames (frames ++ frames') s = afterFrames frames' (afterFrames frames s) := by
  induction frames generalizing s with
  | nil => rfl
  | cons frame rest ih => exact ih _

/-- Settles O40: the failing reads one by one, then the last. -/
theorem pollReadsUntilSatisfied : Obligations.PollReadsUntilSatisfied := by
  intro reg bit want next s fails last rest hquiet hfails hlen hmiso
  rw [List.flatten_append, answersOfAll_append, List.flatten_singleton, List.append_assoc] at hmiso
  let reads := fails.map fun f => ([readAddress s.par reg, 0], f)
  let u := afterFrames reads s
  have hpar : u.par = s.par := busBlind_par.afterFrames reads s
  have hquiet' : Quiet u := hquiet.afterFrames reads
  have hlast : afterFrames ((fails ++ [last]).map fun f => ([readAddress s.par reg, 0], f)) s =
      afterFrame [readAddress u.par reg, 0] last u := by
    rw [List.map_append, afterFrames_append, hpar]
    rfl
  rw [hlast]
  refine ⟨fun hflag hlimit => ?_, fun hflag hlimit => ?_⟩
  · obtain ⟨hrest, hrun⟩ := reaches_poll_fails reg next fails 0 s hquiet.1 hfails hmiso
      (fun limit h => by rw [Nat.zero_add]; exact hlimit limit h)
    exact reaches_trans hrun (reaches_poll_satisfied reg _ next hquiet'.1 hlen hrest hflag)
  · obtain ⟨hrest, hrun⟩ := reaches_poll_fails reg next fails 0 s hquiet.1 hfails hmiso
      (fun limit h => by rw [hlimit] at h; cases h; omega)
    have hread := reaches_pollRead reg bit want (0 + fails.length) next hquiet'.1 hlen hrest
    have hrx : flagSet (afterFrame [readAddress u.par reg, 0] last u).rx bit ≠ want := by rwa [afterRead_rx _ hlen]
    have hreached : pollLimitReached (afterFrame [readAddress u.par reg, 0] last u).par (0 + fails.length + 1) =
        true := by
      rw [busBlind_par.afterFrame, hpar, Nat.zero_add]
      exact pollLimitReached_at hlimit
    rw [perform, performPollTest_timeout reg next (hquiet'.afterFrame _ last).2 hrx hreached] at hread
    exact reaches_trans hrun hread

/-! ### Runs of frames whose answers are decided (43_radio.md R161, R175) -/

/-- No frames have no answers. -/
theorem answers_nil {rxs : List (List Byte)} (h : Answers [] rxs) : rxs = [] := by
  match rxs, h with
  | [], _ => rfl

/-- The answers to a first frame and those to the rest. -/
theorem answers_cons {frame : RadioFrame} {frames : List RadioFrame} {rxs : List (List Byte)}
    (h : Answers (frame :: frames) rxs) :
    ∃ r rest, rxs = r :: rest ∧ r.length = frame.sent.length ∧ frame.good (r.getLastD 0) = true ∧
      Answers frames rest := by
  match rxs, h with
  | r :: rest, h => exact ⟨r, rest, rfl, h⟩

theorem answers_singleton {frame : RadioFrame} {rxs : List (List Byte)} (h : Answers [frame] rxs) :
    ∃ r, rxs = [r] ∧ r.length = frame.sent.length ∧ frame.good (r.getLastD 0) = true := by
  obtain ⟨r, rest, rfl, hlen, hgood, hrest⟩ := answers_cons h
  rw [answers_nil hrest]
  exact ⟨r, rfl, hlen, hgood⟩

theorem answers_append {frames frames' : List RadioFrame} {rxs : List (List Byte)}
    (h : Answers (frames ++ frames') rxs) :
    ∃ front back, rxs = front ++ back ∧ Answers frames front ∧ Answers frames' back := by
  induction frames generalizing rxs with
  | nil => exact ⟨[], rxs, rfl, trivial, h⟩
  | cons frame frames ih =>
    obtain ⟨r, rest, rfl, hlen, hgood, hrest⟩ := answers_cons h
    obtain ⟨front, back, rfl, hfront, hback⟩ := ih hrest
    exact ⟨r :: front, back, rfl, ⟨hlen, hgood, hfront⟩, hback⟩

theorem answers_length {frames : List RadioFrame} {rxs : List (List Byte)} (h : Answers frames rxs) :
    rxs.length = frames.length := by
  induction frames generalizing rxs with
  | nil => rw [answers_nil h]; rfl
  | cons frame frames ih =>
    obtain ⟨r, rest, rfl, -, -, hrest⟩ := answers_cons h
    exact congrArg (· + 1) (ih hrest)

/-- Frames one after another, with the answers to each part. -/
theorem afterRadio_append {frames : List RadioFrame} (frames' : List RadioFrame) {front : List (List Byte)}
    (back : List (List Byte)) (h : Answers frames front) (s : State) :
    afterRadio (frames ++ frames') (front ++ back) s = afterRadio frames' back (afterRadio frames front s) := by
  have hlen : (frames.map RadioFrame.sent).length = front.length := by rw [List.length_map, answers_length h]
  simp only [afterRadio, List.map_append, List.zip_append hlen, afterFrames_append]

/-- Frames take the answers to their bytes. -/
theorem afterRadio_misoIn_decided {frames : List RadioFrame} {rxs : List (List Byte)} {rest : List Bool} {s : State}
    (h : Answers frames rxs) (hmiso : s.misoIn = answersOfAll rxs.flatten ++ rest) :
    (afterRadio frames rxs s).misoIn = rest := by
  induction frames generalizing rxs s with
  | nil => rwa [answers_nil h] at hmiso ⊢
  | cons frame frames ih =>
    obtain ⟨r, rxs, rfl, hlen, -, hrest⟩ := answers_cons h
    rw [List.flatten_cons, answersOfAll_append, List.append_assoc] at hmiso
    exact ih hrest (afterFrame_misoIn_decided hlen hmiso)

theorem afterRadio_singleton (frame : RadioFrame) (r : List Byte) (s : State) :
    afterRadio [frame] [r] s = afterFrame frame.sent r s := rfl

/-- A last frame leaves the byte received last in `rx`. -/
theorem afterRadio_append_read_rx {frames : List RadioFrame} {par : Params} {reg : BitVec 7} {good : Byte → Bool}
    {rxs : List (List Byte)} (h : Answers (frames ++ [readFrame par reg good]) rxs) (s : State) :
    (afterRadio (frames ++ [readFrame par reg good]) rxs s).rx = (rxs.getLastD []).getLastD 0 := by
  obtain ⟨front, back, rfl, hfront, hback⟩ := answers_append h
  obtain ⟨r, rfl, hlen, -⟩ := answers_singleton hback
  rw [afterRadio_append _ _ hfront, List.getLastD_concat, afterRadio_singleton]
  exact afterRead_rx _ hlen _

/-- `u` is a state inside the run of a radio command that started at `s`, with MODE at `m`. -/
structure Underway (s : State) (m : Mode) (u : State) : Prop where
  par : u.par = s.par
  busCfg : u.busCfg = s.busCfg
  buf : u.buf = s.buf
  inputs : u.inputs = []
  mode : u.mode = m

/-- The actions `acts`, performed inside a run that started at `s`, send `frames` and take MODE from `m` to `m'`,
whatever comes after them. -/
def Plays (s : State) (m : Mode) (acts : List Act) (frames : List RadioFrame) (m' : Mode) : Prop :=
  ∀ (u : State) (rxs : List (List Byte)) (rest : List Bool) (next : List Act), Underway s m u →
    Answers frames rxs → u.misoIn = answersOfAll rxs.flatten ++ rest →
    Reaches (launch (acts ++ next) u) (launch next { afterRadio frames rxs u with mode := m' })

section
variable {s u : State} {m : Mode}

theorem underway_start (hin : s.inputs = []) (hmode : s.mode = m) : Underway s m s := ⟨rfl, rfl, rfl, hin, hmode⟩

/-- A run is still underway after frames and a write of MODE. -/
theorem Underway.afterRadio (h : Underway s m u) (frames : List RadioFrame) (rxs : List (List Byte)) (m' : Mode) :
    Underway s m' { afterRadio frames rxs u with mode := m' } where
  par := (busBlind_par.afterRadio frames rxs u).trans h.par
  busCfg := (busBlind_busCfg.afterRadio frames rxs u).trans h.busCfg
  buf := (busBlind_buf.afterRadio frames rxs u).trans h.buf
  inputs := (busBlind_inputs.afterRadio frames rxs u).trans h.inputs
  mode := rfl

theorem Underway.spiByte (h : Underway s m u) : spiByte u = spiByte s := by
  funext tx
  simp only [Machine.spiByte, spiBit, h.par, h.busCfg]

theorem Underway.regWrite (h : Underway s m u) (reg : BitVec 7) (v : Byte) : regWrite u reg v = regWrite s reg v := by
  simp only [Machine.regWrite, selectAct, deselectAct, h.spiByte, h.par, h.busCfg]

theorem Underway.regRead (h : Underway s m u) (reg : BitVec 7) : regRead u reg = regRead s reg := by
  simp only [Machine.regRead, selectAct, deselectAct, h.spiByte, h.par, h.busCfg]

theorem Underway.fifoWrite (h : Underway s m u) (p : Byte) (n : Nat) : fifoWrite u p n = fifoWrite s p n := by
  simp only [Machine.fifoWrite, selectAct, deselectAct, h.spiByte, h.par, h.busCfg]

theorem plays_nil (s : State) (m : Mode) : Plays s m [] [] m := by
  rintro u rxs rest next ⟨-, -, -, -, rfl⟩ hans -
  rw [answers_nil hans]
  exact reaches_refl _

/-- Actions in sequence send their frames in sequence. -/
theorem Plays.append {acts acts' : List Act} {frames frames' : List RadioFrame} {m' m'' : Mode}
    (h : Plays s m acts frames m') (h' : Plays s m' acts' frames' m'') :
    Plays s m (acts ++ acts') (frames ++ frames') m'' := by
  intro u rxs rest next hu hans hmiso
  obtain ⟨front, back, rfl, hfront, hback⟩ := answers_append hans
  rw [List.flatten_append, answersOfAll_append, List.append_assoc] at hmiso
  have hfirst := h u front _ (acts' ++ next) hu hfront hmiso
  have hsecond := h' _ back rest next (hu.afterRadio frames front m') hback
    (afterRadio_misoIn_decided hfront hmiso)
  have hmode : afterRadio frames' back { afterRadio frames front u with mode := m' } =
      { afterRadio frames' back (afterRadio frames front u) with mode := m' } :=
    (besideBus_mode m').afterFrames _ _
  rw [hmode] at hsecond
  rw [List.append_assoc, afterRadio_append _ _ hfront]
  exact reaches_trans hfirst hsecond

/-- A single frame leaves MODE alone. -/
theorem plays_frame {acts : List Act} {frame : RadioFrame}
    (h : ∀ (u : State) (r : List Byte) (rest : List Bool) (next : List Act), Underway s m u →
      r.length = frame.sent.length → frame.good (r.getLastD 0) = true → u.misoIn = answersOfAll r ++ rest →
      Reaches (launch (acts ++ next) u) (launch next (afterFrame frame.sent r u))) :
    Plays s m acts [frame] m := by
  intro u rxs rest next hu hans hmiso
  obtain ⟨r, rfl, hlen, hgood⟩ := answers_singleton hans
  rw [List.flatten_singleton] at hmiso
  have hmode : (afterFrame frame.sent r u).mode = m := (busBlind_mode.afterFrame _ r u).trans hu.mode
  have hsame : { afterRadio [frame] [r] u with mode := m } = afterFrame frame.sent r u := hmode ▸ rfl
  rw [hsame]
  exact h u r rest next hu hlen hgood hmiso

theorem plays_regWrite (s : State) (m : Mode) (reg : BitVec 7) (v : Byte) :
    Plays s m (regWrite s reg v) [writeFrame s.par reg v] m :=
  plays_frame fun u r rest next hu hlen _ hmiso => by
    rw [← hu.regWrite, ← hu.par]
    exact (sends_regWrite reg v hu.inputs).reaches next hlen hmiso

theorem plays_regRead (s : State) (m : Mode) (reg : BitVec 7) (good : Byte → Bool) :
    Plays s m (regRead s reg) [readFrame s.par reg good] m :=
  plays_frame fun u r rest next hu hlen _ hmiso => by
    rw [← hu.regRead, ← hu.par]
    exact (sends_regRead reg hu.inputs).reaches next hlen hmiso

theorem plays_fifoWrite (s : State) (m : Mode) (p : Byte) (n : Nat) :
    Plays s m (fifoWrite s p n) [fifoFrame s.par (bufReadAll s.buf p n)] m :=
  plays_frame fun u r rest next hu hlen _ hmiso => by
    rw [← hu.fifoWrite, ← hu.par, ← hu.buf]
    rw [← hu.par, ← hu.buf] at hlen
    exact (sends_fifoWrite p n hu.inputs).reaches next hlen hmiso

/-- `poll` whose first read finds the flag as wanted is that read. -/
theorem plays_poll (s : State) (m : Mode) (reg : BitVec 7) {bit : Fin 8} {want : Bool} {good : Byte → Bool}
    (hwant : ∀ v, good v = true → flagSet v bit = want) :
    Plays s m [.poll reg bit want 0] [readFrame s.par reg good] m :=
  plays_frame fun u r rest next hu hlen hgood hmiso => by
    rw [← hu.par]
    exact reaches_poll_satisfied reg 0 next hu.inputs hlen hmiso (hwant _ hgood)

/-- `MODE <- m'` sends nothing. -/
theorem plays_setMode (s : State) (m : Mode) (m' : RadioMode) : Plays s m [.setMode m'] [] (.known m') := by
  intro u rxs rest next hu hans hmiso
  rw [answers_nil hans]
  exact reaches_launch_act hu.inputs nofun (reaches_refl _)

/-- An action that puts others in front of the agenda plays as they do. -/
theorem plays_of_push {a : Act} {acts : List Act} {frames : List RadioFrame} {m' : Mode} (hne : a ≠ .awaitTick)
    (hpush : ∀ u next, Underway s m u → perform a (launch next u) = launch (acts ++ next) u)
    (h : Plays s m acts frames m') : Plays s m [a] frames m' := by
  intro u rxs rest next hu hans hmiso
  exact reaches_launch_act hu.inputs hne (hpush u next hu ▸ h u rxs rest next hu hans hmiso)

end

/-! ### `set_mode_seq` and RF.MODE (43_radio.md R164) -/

/-- `set_mode_seq` with every poll satisfied by its first read. -/
theorem plays_setModeSeq (s : State) (m : Mode) (m' : RadioMode) :
    Plays s m (setModeSeq s m') (modeFrames s.par m') (.known m') := by
  have hready := (plays_regWrite s m s.par.regOpMode (modeCode s.par m')).append
    (plays_poll s m s.par.regIrqFlags1 (bit := s.par.bitModeReady) fun _ h => h)
  have htx : Plays s m (if m' = .transmit then [.poll s.par.regIrqFlags1 s.par.bitTxReady true 0] else [])
      (if m' = .transmit then [readFrame s.par s.par.regIrqFlags1 fun v => flagSet v s.par.bitTxReady] else []) m := by
    split
    · exact plays_poll s m s.par.regIrqFlags1 fun _ h => h
    · exact plays_nil s m
  have h := (hready.append htx).append (plays_setMode s m m')
  rw [List.append_nil] at h
  exact h

/-- An agenda that plays frames and then finishes completes the command. -/
theorem Plays.completes {s : State} {acts : List Act} {frames : List RadioFrame} {m : Mode}
    (h : Plays s s.mode acts frames m) (hquiet : Quiet s) {rxs : List (List Byte)} {rest : List Bool}
    (hans : Answers frames rxs) (hmiso : s.misoIn = answersOfAll rxs.flatten ++ rest) (code : Code) (r : Word) :
    Reaches (launch (acts ++ [Act.finish code r]) s)
      (completedWith code r { afterRadio frames rxs s with mode := m }) := by
  obtain ⟨hin, hpend⟩ := hquiet.afterRadio frames rxs
  exact reaches_completedWith (h s rxs rest _ (underway_start hquiet.1 rfl) hans hmiso) hin hpend

/-- A mode operand above 2 is out of range (R164). -/
theorem modeOperand_of_gt {c : Byte} (h : 2 < c.toNat) : modeOperand c = none := by
  unfold modeOperand
  split
  case h_4 => rfl
  all_goals omega

/-- Settles O39: RF.MODE is `set_mode_seq` with `finish` to follow. -/
theorem radioModeCompletes : Obligations.RadioModeCompletes := by
  refine ⟨fun c m s rxs rest hquiet hbus hoperand hans hmiso => ?_, fun c s hpend hbig => ?_⟩
  · have hmode : modeOperand c = some m := by
      simp only [List.mem_cons, Prod.mk.injEq, List.not_mem_nil, or_false] at hoperand
      rcases hoperand with ⟨rfl, rfl⟩ | ⟨rfl, rfl⟩ | ⟨rfl, rfl⟩ <;> rfl
    have hexec : exec (.rfMode c) s = .next (launch (setModeSeq s m ++ [Act.finish .ok 0]) s) := by
      simp only [exec, execRfMode, hmode, checked_of_pass _ (firstFault_xferChecks_ready hbus)]
    exact ⟨_, hexec, (plays_setModeSeq s s.mode m).completes hquiet hans hmiso .ok 0⟩
  · simp only [exec, execRfMode, modeOperand_of_gt hbig, finish_quiet _ _ hpend]

/-! ### RF.CONFIG (43_radio.md R165, R171) -/

theorem regWrite_afterFrame (txs rxs : List Byte) (s : State) : regWrite (afterFrame txs rxs s) = regWrite s := by
  funext reg v
  simp only [regWrite, selectAct, deselectAct, spiByte, spiBit, busBlind_par.afterFrame, busBlind_busCfg.afterFrame]

/-- The register writes of a profile send one frame each, with what MISO answers. -/
theorem reaches_profileWrites (pairs : List (BitVec 7 × Byte)) (next : List Act) (s : State) (hin : s.inputs = []) :
    ∃ rxs, Answers (pairs.map fun av => writeFrame s.par av.1 av.2) rxs ∧ Agrees s.misoIn (answersOfAll rxs.flatten) ∧
      Reaches (launch (profileWrites s pairs ++ next) s)
        (launch next (afterRadio (pairs.map fun av => writeFrame s.par av.1 av.2) rxs s)) := by
  induction pairs generalizing s with
  | nil => exact ⟨[], trivial, agrees_nil _, reaches_refl _⟩
  | cons av pairs ih =>
    obtain ⟨r, hlen, hr, hwrite⟩ := sends_regWrite av.1 av.2 hin (profileWrites s pairs ++ next)
    let u := afterFrame [writeAddress s.par av.1, av.2] r s
    have hpar : u.par = s.par := busBlind_par.afterFrame _ r s
    have hacts : profileWrites u pairs = profileWrites s pairs := by
      simp only [profileWrites, u, regWrite_afterFrame]
    obtain ⟨rxs, hans, hrxs, hrest⟩ := ih u ((busBlind_inputs.afterFrame _ r s).trans hin)
    rw [hpar] at hans hrest
    rw [hacts] at hrest
    rw [afterFrame_misoIn hlen] at hrxs
    refine ⟨r :: rxs, ⟨hlen, rfl, hans⟩, ?_, ?_⟩
    · rw [List.flatten_cons, answersOfAll_append]
      exact agrees_append hr hrxs
    · rw [profileWrites, List.flatMap_cons, List.append_assoc]
      exact reaches_trans hwrite hrest

/-- RF.CONFIG of the active profile ends at once (R165, R171). -/
theorem exec_rfConfig_memo {p : Byte} {s : State} (hpend : s.pend = none) (hknown : p.toNat < s.par.nprofiles)
    (hmemo : s.profile = some p) : exec (.rfConfig p) s = .next (completedWith .ok 0 s) := by
  have hpairs : s.par.profiles[p.toNat]? = some s.par.profiles[p.toNat] := List.getElem?_eq_getElem hknown
  simp only [exec, execRfConfig, hpairs, if_pos hmemo, finish_quiet _ _ hpend]

/-- Settles O41: the profile's writes, with the write of PROFILE and `finish` to follow. -/
theorem radioConfigCompletes : Obligations.RadioConfigCompletes := by
  intro p s
  refine ⟨fun hpend hunknown => ?_, exec_rfConfig_memo, fun pairs hquiet hbus hpairs hmiss => ?_⟩
  · have hnone : s.par.profiles[p.toNat]? = none := List.getElem?_eq_none hunknown
    simp only [exec, execRfConfig, hnone, finish_quiet _ _ hpend]
  · have hexec : exec (.rfConfig p) s =
        .next (launch (profileWrites s pairs ++ [Act.setProfile p, .finish .ok 0]) s) := by
      simp only [exec, execRfConfig, hpairs, if_neg hmiss, checked_of_pass _ (firstFault_xferChecks_ready hbus)]
    obtain ⟨rxs, hans, hrxs, hrun⟩ := reaches_profileWrites pairs [.setProfile p, .finish .ok 0] s hquiet.1
    obtain ⟨hin, hpend⟩ := hquiet.afterRadio (pairs.map fun av => writeFrame s.par av.1 av.2) rxs
    have hprofile := reaches_launch_act (a := .setProfile p) (next := [.finish .ok 0]) hin nofun (reaches_refl _)
    exact ⟨rxs, hans, hrxs, _, hexec, reaches_completedWith (reaches_trans hrun hprofile) hin hpend⟩

/-- Settles O42: both ends of RF.CONFIG leave the memo at `p`, and the parameters as they were. -/
theorem radioConfigMemo : Obligations.RadioConfigMemo := by
  intro p s hquiet hbus hknown
  by_cases hmemo : s.profile = some p
  · exact ⟨completedWith .ok 0 s, ⟨_, exec_rfConfig_memo hquiet.2 hknown hmemo, reaches_refl _⟩, rfl, hmemo,
      fun w => exec_rfConfig_memo hquiet.2 hknown hmemo⟩
  · obtain ⟨-, -, hwrites⟩ := radioConfigCompletes p s
    obtain ⟨rxs, -, -, hrun⟩ := hwrites _ hquiet hbus (List.getElem?_eq_getElem hknown) hmemo
    refine ⟨_, hrun, rfl, rfl, fun w => exec_rfConfig_memo ?_ ?_ rfl⟩
    · exact (hquiet.afterRadio _ rxs).2
    · exact (busBlind_par.afterRadio _ rxs s).symm ▸ hknown

/-! ### RF.TX (43_radio.md R166) -/

/-- The loads of RF.TX, each poll between two of them satisfied by its first read. -/
theorem plays_txLoad (s : State) (m : Mode) (a : Byte) (len k : Nat) :
    Plays s m [.txLoad a len k] (loadFrames s.par (bufReadAll s.buf a len) k) m := by
  induction k using loadFrames.induct with
  | case1 => exact plays_of_push nofun (fun u next _ => rfl) (plays_nil s m)
  | case2 =>
    exact plays_of_push nofun (fun u next hu => by rw [← hu.fifoWrite]; rfl) (plays_fifoWrite s m a len)
  | case3 k ih =>
    refine plays_of_push (acts := fifoWrite s a len ++ ([.poll s.par.regIrqFlags2 s.par.bitFifoLevel false 0] ++
      [Act.txLoad a len (k + 1)])) nofun (fun u next hu => ?_) ?_
    · rw [← hu.fifoWrite, ← hu.par]
      rfl
    · exact (plays_fifoWrite s m a len).append ((plays_poll s m s.par.regIrqFlags2 (by simp)).append ih)

/-- The switch to Transmit (R166). -/
theorem plays_txSwitch {s : State} {prior : RadioMode} (hmode : s.mode = .known prior) :
    Plays s (.known prior) (txSwitch s) (if prior = .transmit then [] else modeFrames s.par .transmit)
      (.known .transmit) := by
  rw [txSwitch, hmode]
  by_cases htx : prior = .transmit
  · subst htx
    exact plays_nil s _
  · rw [if_neg htx, if_neg (fun h => htx (Mode.known.inj h))]
    exact plays_setModeSeq s _ .transmit

/-- The restore of the prior mode (R166). -/
theorem plays_txRestore {s : State} {prior : RadioMode} (hmode : s.mode = .known prior) :
    Plays s (.known .transmit) (txRestore s) (if prior = .transmit then [] else modeFrames s.par prior)
      (.known prior) := by
  rw [txRestore, hmode]
  cases prior with
  | standby => exact plays_setModeSeq s _ .standby
  | receive => exact plays_setModeSeq s _ .receive
  | transmit => exact plays_nil s _

/-- All of RF.TX but its overrun check: the frames of R166, with the mode back at the prior one. -/
theorem plays_txActs {s : State} {prior : RadioMode} (hmode : s.mode = .known prior) (a : Byte) (len rep : Nat) :
    ∃ acts, txActs s a len rep = acts ++ [Act.txCheck] ∧
      Plays s (.known prior) acts (txFrames s.par prior (bufReadAll s.buf a len) rep) (.known prior) := by
  have hlen : (bufReadAll s.buf a len).length = len := by simp [bufReadAll]
  have hload := (plays_txLoad s (.known .transmit) a len rep).append
    (plays_poll s (.known .transmit) s.par.regIrqFlags2 (bit := s.par.bitFifoNotEmpty) (want := false)
      (good := fun v => !flagSet v s.par.bitFifoNotEmpty) (by simp))
  have h := ((((plays_regWrite s (.known prior) s.par.regFifoThresh (BitVec.ofNat 8 (len - 1))).append
    (plays_txSwitch hmode)).append hload).append (plays_txRestore hmode)).append
    (plays_regRead s (.known prior) s.par.regIrqFlags2 fun _ => true)
  refine ⟨_, rfl, ?_⟩
  rw [txFrames, hlen]
  simp only [List.append_assoc] at h ⊢
  exact h

/-- RF.TX ends by the flags read last (R166). -/
theorem performTxCheck_eq {par : Params} {f : Byte} {s : State} (hpar : s.par = par) (hpend : s.pend = none)
    (hrx : s.rx = f) :
    performTxCheck (launch [] s) =
      if flagSet f par.bitFifoNotEmpty = true ∨ flagSet f par.bitFifoOverrun = true then
        completedWith .overrun (f.setWidth 32) s
      else completedWith .ok 0 s := by
  subst hpar hrx
  rw [performTxCheck, finish_quiet _ _ (s := launch [] s) hpend, finish_quiet _ _ (s := launch [] s) hpend]
  simp only [Bool.or_eq_true]
  rfl

/-- Settles O43: the frames of R166 with the overrun check to follow. -/
theorem radioTransmitCompletes : Obligations.RadioTransmitCompletes := by
  intro a len rep prior s rxs rest ⟨hin, hpend⟩ hbus hmode hpos hfits ⟨hlegal, hwritten⟩ hans hmiso
  obtain ⟨acts, hacts, hplays⟩ := plays_txActs hmode a len.toNat (repeatCount s.par rep)
  have hpass : firstFault (xferChecks s ++ [requireMode s, requireRange a len.toNat, requireWritten a len.toNat s]) =
      none := by
    have hknown : s.mode ≠ .undefined := hmode ▸ nofun
    rw [firstFault_xferChecks_append hbus, requireMode_of_known hknown, requireRange_of_legal hlegal,
      requireWritten_of_written hwritten, firstFault_none, firstFault_none, firstFault_none, firstFault_nil]
  have hexec := exec_rfTx_of_fits a rep hpos hfits
  rw [checked_of_pass _ hpass, hacts] at hexec
  let frames := txFrames s.par prior (bufReadAll s.buf a len.toNat) (repeatCount s.par rep)
  obtain ⟨hin', hpend'⟩ := Quiet.afterRadio ⟨hin, hpend⟩ frames rxs
  have hprior : { afterRadio frames rxs s with mode := .known prior } = afterRadio frames rxs s := by
    rw [← hmode, ← busBlind_mode.afterRadio frames rxs s]
  have hrun := hplays s rxs rest [.txCheck] (underway_start hin hmode) hans hmiso
  rw [hprior] at hrun
  have hcheck := performTxCheck_eq (busBlind_par.afterRadio frames rxs s) hpend' (afterRadio_append_read_rx hans s)
  exact ⟨_, hexec, reaches_trans hrun (reaches_last hin' nofun hcheck)⟩

end Sys2Proof.Machine

/-! ManchesterCodec: the nibble code, the checks on a region, the decode loop and the encoded bytes in BUF; with the
statements they settle. -/

namespace Sys2Proof.Machine

/-! ### The nibble code (44_manchester.md R190, R194, R196) -/

/-- `legal(x)` by R190's four values. -/
theorem legalNibble_iff_value (x : BitVec 4) : legalNibble x = true ↔ legalNibbleValue x := by
  simp [legalNibble, legalNibbleValue, or_assoc]

/-- A byte is legal exactly when both its nibbles are. -/
theorem legalByte_iff_values (x : Byte) :
    legalByte x = true ↔ legalNibbleValue (x.extractLsb' 4 4) ∧ legalNibbleValue (x.extractLsb' 0 4) := by
  rw [legalByte, Bool.and_eq_true, legalNibble_iff_value, legalNibble_iff_value]
  rfl

/-- R190's table. -/
theorem enc2_table : enc2 0 = 0x5 ∧ enc2 1 = 0x6 ∧ enc2 2 = 0x9 ∧ enc2 3 = 0xA := by decide

/-- The legal nibbles are the encodings of two data bits. -/
theorem exists_enc2_of_legal {x : BitVec 4} (h : legalNibbleValue x) : ∃ d, enc2 d = x := by
  obtain ⟨h0, h1, h2, h3⟩ := enc2_table
  simp only [legalNibbleValue, List.mem_cons, List.not_mem_nil, or_false] at h
  rcases h with rfl | rfl | rfl | rfl
  · exact ⟨0, h0⟩
  · exact ⟨1, h1⟩
  · exact ⟨2, h2⟩
  · exact ⟨3, h3⟩

theorem decByte_encNib (n : BitVec 4) : decByte (encNib n) = n := by
  revert n
  decide

theorem legalByte_encNib (n : BitVec 4) : legalByte (encNib n) = true := by
  revert n
  decide

/-- A byte is its two nibbles. -/
theorem highNibble_append_lowNibble (x : Byte) : highNibble x ++ lowNibble x = x :=
  BitVec.extractLsb'_append_extractLsb'

theorem encNib_append (d e : BitVec 2) : encNib (d ++ e) = enc2 d ++ enc2 e := by
  revert d e
  decide

/-- The legal bytes are the encodings of four data bits. -/
theorem exists_encNib_of_legal {x : Byte} (h : legalByte x = true) : ∃ n, encNib n = x := by
  obtain ⟨hhigh, hlow⟩ := (legalByte_iff_values x).1 h
  obtain ⟨d, hd⟩ := exists_enc2_of_legal hhigh
  obtain ⟨e, he⟩ := exists_enc2_of_legal hlow
  exact ⟨d ++ e, by rw [encNib_append, hd, he]; exact highNibble_append_lowNibble x⟩

/-- Settles O51: a legal byte is an encoding, so decoding inverts encoding on both sides. -/
theorem nibbleCode : Obligations.NibbleCode := by
  refine ⟨enc2_table, fun n => ⟨decByte_encNib n, legalByte_encNib n⟩, fun x hx => ?_, by decide⟩
  obtain ⟨n, rfl⟩ := exists_encNib_of_legal hx
  rw [decByte_encNib]

/-! ### The checks on a region (44_manchester.md R191 to R193, 60_exceptions.md R207) -/

theorem bufGet_of_read {m : Memory} {a x : Byte} (h : bufRead m a = some x) : bufGet m a = x := by
  rw [bufGet, h, Option.getD_some]

/-- A readable region passes the range and the Unwritten check. -/
theorem firstFault_readable {b : Byte} {n : Nat} {s : State} (h : RegionReadable s b n) (rest : List (Option Cause)) :
    firstFault (requireRange b n :: requireWritten b n s :: rest) = firstFault rest := by
  rw [requireRange_of_legal h.1, requireWritten_of_written h.2, firstFault_none, firstFault_none]

theorem firstFault_illegal {b : Byte} {n : Nat} (h : 256 < b.toNat + n) (rest : List (Option Cause)) :
    firstFault (requireRange b n :: rest) = some .bufRange := by
  rw [requireRange_of_illegal h, firstFault_some]

theorem firstFault_unwritten {b : Byte} {n : Nat} {s : State} (hrange : b.toNat + n ≤ 256)
    (h : ∃ i, i < n ∧ bufRead s.buf (b + BitVec.ofNat 8 i) = none) (rest : List (Option Cause)) :
    firstFault (requireRange b n :: requireWritten b n s :: rest) = some .bufUnwritten := by
  rw [requireRange_of_legal hrange, requireWritten_of_unwritten h, firstFault_none, firstFault_some]

/-- On a readable region the loop of MC.VALID answers whether every byte is legal (R191). -/
theorem regionManchester_iff {s : State} {b : Byte} {n : Nat} (h : RegionReadable s b n) :
    regionManchester s.buf b n = true ↔ RegionIsManchester s b n := by
  simp only [regionManchester, List.all_eq_true, List.mem_range, RegionIsManchester, ← legalByte_iff_values]
  refine ⟨fun hall i x hi hx => bufGet_of_read hx ▸ hall i hi, fun hall i hi => ?_⟩
  obtain ⟨x, hx⟩ := Option.isSome_iff_exists.1 (h.2 i hi)
  exact bufGet_of_read hx ▸ hall i x hi hx

theorem regionManchester_eq_false {s : State} {b : Byte} {n : Nat} (h : RegionReadable s b n)
    (hno : ¬ RegionIsManchester s b n) : regionManchester s.buf b n = false := by
  rwa [← regionManchester_iff h, Bool.not_eq_true] at hno

/-- Settles O52: past the checks the answer is that of the loop. -/
theorem manchesterValid : Obligations.ManchesterValid := by
  intro b size s hpend hread
  have hexec : exec (.mcValid b size) s = .next (if regionManchester s.buf b size.toNat then
      completedWith .ok 1 s else completedWith .invalidManchester 0 s) := by
    rw [exec, execMcValid, checked_of_pass _ (firstFault_readable hread []), finish_quiet _ _ hpend,
      finish_quiet _ _ hpend]
  refine ⟨fun hlegal => ?_, fun hillegal => ?_⟩
  · rw [hexec, if_pos ((regionManchester_iff hread).2 hlegal)]
  · rw [hexec, regionManchester_eq_false hread hillegal, if_neg Bool.false_ne_true]

/-- MC.DECODE of a readable region of odd size (R192). -/
theorem exec_mcDecode_odd {b size : Byte} {s : State} (hrun : Running s) (hread : RegionReadable s b size.toNat)
    (hodd : size.toNat % 2 = 1) : exec (.mcDecode b size) s = .next (faultedWith .oddSize s) := by
  refine congrArg _ (checked_of_fault _ hrun ((firstFault_readable hread _).trans ?_))
  rw [hodd]
  rfl

/-- MC.DECODE of a readable region of even size with an illegal nibble (R192). -/
theorem exec_mcDecode_illegal {b size : Byte} {s : State} (hrun : Running s) (hread : RegionReadable s b size.toNat)
    (heven : size.toNat % 2 = 0) (hillegal : ¬ RegionIsManchester s b size.toNat) :
    exec (.mcDecode b size) s = .next (faultedWith .manchesterPrecondition s) := by
  refine congrArg _ (checked_of_fault _ hrun ((firstFault_readable hread _).trans ?_))
  rw [heven, regionManchester_eq_false hread hillegal]
  rfl

/-- Settles O55: each check in its place in R207's order. -/
theorem manchesterFaults : Obligations.ManchesterFaults := by
  intro a b size s hrun
  have raises : ∀ {checks : List (Option Cause)} (body : State → State) {c : Cause}, firstFault checks = some c →
      Host.Outcome.next (checked checks body s) = (.next (faultedWith c s) : Host.Outcome State Fault Refusal) :=
    fun body _ h => congrArg _ (checked_of_fault body hrun h)
  refine ⟨fun hlong => ⟨?_, ?_⟩, fun hlegal hunwritten => ⟨?_, ?_⟩, exec_mcDecode_odd hrun,
    exec_mcDecode_illegal hrun, fun hlong => ?_, fun ha hb hunwritten => ?_⟩
  · exact raises _ (firstFault_illegal hlong _)
  · exact raises _ (firstFault_illegal hlong _)
  · exact raises _ (firstFault_unwritten hlegal hunwritten _)
  · exact raises _ (firstFault_unwritten hlegal hunwritten _)
  · refine raises _ ?_
    by_cases ha : 256 < a.toNat + size.toNat
    · exact firstFault_illegal ha _
    · rw [requireRange_of_legal (Nat.not_lt.1 ha), firstFault_none]
      exact firstFault_illegal (hlong.resolve_left ha) _
  · refine raises _ ?_
    rw [requireRange_of_legal ha, requireRange_of_legal hb, requireWritten_of_unwritten hunwritten, firstFault_none,
      firstFault_none, firstFault_some]

/-- A write leaves a readable region readable. -/
theorem RegionReadable.bufWrite {s : State} {b : Byte} {n : Nat} (h : RegionReadable s b n) (a x : Byte) :
    RegionReadable (withBuf (bufWrite s.buf a x) s) b n := by
  refine ⟨h.1, fun i hi => ?_⟩
  rw [withBuf, bufRead_bufWrite]
  split
  · rfl
  · exact h.2 i hi

/-- Settles O57: the byte written at any position is read back, so the region is no longer legal. -/
theorem singleNibbleSensitivity : Obligations.SingleNibbleSensitivity := by
  intro b size s hpend hrun hread hlegal
  refine ⟨(manchesterValid b size s hpend hread).1 hlegal, fun k x u hk hx hu => ?_⟩
  have hpend' : u.pend = none := hu ▸ hpend
  have hrun' : Running u := hu ▸ hrun
  have hread' : RegionReadable u b size.toNat := hu ▸ hread.bufWrite (b + BitVec.ofNat 8 k) x
  have hback : bufRead u.buf (b + BitVec.ofNat 8 k) = some x := hu ▸ bufRead_bufWrite_same _ _ _
  have hillegal : ¬ RegionIsManchester u b size.toNat := fun h => hx (h k x hk hback)
  refine ⟨(manchesterValid b size u hpend' hread').2 hillegal, ?_⟩
  by_cases heven : size.toNat % 2 = 0
  · rw [if_pos heven]
    exact exec_mcDecode_illegal hrun' hread' heven hillegal
  · rw [if_neg heven]
    exact exec_mcDecode_odd hrun' hread' (Nat.mod_two_ne_zero.1 heven)

/-! ### The decode loop (44_manchester.md R192) -/

/-- Two addresses of one region within BUF are equal only at the same offset. -/
theorem address_ne {i j : Nat} (b : Byte) (hi : i < 256) (hj : j < 256) (hne : i ≠ j) :
    b + BitVec.ofNat 8 i ≠ b + BitVec.ofNat 8 j := by
  bv_omega

/-- The loop over one pair more ends with the step for that pair. -/
theorem decodeInPlace_succ (b : Byte) (n : Nat) (m : Memory) :
    decodeInPlace b (n + 1) m = decodeStep b (decodeInPlace b n m) n := by
  simp [decodeInPlace, List.range_succ]

/-- The loop stores in the first half only. -/
theorem bufRead_decodeInPlace_outside (b : Byte) (n : Nat) (m : Memory) (a : Byte)
    (h : ∀ j, j < n → a ≠ b + BitVec.ofNat 8 j) : bufRead (decodeInPlace b n m) a = bufRead m a := by
  induction n with
  | zero => rfl
  | succ n ih =>
    rw [decodeInPlace_succ, decodeStep, bufRead_bufWrite_other _ _ _ _ (h n (Nat.lt_succ_self n))]
    exact ih fun j hj => h j (Nat.lt_succ_of_lt hj)

/-- Pair j is read before any step stores over it, since the steps before it store below j ≤ 2j. -/
theorem bufGet_decodeInPlace_unread (b : Byte) {n k : Nat} (m : Memory) (hnk : n ≤ k) (hk : k < 256) :
    bufGet (decodeInPlace b n m) (b + BitVec.ofNat 8 k) = bufGet m (b + BitVec.ofNat 8 k) := by
  rw [bufGet, bufRead_decodeInPlace_outside b n m _ fun j hj => address_ne b hk (by omega) (by omega), bufGet]

/-- Byte j of the first half is decoded from bytes 2j and 2j + 1 as they were. -/
theorem bufRead_decodeInPlace_inside (b : Byte) {n : Nat} (m : Memory) (hn : 2 * n ≤ 256) {j : Nat} (hj : j < n) :
    bufRead (decodeInPlace b n m) (b + BitVec.ofNat 8 j) =
      some (decByte (bufGet m (b + BitVec.ofNat 8 (2 * j))) ++
        decByte (bufGet m (b + BitVec.ofNat 8 (2 * j + 1)))) := by
  induction n with
  | zero => exact absurd hj (Nat.not_lt_zero j)
  | succ n ih =>
    rw [decodeInPlace_succ, decodeStep]
    rcases Nat.lt_succ_iff_lt_or_eq.1 hj with hlt | rfl
    · rw [bufRead_bufWrite_other _ _ _ _ (address_ne b (by omega) (by omega) hlt.ne)]
      exact ih (by omega) hlt
    · rw [bufRead_bufWrite_same, bufGet_decodeInPlace_unread b m (by omega) (by omega),
        bufGet_decodeInPlace_unread b m (by omega) (by omega)]

/-- Settles O53: past the checks MC.DECODE is the decode loop. -/
theorem manchesterDecode : Obligations.ManchesterDecode := by
  intro b size s hpend hread heven hlegal
  refine ⟨decodeInPlace b (size.toNat / 2) s.buf, ?_, fun j x y hj hx hy => ?_,
    bufRead_decodeInPlace_outside b _ s.buf⟩
  · rw [exec, execMcDecode, checked_of_pass]
    · exact congrArg _ (finish_quiet _ _ (s := withBuf _ s) hpend)
    · rw [firstFault_readable hread, heven, (regionManchester_iff hread).2 hlegal]
      rfl
  · have hsize : size.toNat ≤ 256 := size.isLt.le
    rw [bufRead_decodeInPlace_inside b s.buf (by omega) hj, bufGet_of_read hx, bufGet_of_read hy]

/-! ### The encoded bytes (44_manchester.md R193) -/

theorem length_encodeBytes (bs : List Byte) : (encodeBytes bs).length = 2 * bs.length := by
  simp [encodeBytes, List.length_flatMap, Nat.mul_comm]

/-- Byte i's high nibble is encoded at 2i and its low nibble at 2i + 1. -/
theorem getElem?_encodeBytes {bs : List Byte} {i : Nat} {x : Byte} (h : bs[i]? = some x) :
    (encodeBytes bs)[2 * i]? = some (encNib (highNibble x)) ∧
    (encodeBytes bs)[2 * i + 1]? = some (encNib (lowNibble x)) := by
  induction bs generalizing i with
  | nil => simp at h
  | cons y rest ih =>
    cases i with
    | zero =>
      obtain rfl : y = x := by simpa using h
      exact ⟨rfl, rfl⟩
    | succ j => exact ih (i := j) (by simpa using h)

theorem getElem?_bufReadAll {m : Memory} {a : Byte} {n i : Nat} {x : Byte} (hi : i < n)
    (hx : bufRead m (a + BitVec.ofNat 8 i) = some x) : (bufReadAll m a n)[i]? = some x := by
  simp [bufReadAll, hi, bufGet_of_read hx]

/-- Settles O54: MC.ENCODE is a sequence of stores of the encoded bytes of a source read before them. -/
theorem manchesterEncode : Obligations.ManchesterEncode := by
  intro a b size s hpend hread hdest
  have hlen : (encodeBytes (bufReadAll s.buf a size.toNat)).length = 2 * size.toNat := by
    simp [length_encodeBytes, bufReadAll]
  obtain ⟨hinside, houtside⟩ := storesExactly_bufWriteAll s.buf b _ (hlen.trans_le (by omega))
  refine ⟨_, ?_, fun i x hi hx => ?_, fun a' ha' => houtside a' (hlen ▸ ha')⟩
  · rw [exec, execMcEncode, checked_of_pass]
    · exact congrArg _ (finish_quiet _ _ (s := withBuf _ s) hpend)
    · rw [requireRange_of_legal hread.1, requireRange_of_legal hdest, requireWritten_of_written hread.2]
      rfl
  · obtain ⟨hhigh, hlow⟩ := getElem?_encodeBytes (getElem?_bufReadAll hi hx)
    exact ⟨hinside _ _ hhigh, hinside _ _ hlow⟩

/-- A region of encodings is readable and legal. -/
theorem readable_manchester_of_encoded {s : State} {b : Byte} {n : Nat} (hrange : b.toNat + n ≤ 256)
    (h : ∀ k, k < n → ∃ v, bufRead s.buf (b + BitVec.ofNat 8 k) = some (encNib v)) :
    RegionReadable s b n ∧ RegionIsManchester s b n := by
  refine ⟨⟨hrange, fun k hk => ?_⟩, fun k x hk hx => ?_⟩
  · obtain ⟨v, hv⟩ := h k hk
    rw [hv, Option.isSome_some]
  · obtain ⟨v, hv⟩ := h k hk
    obtain rfl : encNib v = x := Option.some.inj (hv.symm.trans hx)
    exact (legalByte_iff_values _).1 (legalByte_encNib v)

/-- Settles O56: MC.ENCODE leaves a region of encodings, which is legal, and decoding each pair gives its byte. -/
theorem encodeThenDecodeRoundTrip : Obligations.EncodeThenDecodeRoundTrip := by
  intro a b size s hpend hread hsize hdest
  obtain ⟨m, hencode, hpairs, -⟩ := manchesterEncode a b size s hpend hread hdest
  set t : State := completedWith .ok (BitVec.ofNat 32 (2 * size.toNat)) { s with buf := m }
  have hsource : ∀ i, i < size.toNat → ∃ x, bufRead s.buf (a + BitVec.ofNat 8 i) = some x := fun i hi =>
    Option.isSome_iff_exists.1 (hread.2 i hi)
  have hencoded : ∀ k, k < 2 * size.toNat → ∃ v, bufRead t.buf (b + BitVec.ofNat 8 k) = some (encNib v) := by
    intro k hk
    obtain ⟨x, hx⟩ := hsource (k / 2) (by omega)
    obtain ⟨hhigh, hlow⟩ := hpairs (k / 2) x (by omega) hx
    rcases Nat.mod_two_eq_zero_or_one k with heven | hodd
    · exact ⟨_, (show 2 * (k / 2) = k by omega) ▸ hhigh⟩
    · exact ⟨_, (show 2 * (k / 2) + 1 = k by omega) ▸ hlow⟩
  have hoperand : (BitVec.ofNat 8 (2 * size.toNat)).toNat = 2 * size.toNat :=
    Nat.mod_eq_of_lt (Nat.lt_succ_of_le hsize)
  have hhalf : (BitVec.ofNat 8 (2 * size.toNat)).toNat / 2 = size.toNat := by omega
  obtain ⟨hread', hlegal⟩ := readable_manchester_of_encoded hdest hencoded
  rw [← hoperand] at hread' hlegal
  obtain ⟨m', hdecode, hfirst, -⟩ := manchesterDecode b _ t hpend hread' (by omega) hlegal
  rw [hhalf] at hdecode hfirst
  refine ⟨t, _, hencode, (manchesterValid b _ t hpend hread').1 hlegal, hdecode, rfl, rfl, fun i hi => ?_⟩
  obtain ⟨x, hx⟩ := hsource i hi
  obtain ⟨hhigh, hlow⟩ := hpairs i x hi hx
  calc bufRead m' (b + BitVec.ofNat 8 i)
      = some (decByte (encNib (highNibble x)) ++ decByte (encNib (lowNibble x))) := hfirst i _ _ hi hhigh hlow
    _ = some x := by rw [decByte_encNib, decByte_encNib, highNibble_append_lowNibble]
    _ = bufRead s.buf (a + BitVec.ofNat 8 i) := hx.symm

end Sys2Proof.Machine

/-! Completion, fault entry, and the core that has faulted: what no host access and no tick changes of it; with the
statements they settle. -/

namespace Sys2Proof.Machine

/-! ### Completion and fault entry (60_exceptions.md R204, R205) -/

/-- Settles O12: the two branches of `finish` by PEND. -/
theorem completionAppliesPend : Obligations.CompletionAppliesPend :=
  ⟨fun code result _ hpend => finish_quiet code result hpend,
    fun code result _ _ hpend => finish_pending code result hpend⟩

/-- Settles O13: the branches of `raise` by FAULTED and BUSY. -/
theorem faultEntry : Obligations.FaultEntry := fun cause _ =>
  ⟨raise_faulted cause, raise_running cause, raise_idle cause⟩

/-! ### Steps answer a state (60_exceptions.md R201, R204; 70_reset_and_hazards.md R244) -/

/-- Every command answers a state at its acceptance: its faults are states, and what it leaves to do is the agenda. -/
theorem exec_answers (i : Instr) (s : State) : ∃ t, exec i s = .next t := by
  cases i <;> exact ⟨_, rfl⟩

/-- Settles O19, by the kinds of move and, for a command word, by whether it decodes. -/
theorem stepNeverStops : Obligations.StepNeverStops := by
  intro s
  cases hmove : nextMove s with
  | act a u => exact ⟨perform a u, by simp only [step, hmove]⟩
  | event i u => exact ⟨applyInput i u, by simp only [step, hmove]⟩
  | command w u =>
    cases hdecode : decode w with
    | ok i =>
      obtain ⟨t, hexec⟩ := exec_answers i (accept w u)
      exact ⟨t, by simp only [step, hmove, hdecode, hexec]⟩
    | error e => exact ⟨raise (decodeFault e) (accept w u), by simp only [step, hmove, hdecode]⟩

/-! ### The faulted core (60_exceptions.md R204, R209) -/

/-- `t` is `s` but for T, NOW, the inputs to come, the free values drawn and what the host has read. -/
def Halted (s t : State) : Prop :=
  t = { s with t := t.t, now := t.now, inputs := t.inputs, draws := t.draws, readout := t.readout }

/-- A faulted core has no actions left. -/
theorem State.Inv.agenda_of_faulted {s : State} (h : s.Inv) (hfaulted : s.status.faulted = true) :
    s.agenda = [] := by
  obtain ⟨-, hbusy, hnotBusy, -⟩ := h
  simpa [hnotBusy hfaulted] using hbusy

/-- No host write reaches a faulted core. -/
theorem hostWrite_faulted (width : Nat) (off : BitVec 9) (v : Word) {s : State} (h : s.status.faulted = true) :
    hostWrite width off v s = s := by
  unfold hostWrite
  split
  case h_1 => exact hostWriteBuf_faulted _ _ h
  case h_2 => exact if_pos h
  all_goals exact hostFault_faulted _ h

/-- A read of BUF on a faulted core is answered and raises nothing. -/
theorem hostReadBuf_halted (a : Byte) (off : BitVec 9) {s : State} (h : s.status.faulted = true) :
    Halted s (hostReadBuf a off s) := by
  unfold hostReadBuf
  split
  · rfl
  · split
    · rfl
    · rw [raise_faulted (s := answerFreeByte off s) _ h]
      rfl

/-- A host read of a faulted core is answered and raises nothing. -/
theorem hostRead_halted (width : Nat) (off : BitVec 9) {s : State} (h : s.status.faulted = true) :
    Halted s (hostRead width off s) := by
  unfold hostRead
  split
  case h_1 => exact hostReadBuf_halted _ off h
  case h_7 =>
    rw [hostFault_faulted (s := answerFree off s) _ h]
    rfl
  all_goals rfl

/-- No input event but a reset wakes a faulted core. -/
theorem applyInput_halted {i : Input} {s : State} (hi : i ≠ .reset) (h : s.status.faulted = true)
    (hagenda : s.agenda = []) : Halted s (applyInput i s) := by
  cases i with
  | tick =>
    rw [applyInput, tick_of_idle hagenda]
    rfl
  | reset => exact absurd rfl hi
  | write width off v =>
    rw [applyInput, hostWrite_faulted width off v h]
    rfl
  | read width off => exact hostRead_halted width off h
  | waitIdle => rfl

/-- Settles O15: a faulted core has no action to perform and accepts no command, so its step is an input event. -/
theorem faultedCoreHalts : Obligations.FaultedCoreHalts := by
  intro s t hinv hfaulted hno hstep
  have hagenda := hinv.agenda_of_faulted hfaulted
  rcases step_moves hstep with ⟨rest, hreset, -⟩ | ⟨-, a, rest, hact, -⟩ | ⟨-, -, i, rest, hi, -, rfl⟩ |
    ⟨-, -, hidle, -⟩
  · exact absurd hreset (hno rest)
  · simp [hagenda] at hact
  · exact applyInput_halted (s := { s with inputs := rest }) hi hfaulted hagenda
  · simp [hidle.2] at hfaulted

end Sys2Proof.Machine
